-- ==== Sys2Proof/Word.lean ====
section
/-! DEFINITION. The words the block is made of: bus words and addresses (20_memory.md R80, R87), command words
(30_encoding.md R110), and the sample type S of the reference instance REF64 (00_scope.md R7). -/

namespace Sys2Proof

/-- The unit the host bus moves: 64 bits (00_scope.md R10). -/
abbrev Word := BitVec 64

/-- A word address of the host bus space: 24 bits (20_memory.md R80). -/
abbrev Addr := BitVec 24

/-- A command word (30_encoding.md R110). -/
abbrev Cmd := BitVec 32

/-- An opcode, a mode number, `err_op`. -/
abbrev Byte := BitVec 8

/-- An integer register (00_scope.md R10). -/
abbrev IntReg := BitVec 32

/-- A sample of `REF64`: a binary64 bit pattern (00_scope.md R7). Its bus image is itself (20_memory.md R86). -/
abbrev Sample := BitVec 64

end Sys2Proof
end

