-- ==== Sys2Proof/Syntax.lean ====
section
/-! DEFINITION. The ten commands of 30_encoding.md R112, one constructor per row of spec/opcode_table.json, and the
operand of `DST.APPLY` (30_encoding.md R113). -/

namespace Sys2Proof

/-- The `mode` operand of `DST.APPLY` (30_encoding.md R113). `unknown code` is every code but 1 to 4; all of them behave
alike (R115), and the code is kept so that no bit of the word is lost. -/
inductive DstMode where
  | soft
  | hard
  | sine
  | bitcrush
  | unknown (code : Byte)
  deriving DecidableEq, Repr

/-- The commands (30_encoding.md R112). -/
inductive Instr where
  | nop
  | dlyInit
  | dlyApply
  | dstApply (mode : DstMode)
  | revInit
  | revApply
  | ksPluck
  | ksGen
  | vibInit
  | vibApply
  deriving DecidableEq, Repr

end Sys2Proof
end

