-- ==== Sys2Proof/WellFormed.lean ====
section
/-! DEFINITION. Which terms of `Instr` stand for a command word: an unknown mode must not carry the code of a named one
(30_encoding.md R113). No other operand has a value the format cannot hold. -/

namespace Sys2Proof

/-- An unknown mode is 0 or 5 to 255 (30_encoding.md R113). -/
def DstMode.wellFormed : DstMode → Bool
  | .soft | .hard | .sine | .bitcrush => true
  | .unknown code => decide (code = 0#8) || decide (5#8 ≤ code)

/-- The term stands for a command word. -/
def Instr.wellFormed : Instr → Bool
  | .dstApply mode => mode.wellFormed
  | .nop | .dlyInit | .dlyApply | .revInit | .revApply | .ksPluck | .ksGen | .vibInit | .vibApply => true

end Sys2Proof
end

