-- ==== Sys2Proof/Decode.lean ====
section
/-! DEFINITION. Decoding a command word (30_encoding.md R110 to R115, 40_commands.md R142), total on every word and
refusing by name, and the encoder written from the same table. Decode reads no state. -/

namespace Sys2Proof

/-- Why a word is illegal: the three conditions of 30_encoding.md R114. All of them behave alike. -/
inductive Illegal where
  | reservedBits   -- bits 31:16 are not 0 (R114 item 1)
  | unknownOpcode  -- bits 7:0 name no command (R114 item 2)
  | argument       -- bits 15:8 are not 0 on a command that takes no operand (R114 item 3)
  deriving DecidableEq, Repr

/-- `op = cmd[7:0]` (30_encoding.md R110). -/
def opField (c : Cmd) : Byte := c.extractLsb' 0 8

/-- `arg = cmd[15:8]` (30_encoding.md R110). -/
def argField (c : Cmd) : Byte := c.extractLsb' 8 8

/-- `rsv = cmd[31:16]` (30_encoding.md R110). -/
def rsvField (c : Cmd) : BitVec 16 := c.extractLsb' 16 16

/-- The table of 30_encoding.md R113. -/
def decodeMode (m : Byte) : DstMode :=
  if m = 1#8 then .soft
  else if m = 2#8 then .hard
  else if m = 3#8 then .sine
  else if m = 4#8 then .bitcrush
  else .unknown m

/-- The rows of 30_encoding.md R112 that take no operand, by `op`. -/
def decodePlain (op : Byte) : Option Instr :=
  if op = 0x00#8 then some .nop
  else if op = 0x10#8 then some .dlyInit
  else if op = 0x11#8 then some .dlyApply
  else if op = 0x30#8 then some .revInit
  else if op = 0x31#8 then some .revApply
  else if op = 0x40#8 then some .ksPluck
  else if op = 0x41#8 then some .ksGen
  else if op = 0x50#8 then some .vibInit
  else if op = 0x51#8 then some .vibApply
  else none

/-- `decode(c)` of 40_commands.md R142: the command, or which condition of 30_encoding.md R114 makes the word illegal. -/
def decode (c : Cmd) : Except Illegal Instr :=
  if rsvField c ≠ 0#16 then .error .reservedBits
  else if opField c = 0x20#8 then .ok (.dstApply (decodeMode (argField c)))
  else
    match decodePlain (opField c) with
    | none => .error .unknownOpcode
    | some i => if argField c = 0#8 then .ok i else .error .argument

/-- The code of a mode (30_encoding.md R113). -/
def DstMode.code : DstMode → Byte
  | .soft => 1#8
  | .hard => 2#8
  | .sine => 3#8
  | .bitcrush => 4#8
  | .unknown c => c

/-- `op` of a command (30_encoding.md R112); what `err_op` records of a fault of that command (60_exceptions.md R283). -/
def Instr.opcode : Instr → Byte
  | .nop => 0x00#8
  | .dlyInit => 0x10#8
  | .dlyApply => 0x11#8
  | .dstApply _ => 0x20#8
  | .revInit => 0x30#8
  | .revApply => 0x31#8
  | .ksPluck => 0x40#8
  | .ksGen => 0x41#8
  | .vibInit => 0x50#8
  | .vibApply => 0x51#8

/-- `arg` of a command (30_encoding.md R112): the mode of `DST.APPLY`, 0 of every other. -/
def Instr.argument : Instr → Byte
  | .dstApply m => m.code
  | .nop | .dlyInit | .dlyApply | .revInit | .revApply | .ksPluck | .ksGen | .vibInit | .vibApply => 0#8

/-- The word of a command: `rsv ++ arg ++ op` (30_encoding.md R110). -/
def encode (i : Instr) : Cmd := 0#16 ++ (i.argument ++ i.opcode)

/-- The command word a 64-bit bus word carries: `w[31:0]` (30_encoding.md R110, 20_memory.md R87). -/
def commandOf (w : Word) : Cmd := w.extractLsb' 0 32

/-- The command the decoder reads from a word numbered as spec/opcode_table.json numbers it. A command is one 32-bit word,
so the bits above `nbits` are 0. -/
def decodeTableWord (nbits w : Nat) : Option Instr :=
  match decode (BitVec.ofNat 32 (w % (1 <<< nbits))) with
  | .ok i => some i
  | .error _ => none

end Sys2Proof
end

