-- ==== Sys2Proof/Config.lean ====
section
/-! DEFINITION. What an implementation of the block fixes, and the values the spec leaves open. The capacities are plain
data (00_scope.md R5). Every `opaque` constant is a free value: it has no body, so nothing can be proved of which value it
is, and a claim about the machine is a claim for every one (00_scope.md R6, 93_implementation_defined.md U7 to U10). -/

namespace Sys2Proof

/-- The capacities of 00_scope.md R5. `MAXL` is not independent. -/
structure Capacities where
  maxB   : Nat
  maxIR  : Nat
  maxDly : Nat
  maxKs  : Nat
  maxVib : Nat
  deriving DecidableEq, Repr

/-- `MAXL = MAXIR - 1 + MAXB` (00_scope.md R5). -/
def Capacities.maxL (c : Capacities) : Nat := c.maxIR - 1 + c.maxB

/-- The constraints of the table of 00_scope.md R5. -/
abbrev Capacities.legal (c : Capacities) : Prop :=
  (1 ≤ c.maxB ∧ c.maxB ≤ 1048576) ∧ (1 ≤ c.maxIR ∧ c.maxIR ≤ 1048576) ∧ c.maxL ≤ 524288 ∧
  (1 ≤ c.maxDly ∧ c.maxDly ≤ 1048576) ∧ (1 ≤ c.maxKs ∧ c.maxKs ≤ 1048576) ∧
  (2 ≤ c.maxVib ∧ c.maxVib ≤ 1048576)

/-- The reference configuration of 00_scope.md R5. -/
def Capacities.reference : Capacities where
  maxB   := 4096
  maxIR  := 262144
  maxDly := 1048576
  maxKs  := 4096
  maxVib := 4096

/-- The memories whose contents a reset or a destruction leaves unspecified (10_state.md R59). `rev_H` has two parts. -/
inductive MemId where
  | blk | irbuf | dlyBuf | revHRe | revHIm | revHist | ksBuf | vibBuf
  deriving DecidableEq, Repr

/-- The operations of 00_scope.md R6 that can answer a NaN. -/
inductive NumOp where
  | add | sub | mul | div | neg | abs | rint
  deriving DecidableEq, Repr

/-- The unspecified contents of cell `i` of a memory after reset number `epoch` (70_reset_and_hazards.md R324): a draw per
reset. DESIGN CHOICE, safe: log entry 6. -/
opaque Config.unwritten {S : Type} [Inhabited S] (epoch : Nat) (mem : MemId) (i : Nat) : S

/-- The noise source `NOISE` (00_scope.md R5, 44_karplus_strong.md R232): draw number `k`. The machine uses it through
`Sys2Proof.Machine.noiseDraw`. DESIGN CHOICE, safe: log entry 7. -/
opaque Config.noise {S : Type} [Inhabited S] (k : Nat) : S

/-- Which NaN an operation of `REF64` produces (93_implementation_defined.md U9). Used through
`Sys2Proof.Machine.Binary64.nan`. DESIGN CHOICE, safe where a NaN is a function of the operation and its operands: log
entry 2. -/
opaque Config.freeNaN (op : NumOp) (x y : Sample) : Sample

/-- `tanh` of `REF64`, a configuration function (00_scope.md R7). Used through `Sys2Proof.Machine.lawfulUnit`: log entry 3. -/
opaque Config.tanh (x : Sample) : Sample

/-- `sin` of `REF64`, a configuration function (00_scope.md R7). Used through `Sys2Proof.Machine.lawfulUnit`: log entry 3. -/
opaque Config.sin (x : Sample) : Sample

/-- `pow2` of `REF64`, a configuration function (00_scope.md R7). Used through `Sys2Proof.Machine.lawfulPow2`: log entry 3. -/
opaque Config.pow2 (x : Sample) : Sample

/-- `DFT` of `REF64`, a configuration function (00_scope.md R7). Used through `Sys2Proof.Machine.lawfulDft`: log entry 4. -/
opaque Config.dft (L : Nat) (v : Fin L → Sample) (k : Fin L) : Sample × Sample

/-- `IDFT` of `REF64`, a configuration function (00_scope.md R7). Used through `Sys2Proof.Machine.lawfulIdft`: log entry 4. -/
opaque Config.idft (L : Nat) (y : Fin L → Sample × Sample) (n : Fin L) : Sample × Sample

/-- The integer that `ifloor`, `iceil` and `itrunc` would give on a sample that is not finite; "the rules never apply them
elsewhere" (00_scope.md R6), so no reachable step uses it: log entry 11. -/
opaque Config.intOfNonFinite (x : Sample) : Int

/-- Where bus data is a sum of integer words and samples (20_memory.md R86), the sample that an integer word stands for: the
spec names none. DESIGN CHOICE, safe: log entry 21. -/
opaque Config.sampleOfInteger {S : Type} [Inhabited S] (w : Word) : S

/-- Where bus data is a sum of integer words and samples (20_memory.md R86), the integer word that a sample stands for: the
spec names none. DESIGN CHOICE, safe: log entry 21. -/
opaque Config.integerOfSample {S : Type} (x : S) : Word

end Sys2Proof
end

