-- ==== Sys2Proof/Machine/Num.lean ====
section
/-! DEFINITION. The numeric record `NUM` (00_scope.md R6): the sample type, its operations and its bus image, through which
every arithmetic step of a command and every bus access goes. The whole machine is written over any `Num S W`; the host's
interface runs it at `ref64` (00_scope.md R7), Machine/AnyNum.lean runs it at any other, and Machine/Exact.lean has the
record of the real numbers (R8). Here too: the laws of 00_scope.md R9. -/

namespace Sys2Proof.Machine

/-- The record of 00_scope.md R6. `S` is the sample type and `W` what the bus moves: a 64-bit word in `REF64`, an integer
word or a sample in `EXACT` (20_memory.md R86). `lit n d` is `lit(n/d)`. The transforms take the length and a vector of that
length. `encInt` and `decInt` are the bus image of an integer word, which R86 keeps apart from that of a sample. -/
structure Num (S W : Type) where
  lit    : Int → Nat → S
  pi     : S
  add    : S → S → S
  sub    : S → S → S
  mul    : S → S → S
  div    : S → S → S
  neg    : S → S
  abs    : S → S
  lt     : S → S → Bool
  le     : S → S → Bool
  eq     : S → S → Bool
  isfin  : S → Bool
  ofint  : Int → S
  ifloor : S → Int
  iceil  : S → Int
  itrunc : S → Int
  rint   : S → S
  tanh   : S → S
  sin    : S → S
  pow2   : S → S
  dft    : (L : Nat) → (Fin L → S) → Fin L → S × S
  idft   : (L : Nat) → (Fin L → S × S) → Fin L → S × S
  enc    : S → W
  dec    : W → S
  encInt : Word → W
  decInt : W → Word

variable {S W : Type}

/-- `x > y` (00_scope.md R6). -/
def Num.gt (N : Num S W) (x y : S) : Bool := N.lt y x

/-- `x >= y` (00_scope.md R6). -/
def Num.ge (N : Num S W) (x y : S) : Bool := N.le y x

/-- `lit(z)` of a whole number. -/
def Num.whole (N : Num S W) (z : Int) : S := N.lit z 1

/-- `clip(v, lo, hi)` (00_scope.md R12); a NaN passes through. -/
def Num.clip (N : Num S W) (v lo hi : S) : S :=
  if N.lt v lo then lo else if N.gt v hi then hi else v

/-- `maxabs` (00_scope.md R12). -/
def Num.maxabs (N : Num S W) (vs : List S) : S :=
  vs.foldl (fun m v => if N.gt (N.abs v) m then N.abs v else m) (N.whole 0)

/-- `cmul(a, b)` (00_scope.md R6). -/
def Num.cmul (N : Num S W) (a b : S × S) : S × S :=
  (N.sub (N.mul a.1 b.1) (N.mul a.2 b.2), N.add (N.mul a.1 b.2) (N.mul a.2 b.1))

/-- `x == 0` (00_scope.md R6): in `REF64` of both zeros. -/
def Num.isZero (N : Num S W) (x : S) : Bool := N.eq x (N.whole 0)

/-- Laws N1 to N10 of 00_scope.md R9. `val` is the number a finite sample stands for, and the half of a sample whose size is
at least `tiny` does not underflow. -/
structure Num.Laws {K : Type} [Field K] [LinearOrder K] [IsStrictOrderedRing K] (N : Num S W) (val : S → K) (tiny : K) :
    Prop where
  sumWithZero : ∀ x, N.isfin x = true →
    N.eq (N.add (N.whole 0) x) x = true ∧ N.eq (N.add x (N.whole 0)) x = true ∧ N.eq (N.sub x (N.whole 0)) x = true
  productWithZero : ∀ x, N.isfin x = true →
    N.isZero (N.mul (N.whole 0) x) = true ∧ N.isZero (N.mul x (N.whole 0)) = true
  productWithOne : ∀ x, N.isfin x = true →
    N.eq (N.mul (N.whole 1) x) x = true ∧ N.eq (N.mul x (N.whole 1)) x = true ∧ N.eq (N.div x (N.whole 1)) x = true
  oneMinus : N.isZero (N.sub (N.whole 1) (N.whole 1)) = true ∧ N.eq (N.sub (N.whole 1) (N.whole 0)) (N.whole 1) = true
  ofZero : N.isZero (N.tanh (N.whole 0)) = true ∧ N.isZero (N.sin (N.whole 0)) = true ∧ N.isZero (N.rint (N.whole 0)) = true
  unitBound : ∀ x, N.isfin x = true →
    N.le (N.abs (N.tanh x)) (N.whole 1) = true ∧ N.le (N.abs (N.sin x)) (N.whole 1) = true
  powers : ∀ k : Nat, 1 ≤ k → k ≤ 16 → N.isfin (N.pow2 (N.ofint k)) = true ∧ val (N.pow2 (N.ofint k)) = 2 ^ k
  half : ∀ x, N.isfin x = true → tiny ≤ |val x| → val (N.mul (N.lit 1 2) x) = val x / 2
  transformOfZeros : ∀ (L : Nat) (v : Fin L → S), (∀ i, N.isZero (v i) = true) →
    ∀ k, N.isZero (N.dft L v k).1 = true ∧ N.isZero (N.dft L v k).2 = true
  inverseOfZeros : ∀ (L : Nat) (y : Fin L → S × S), (∀ i, N.isZero (y i).1 = true ∧ N.isZero (y i).2 = true) →
    ∀ n, N.isZero (N.idft L y n).1 = true ∧ N.isZero (N.idft L y n).2 = true
  complexZero : ∀ a b : S × S, N.isZero a.1 = true → N.isZero a.2 = true → N.isfin b.1 = true → N.isfin b.2 = true →
    N.isZero (N.cmul a b).1 = true ∧ N.isZero (N.cmul a b).2 = true
  integers : ∀ z : Int, |z| ≤ 1048576 →
    N.isfin (N.ofint z) = true ∧ val (N.ofint z) = z ∧ N.ifloor (N.ofint z) = z ∧ N.iceil (N.ofint z) = z ∧
      N.itrunc (N.ofint z) = z

/-- Law N11 of 00_scope.md R9, as it is written. The arithmetic of R7 does not have it below 0 (NOTES.md). -/
def Num.FractionLaw {K : Type} [Field K] [LinearOrder K] (N : Num S W) (val : S → K) : Prop :=
  ∀ x, N.isfin x = true → |val x| ≤ 2097152 →
    val (N.sub x (N.ofint (N.ifloor x))) = val x - N.ifloor x ∧ 0 ≤ val (N.sub x (N.ofint (N.ifloor x))) ∧
      val (N.sub x (N.ofint (N.ifloor x))) < 1

/-- Law N12 of 00_scope.md R9 at one length: the transform pair turns elementwise products into circular convolution. -/
abbrev Num.ConvolutionLaw {K : Type} [Field K] (N : Num K W) (L : Nat) : Prop :=
  ∀ (v h : Fin L → K) (n : Fin L),
    N.idft L (fun k => N.cmul (N.dft L v k) (N.dft L h k)) n =
      (∑ m : Fin L, h m * v ⟨(n.val + (L - m.val)) % L, Nat.mod_lt _ (Nat.lt_of_le_of_lt (Nat.zero_le _) n.isLt)⟩, 0)

end Sys2Proof.Machine
end

