-- ==== Sys2Proof/Machine/State.lean ====
section
/-! DEFINITION. The state of the block (10_state.md R30), as plain data, and its value after reset (10_state.md R59). Five
fields are the model's own: `caps`, `epoch`, `draws` and the two of `host` (log entries 5 to 8). -/

namespace Sys2Proof.Machine

/-- A memory of cells (00_scope.md R11's `M`): (index, value) pairs, indices strictly rising. A cell that is not listed has
not been written since the last reset or destruction; what it reads as is `Sys2Proof.Config.unwritten` (log entries 6, 10). -/
abbrev Memory (α : Type) := List (Nat × α)

/-- Indices strictly rise, from `lo` on. -/
def Memory.risingFrom {α : Type} : Nat → Memory α → Bool
  | _, [] => true
  | lo, (i, _) :: m => decide (lo ≤ i) && Memory.risingFrom (i + 1) m

/-- The canonical form: indices strictly rise. -/
def Memory.wf {α : Type} (m : Memory α) : Bool := Memory.risingFrom 0 m

/-- The fault codes (60_exceptions.md R281). -/
inductive ErrCode where
  | none      -- no fault since reset
  | illCmd    -- the pending word matches no row
  | busy      -- a disallowed access while a command is pending
  | addr      -- an unmapped address, or a write to a read-only location
  | noState   -- an apply on a unit whose state is not valid
  | bsize     -- BSIZE is 0 or above MAXB
  | dlyLen    -- DLY.INIT: the length
  | revIr     -- REV.INIT: the impulse response
  | revLen    -- REV.APPLY: mismatched lengths
  | ksLen     -- KS.PLUCK: the length
  | vibLen    -- VIB.INIT: the rate or the length
  | vibIdx    -- VIB.APPLY: a read index is not finite
  deriving DecidableEq, Repr

/-- The twelve parameter registers (10_state.md R31). -/
structure Params (S : Type) where
  bsize     : IntReg
  rate      : S
  dlyTime   : S
  dlyFb     : S
  dlyMix    : S
  dstAmount : S
  dstMix    : S
  revIrlen  : IntReg
  ksLen     : IntReg
  ksDecay   : S
  vibF0     : S
  vibWidth  : S
  deriving DecidableEq, Repr

/-- The DLY unit state (10_state.md R53). -/
structure DlyUnit (S : Type) where
  valid : Bool
  n     : Nat
  idx   : Nat
  buf   : Memory S
  deriving DecidableEq, Repr

/-- The REV unit state (10_state.md R54): `p`, `b`, `l` are `rev_p`, `rev_b`, `rev_l`; an element of `h` is a pair (re, im). -/
structure RevUnit (S : Type) where
  valid : Bool
  p     : Nat
  b     : Nat
  l     : Nat
  h     : Memory (S × S)
  hist  : Memory S
  deriving DecidableEq, Repr

/-- The KS unit state (10_state.md R55). -/
structure KsUnit (S : Type) where
  valid : Bool
  n     : Nat
  head  : Nat
  buf   : Memory S
  deriving DecidableEq, Repr

/-- The VIB unit state (10_state.md R56, R57). -/
structure VibUnit (S : Type) where
  valid : Bool
  n     : Nat
  r     : S
  w     : Nat
  i1    : Nat
  buf   : Memory S
  deriving DecidableEq, Repr

/-- One line of a host script (30_encoding.md R117), or the reset input (70_reset_and_hazards.md R320). -/
inductive BusOp (W : Type) where
  | rd (addr : Addr)               -- MemRead(addr, 1)
  | wr (addr : Addr) (data : W)    -- MemWrite(addr, 1, data)
  | wait                           -- let the engine step run
  | rst                            -- the reset input is asserted
  deriving DecidableEq, Repr

/-- The host as the block sees it (00_scope.md R15): what it will do, and what its reads returned, oldest first. The
model's own: log entry 8. -/
structure HostPort (W : Type) where
  script   : List (BusOp W)
  returned : List W
  deriving DecidableEq, Repr

namespace AnyNum

/-- The whole state (10_state.md R30), after it the model's own fields. -/
structure State (S : Type) (W : Type) where
  pending : Option Cmd
  fault   : Bool
  errCode : ErrCode
  errOp   : Byte
  ien     : BitVec 2
  ipend   : BitVec 2
  cmdcnt  : IntReg
  vibneg  : Bool
  params  : Params S
  blk     : Memory S
  irbuf   : Memory S
  dly     : DlyUnit S
  rev     : RevUnit S
  ks      : KsUnit S
  vib     : VibUnit S
  caps    : Capacities
  epoch   : Nat
  draws   : Nat
  host    : HostPort W
  deriving DecidableEq, Repr

end AnyNum

/-- The state of the machine of `REF64` (00_scope.md R7): the samples are binary64, the bus moves 64-bit words. -/
abbrev State := AnyNum.State Sample Word

/-- No step of this machine stops: the spec turns every error into a state, the fault state of 60_exceptions.md R284, so
nothing raises a fault of the step function. Having no constructor is safe: it hides no effect the spec gives. Log entry 12. -/
inductive Fault where
  deriving DecidableEq, Repr

/-- The step function refuses no command of the opcode table. -/
inductive Refusal where
  /-- Raised by the dispatch for a command that has no meaning yet, and by nothing else. Safe: the machine stops where the
  hardware goes on. No arm raises it. -/
  | notModelled (mnemonic : String)
  deriving DecidableEq, Repr

/-- A destroyed DLY state (10_state.md R50 item 2). -/
def DlyUnit.destroyed {S : Type} : DlyUnit S := { valid := false, n := 0, idx := 0, buf := [] }

/-- A destroyed REV state (10_state.md R50 item 2). -/
def RevUnit.destroyed {S : Type} : RevUnit S := { valid := false, p := 0, b := 0, l := 0, h := [], hist := [] }

/-- A destroyed KS state (10_state.md R50 item 2). -/
def KsUnit.destroyed {S : Type} : KsUnit S := { valid := false, n := 0, head := 0, buf := [] }

/-- A destroyed VIB state (10_state.md R50 item 2): `vib_r` is `zero`, `lit(0)`. -/
def VibUnit.destroyed {S : Type} (zero : S) : VibUnit S := { valid := false, n := 0, r := zero, w := 0, i1 := 0, buf := [] }

/-- The parameter registers after reset (10_state.md R59): 0, and `zero`, `lit(0)`, for a sample register. -/
def Params.reset {S : Type} (zero : S) : Params S where
  bsize     := 0#32
  rate      := zero
  dlyTime   := zero
  dlyFb     := zero
  dlyMix    := zero
  dstAmount := zero
  dstMix    := zero
  revIrlen  := 0#32
  ksLen     := 0#32
  ksDecay   := zero
  vibF0     := zero
  vibWidth  := zero

/-- The state after reset (10_state.md R59) for any `NUM`, `zero` being its `lit(0)`. The capacities are the reference
configuration, no value has been drawn and the host has no script (DESIGN CHOICE: log entries 5 to 8). -/
def AnyNum.State.reset {S W : Type} (zero : S) : AnyNum.State S W where
  pending := none
  fault   := false
  errCode := .none
  errOp   := 0#8
  ien     := 0#2
  ipend   := 0#2
  cmdcnt  := 0#32
  vibneg  := false
  params  := Params.reset zero
  blk     := []
  irbuf   := []
  dly     := DlyUnit.destroyed
  rev     := RevUnit.destroyed
  ks      := KsUnit.destroyed
  vib     := VibUnit.destroyed zero
  caps    := Capacities.reference
  epoch   := 0
  draws   := 0
  host    := { script := [], returned := [] }

/-- The state after reset of the machine of `REF64`, whose `lit(0)` is the word 0 (00_scope.md R7). -/
def State.reset : State := AnyNum.State.reset 0x0000000000000000#64

end Sys2Proof.Machine
end

