-- ==== Sys2Proof/Machine/Ops.lean ====
section
/-! DEFINITION. The named operations over memories and the state: cells, fault entry (60_exceptions.md R283) and the only
way back from it, reset (R284), completion (40_commands.md R141), and the destruction of unit state (10_state.md R50). -/

namespace Sys2Proof.Machine

variable {α : Type}

/-- The value cell `i` was written with, if it has been written. -/
def Memory.find : Memory α → Nat → Option α
  | [], _ => none
  | (j, v) :: m, i => if i = j then some v else Memory.find m i

/-- `M[i]` (00_scope.md R11). `unw` is what a cell that has not been written reads as. -/
def Memory.read (unw : Nat → α) (m : Memory α) (i : Nat) : α := (m.find i).getD (unw i)

/-- `M[i] <- v` (00_scope.md R11), keeping the canonical form. -/
def Memory.write : Memory α → Nat → α → Memory α
  | [], i, v => [(i, v)]
  | (j, w) :: m, i, v =>
    if i < j then (i, v) :: (j, w) :: m
    else if i = j then (i, v) :: m
    else (j, w) :: Memory.write m i v

/-- `M[i .. i+len-1] <- vs`, in ascending order. -/
def Memory.writeList : Memory α → Nat → List α → Memory α
  | m, _, [] => m
  | m, i, v :: vs => Memory.writeList (m.write i v) (i + 1) vs

/-- `M[i .. i+n-1]` as a list. -/
def Memory.readList (unw : Nat → α) (m : Memory α) : Nat → Nat → List α
  | _, 0 => []
  | i, n + 1 => m.read unw i :: Memory.readList unw m (i + 1) n

/-- A memory whose cells from `i` on are `vs` and which has no other. -/
def Memory.ofList : Nat → List α → Memory α
  | _, [] => []
  | i, v :: vs => (i, v) :: Memory.ofList (i + 1) vs

/-- What an unwritten cell of a memory reads as in this state (70_reset_and_hazards.md R324): log entry 6. -/
def AnyNum.State.unwritten {S W : Type} [Inhabited S] (s : AnyNum.State S W) (mem : MemId) (i : Nat) : S := Config.unwritten s.epoch mem i

/-- `BLK[i]`. -/
def AnyNum.State.blkAt {S W : Type} [Inhabited S] (s : AnyNum.State S W) (i : Nat) : S := s.blk.read (s.unwritten .blk) i

/-- `IRBUF[i]`. -/
def AnyNum.State.irAt {S W : Type} [Inhabited S] (s : AnyNum.State S W) (i : Nat) : S := s.irbuf.read (s.unwritten .irbuf) i

/-- `dly_buf[i]`. -/
def AnyNum.State.dlyAt {S W : Type} [Inhabited S] (s : AnyNum.State S W) (i : Nat) : S := s.dly.buf.read (s.unwritten .dlyBuf) i

/-- `rev_H[i]`. -/
def AnyNum.State.revHAt {S W : Type} [Inhabited S] (s : AnyNum.State S W) (i : Nat) : S × S :=
  s.rev.h.read (fun k => (s.unwritten .revHRe k, s.unwritten .revHIm k)) i

/-- `rev_hist[i]`. -/
def AnyNum.State.histAt {S W : Type} [Inhabited S] (s : AnyNum.State S W) (i : Nat) : S := s.rev.hist.read (s.unwritten .revHist) i

/-- `ks_buf[i]`. -/
def AnyNum.State.ksAt {S W : Type} [Inhabited S] (s : AnyNum.State S W) (i : Nat) : S := s.ks.buf.read (s.unwritten .ksBuf) i

/-- `vib_buf[i]`. -/
def AnyNum.State.vibAt {S W : Type} [Inhabited S] (s : AnyNum.State S W) (i : Nat) : S := s.vib.buf.read (s.unwritten .vibBuf) i

/-- A loop over samples in ascending order (00_scope.md R11): each iteration sees what the one before left. -/
def loop {σ β : Type} (f : σ → α → β × σ) : σ → List α → List β × σ
  | c, [] => ([], c)
  | c, x :: xs =>
    let r := f c x
    let rest := loop f r.2 xs
    (r.1 :: rest.1, rest.2)

/-- As `loop`, with the index of the iteration, and an iteration may fault: the whole loop then faults. -/
def loopE {σ β ε : Type} (f : Nat → σ → α → Except ε (β × σ)) : Nat → σ → List α → Except ε (List β × σ)
  | _, c, [] => .ok ([], c)
  | n, c, x :: xs =>
    match f n c x with
    | .error e => .error e
    | .ok r =>
      match loopE f (n + 1) r.2 xs with
      | .error e => .error e
      | .ok rest => .ok (r.1 :: rest.1, rest.2)

/-- Fault entry, `raise E_X(op)` (60_exceptions.md R283): the code, the opcode byte, `ipend.FAULT` and the fault flag, the
first fault only; the pending command is discarded; nothing else changes. -/
def raise {S W : Type} (e : ErrCode) (op : Byte) (s : AnyNum.State S W) : AnyNum.State S W :=
  if s.fault then { s with pending := none }
  else { s with pending := none, fault := true, errCode := e, errOp := op, ipend := s.ipend ||| 2#2 }

/-- What the engine does when a command completes without a fault (40_commands.md R141). -/
def complete {S W : Type} (s : AnyNum.State S W) : AnyNum.State S W :=
  { s with pending := none, cmdcnt := s.cmdcnt + 1#32, ipend := s.ipend ||| 1#2 }

/-- The outcome of performing a command: its writes all at once, or its fault and none of them (40_commands.md R141, R143). -/
def commit {S W : Type} (op : Byte) (r : Except ErrCode (AnyNum.State S W)) (s : AnyNum.State S W) : AnyNum.State S W :=
  match r with
  | .error e => raise e op s
  | .ok t => complete t

/-- Hard reset (70_reset_and_hazards.md R320) and soft reset (R321), the only exits from a fault (60_exceptions.md R284):
the state after reset. The parameters of the block and the host are not state of the block and stay; the epoch
advances, so that the unspecified contents are drawn afresh (10_state.md R59). -/
def resetBlock {S W : Type} (N : Num S W) (s : AnyNum.State S W) : AnyNum.State S W :=
  { (AnyNum.State.reset (N.whole 0) : AnyNum.State S W) with caps := s.caps, epoch := s.epoch + 1, draws := s.draws, host := s.host }

/-- The DLY unit state is destroyed (10_state.md R50). -/
def destroyDly {S W : Type} (s : AnyNum.State S W) : AnyNum.State S W := { s with dly := DlyUnit.destroyed }

/-- The REV unit state is destroyed (10_state.md R50). -/
def destroyRev {S W : Type} (s : AnyNum.State S W) : AnyNum.State S W := { s with rev := RevUnit.destroyed }

/-- The KS unit state is destroyed (10_state.md R50). -/
def destroyKs {S W : Type} (s : AnyNum.State S W) : AnyNum.State S W := { s with ks := KsUnit.destroyed }

/-- The VIB unit state is destroyed (10_state.md R50). -/
def destroyVib {S W : Type} (N : Num S W) (s : AnyNum.State S W) : AnyNum.State S W := { s with vib := VibUnit.destroyed (N.whole 0) }

/-- The host's read returned `d`. -/
def returned {S W : Type} (d : W) (s : AnyNum.State S W) : AnyNum.State S W :=
  { s with host := { s.host with returned := s.host.returned ++ [d] } }

end Sys2Proof.Machine
end

