-- ==== Sys2Proof/Machine/Control.lean ====
section
/-! DEFINITION. `NOP` (40_commands.md R146) and what the engine does with an illegal word (40_commands.md R141, R142). -/

namespace Sys2Proof.Machine

/-- `NOP` (40_commands.md R146): nothing but the bookkeeping of R141. -/
def execNop (s : State) : Host.Outcome State Fault Refusal :=
  .next (commit Instr.nop.opcode (.ok s) s)

/-- An illegal word (40_commands.md R141, 30_encoding.md R114): `E_ILLCMD` with `err_op = cmd[7:0]`. -/
def illegalCommand {S W : Type} (c : Cmd) (s : AnyNum.State S W) : AnyNum.State S W := raise .illCmd (opField c) s

end Sys2Proof.Machine
end

