-- ==== Sys2Proof/Machine/Operands.lean ====
section
/-! DEFINITION. Where commands and bus accesses find their operands: the block (40_commands.md R144, R145), the impulse
response (43_reverb.md R200), and the places an address names (20_memory.md R83, R85). -/

namespace Sys2Proof.Machine

variable {S W : Type}

/-- `B = R.BSIZE` and the block-size check (40_commands.md R144). -/
def blockSize (s : AnyNum.State S W) : Except ErrCode Nat :=
  if s.params.bsize.toNat = 0 ∨ s.caps.maxB < s.params.bsize.toNat then .error .bsize
  else .ok s.params.bsize.toNat

/-- The input block: a copy of `BLK[0 .. B-1]` (40_commands.md R145). -/
def inputBlock [Inhabited S] (s : AnyNum.State S W) (B : Nat) : List S := s.blk.readList (s.unwritten .blk) 0 B

/-- `BLK[0 .. B-1] <- out` (40_commands.md R145). -/
def outputBlock (out : List S) (s : AnyNum.State S W) : AnyNum.State S W := { s with blk := s.blk.writeList 0 out }

/-- `IRBUF[0 .. P-1]` (43_reverb.md R200). -/
def impulseResponse [Inhabited S] (s : AnyNum.State S W) (P : Nat) : List S := s.irbuf.readList (s.unwritten .irbuf) 0 P

/-- The registers of 20_memory.md R85. -/
inductive Reg where
  | id | cmd | status | err | ien | ipend | ctrl | cmdcnt
  | bsize | rate
  | dlyTime | dlyFb | dlyMix | dlyLen | dlyIdx
  | dstAmount | dstMix
  | revIrlen | revL
  | ksLen | ksDecay | ksHead
  | vibF0 | vibWidth | vibLen | vibRidx | vibWidx | vibI1
  deriving DecidableEq, Repr

/-- The register at an offset of region `REG` (20_memory.md R85); every other offset is unmapped. -/
def regAt (offset : Nat) : Option Reg :=
  match offset with
  | 0x00 => some .id
  | 0x01 => some .cmd
  | 0x02 => some .status
  | 0x03 => some .err
  | 0x04 => some .ien
  | 0x05 => some .ipend
  | 0x06 => some .ctrl
  | 0x07 => some .cmdcnt
  | 0x10 => some .bsize
  | 0x11 => some .rate
  | 0x20 => some .dlyTime
  | 0x21 => some .dlyFb
  | 0x22 => some .dlyMix
  | 0x23 => some .dlyLen
  | 0x24 => some .dlyIdx
  | 0x30 => some .dstAmount
  | 0x31 => some .dstMix
  | 0x40 => some .revIrlen
  | 0x41 => some .revL
  | 0x50 => some .ksLen
  | 0x51 => some .ksDecay
  | 0x52 => some .ksHead
  | 0x60 => some .vibF0
  | 0x61 => some .vibWidth
  | 0x62 => some .vibLen
  | 0x63 => some .vibRidx
  | 0x64 => some .vibWidx
  | 0x65 => some .vibI1
  | _ => none

/-- What a bus address names in the present state (20_memory.md R83). -/
inductive Place where
  | reg (r : Reg)
  | blk (i : Nat)
  | irbuf (i : Nat)
  | dlyBuf (i : Nat)
  | revHist (i : Nat)
  | revH (k : Nat)   -- the offset, 2k for a real part and 2k+1 for an imaginary one (R84)
  | ksBuf (i : Nat)
  | vibBuf (i : Nat)
  | unmapped
  deriving DecidableEq, Repr

/-- The region of an address, `addr[23:20]` (20_memory.md R83). -/
def region (a : Addr) : Nat := a.toNat / 0x100000

/-- The offset of an address in its region, `addr[19:0]` (20_memory.md R83). -/
def offset (a : Addr) : Nat := a.toNat % 0x100000

/-- A place of a window that is mapped below `limit` only (20_memory.md R83, R84). -/
def within (i limit : Nat) (p : Place) : Place := if i < limit then p else .unmapped

/-- The address map (20_memory.md R83). The windows follow the units' present lengths (R84). -/
def place (s : AnyNum.State S W) (a : Addr) : Place :=
  match region a with
  | 0 =>
    match regAt (offset a) with
    | some r => .reg r
    | none => .unmapped
  | 1 => within (offset a) s.caps.maxB (.blk (offset a))
  | 2 => within (offset a) s.caps.maxIR (.irbuf (offset a))
  | 3 => within (offset a) s.dly.n (.dlyBuf (offset a))
  | 4 => within (offset a) s.rev.l (.revHist (offset a))
  | 5 => within (offset a) (2 * s.rev.l) (.revH (offset a))
  | 6 => within (offset a) s.ks.n (.ksBuf (offset a))
  | 7 => within (offset a) s.vib.n (.vibBuf (offset a))
  | _ => .unmapped

/-- The registers the host may read while a command is pending (20_memory.md R91). -/
def Reg.readableWhileBusy : Reg → Bool
  | .id | .status | .err | .ien | .ipend | .cmdcnt => true
  | _ => false

end Sys2Proof.Machine
end

