-- ==== Sys2Proof/Machine/Binary64.lean ====
section
/-! DEFINITION. The arithmetic of `REF64` (00_scope.md R7): IEEE 754 binary64, round to nearest, ties to even, gradual
underflow, no traps. A finite sample is a whole number of units of 2^-1074; every operation computes the exact result in
those units and rounds it once (`roundMag`). What R7 takes from IEEE 754 by reference (signs of zeros, infinities) is as
that standard says: PRESUMED, log entry 18. -/

namespace Sys2Proof.Machine.Binary64

/-- 2^52: the weight of the lowest exponent bit. -/
def expUnit : Nat := 0x10000000000000

/-- Bits 62:0 of an infinity. -/
def infMag : Nat := 0x7FF0000000000000

/-- How many units of 2^-1074 make 1. -/
def one : Nat := 1 <<< 1074

/-- Bit 63, the sign (00_scope.md R7). -/
def negative (x : Sample) : Bool := decide (0x8000000000000000 ≤ x.toNat)

/-- Bits 62:0: exponent and fraction as one number; a larger magnitude is a larger number. -/
def magnitude (x : Sample) : Nat := x.toNat % 0x8000000000000000

/-- A sample of a sign and of bits 62:0. -/
def pack (neg : Bool) (mag : Nat) : Sample :=
  BitVec.ofNat 64 (if neg then 0x8000000000000000 + mag else mag)

def isFinite (x : Sample) : Bool := decide (magnitude x < infMag)
def isInf (x : Sample) : Bool := decide (magnitude x = infMag)
def isNaN (x : Sample) : Bool := decide (infMag < magnitude x)
def isZero (x : Sample) : Bool := decide (magnitude x = 0)

/-- The number of units of 2^-1074 that bits 62:0 stand for; of no use unless the sample is finite. -/
def magUnits (mag : Nat) : Nat :=
  if mag < expUnit then mag else (expUnit + mag % expUnit) <<< (mag / expUnit - 1)

/-- The absolute value of a finite sample in units of 2^-1074. -/
def units (x : Sample) : Nat := magUnits (magnitude x)

/-- The value of a finite sample in units of 2^-1074. -/
def value (x : Sample) : Int := if negative x then -(units x : Int) else units x

/-- The whole number nearest `num / den`, ties to even. -/
def nearestEven (num den : Nat) : Nat :=
  let q := num / den
  let r := num % den
  if 2 * r < den then q else if den < 2 * r then q + 1 else q + q % 2

/-- Bits 62:0 of the binary64 number nearest `num / den` units, ties to even, an infinity past the largest finite one. The
shift makes the result 53 bits long; with a shift of 0 it is a subnormal number or in the first normal binade. -/
def roundMag (num den : Nat) : Nat :=
  let shift := Nat.log2 (num / den) - 52
  min infMag (shift * expUnit + nearestEven num (den <<< shift))

/-- The sample nearest `± num / den` units. -/
def round (neg : Bool) (num den : Nat) : Sample := pack neg (roundMag num den)

/-- The NaN an operation produces: any NaN (93_implementation_defined.md U9). DESIGN CHOICE: log entry 2. -/
def nan (op : NumOp) (x y : Sample) : Sample :=
  let r := Config.freeNaN op x y
  if isNaN r then r else 0x7FF8000000000000#64

/-- The sign of a sample inverted. -/
def flip (x : Sample) : Sample := pack (!negative x) (magnitude x)

/-- Addition of IEEE 754; an exact zero sum is +0 unless both operands are negative zeros. -/
def addAs (op : NumOp) (x y : Sample) : Sample :=
  if isNaN x || isNaN y then nan op x y
  else if isInf x then (if isInf y && (negative x != negative y) then nan op x y else x)
  else if isInf y then y
  else
    let v := value x + value y
    if v = 0 then pack (negative x && negative y) 0 else round (decide (v < 0)) v.natAbs 1

def add (x y : Sample) : Sample := addAs .add x y

/-- `x - y = x + (-y)`, with a NaN of its own. -/
def sub (x y : Sample) : Sample :=
  if isNaN x || isNaN y then nan .sub x y else addAs .sub x (flip y)

def mul (x y : Sample) : Sample :=
  let s := negative x != negative y
  if isNaN x || isNaN y then nan .mul x y
  else if isInf x || isInf y then (if isZero x || isZero y then nan .mul x y else pack s infMag)
  else round s (units x * units y) one

def div (x y : Sample) : Sample :=
  let s := negative x != negative y
  if isNaN x || isNaN y then nan .div x y
  else if isInf x then (if isInf y then nan .div x y else pack s infMag)
  else if isInf y then pack s 0
  else if isZero y then (if isZero x then nan .div x y else pack s infMag)
  else round s (units x * one) (units y)

def neg (x : Sample) : Sample := if isNaN x then nan .neg x x else flip x
def abs (x : Sample) : Sample := if isNaN x then nan .abs x x else pack false (magnitude x)

/-- Sign-magnitude order as a number; the two zeros have the same key. -/
def key (x : Sample) : Int := if negative x then -(magnitude x : Int) else magnitude x

/-- Comparisons are numeric and false on a NaN (00_scope.md R6). -/
def lt (x y : Sample) : Bool := !isNaN x && !isNaN y && decide (key x < key y)
def le (x y : Sample) : Bool := !isNaN x && !isNaN y && decide (key x ≤ key y)
def eq (x y : Sample) : Bool := !isNaN x && !isNaN y && decide (key x = key y)

/-- `lit(n/d)`: the binary64 number nearest the rational (00_scope.md R7). -/
def lit (n : Int) (d : Nat) : Sample := round (decide (n < 0)) (n.natAbs * one) d

/-- `ofint(z)`: the binary64 number nearest the integer (00_scope.md R7). -/
def ofint (z : Int) : Sample := round (decide (z < 0)) (z.natAbs * one) 1

/-- Floor, ceiling and truncation of a finite sample as exact integers (00_scope.md R6). -/
def ifloor (x : Sample) : Int :=
  if isFinite x then value x / (one : Int) else Config.intOfNonFinite x
def iceil (x : Sample) : Int :=
  if isFinite x then -(-value x / (one : Int)) else Config.intOfNonFinite x
def itrunc (x : Sample) : Int :=
  if isFinite x then (if negative x then -((units x / one : Nat) : Int) else ((units x / one : Nat) : Int))
  else Config.intOfNonFinite x

/-- roundToIntegralTiesToEven (00_scope.md R7): the sign is kept, an infinity is its own result. -/
def rint (x : Sample) : Sample :=
  if isNaN x then nan .rint x x
  else if isInf x then x
  else round (negative x) (nearestEven (units x) one * one) 1

end Sys2Proof.Machine.Binary64
end

