-- ==== Sys2Proof/Machine/Ref64.lean ====
section
/-! DEFINITION. `ref64`, the instance of `NUM` the machine runs on (00_scope.md R7). Its transcendentals and transforms are
configuration functions (`Config`): each is used through a function here that keeps every result the laws of 00_scope.md
R9 allow and replaces only a result they forbid, so the machine's `tanh` is any lawful `tanh` and no other. -/

namespace Sys2Proof.Machine

/-- A value that must be a zero: itself if it is one. -/
def zeroOf (x : Sample) : Sample := if Binary64.isZero x then x else Binary64.ofint 0

/-- `f` within laws N5 and N6 of 00_scope.md R9. Of a zero the law fixes the number, not its sign; the law's 0 is read as
either zero, as 42_distortion.md R190 does (DEDUCED: log entry 3). -/
def lawfulUnit (f : Sample → Sample) (x : Sample) : Sample :=
  if Binary64.isFinite x then
    if Binary64.isZero x then zeroOf (f x)
    else if Binary64.le (Binary64.pack false (Binary64.magnitude (f x))) (Binary64.ofint 1) then f x
    else Binary64.ofint 0
  else f x

/-- `f` within law N7 of 00_scope.md R9: exact at the integers 1 to 16. -/
def lawfulPow2 (f : Sample → Sample) (x : Sample) : Sample :=
  if Binary64.isFinite x && Binary64.eq x (Binary64.ofint (Binary64.itrunc x)) &&
      decide (1 ≤ Binary64.itrunc x) && decide (Binary64.itrunc x ≤ 16) then
    Binary64.ofint (((1 <<< (Binary64.itrunc x).toNat : Nat) : Int))
  else f x

/-- `f` within law N9 of 00_scope.md R9: the transform of a zero vector is zero. -/
def lawfulDft (f : (L : Nat) → (Fin L → Sample) → Fin L → Sample × Sample)
    (L : Nat) (v : Fin L → Sample) (k : Fin L) : Sample × Sample :=
  if (List.finRange L).all (fun i => Binary64.isZero (v i)) then (zeroOf (f L v k).1, zeroOf (f L v k).2)
  else f L v k

/-- `f` within law N9 of 00_scope.md R9: the inverse transform of a zero vector is zero. -/
def lawfulIdft (f : (L : Nat) → (Fin L → Sample × Sample) → Fin L → Sample × Sample)
    (L : Nat) (y : Fin L → Sample × Sample) (n : Fin L) : Sample × Sample :=
  if (List.finRange L).all (fun i => Binary64.isZero (y i).1 && Binary64.isZero (y i).2) then
    (zeroOf (f L y n).1, zeroOf (f L y n).2)
  else f L y n

/-- `REF64` (00_scope.md R7). The bus image of a sample is its bit pattern (20_memory.md R86). -/
def ref64 : Num Sample Word where
  lit    := Binary64.lit
  pi     := 0x400921FB54442D18#64
  add    := Binary64.add
  sub    := Binary64.sub
  mul    := Binary64.mul
  div    := Binary64.div
  neg    := Binary64.neg
  abs    := Binary64.abs
  lt     := Binary64.lt
  le     := Binary64.le
  eq     := Binary64.eq
  isfin  := Binary64.isFinite
  ofint  := Binary64.ofint
  ifloor := Binary64.ifloor
  iceil  := Binary64.iceil
  itrunc := Binary64.itrunc
  rint   := Binary64.rint
  tanh   := lawfulUnit Config.tanh
  sin    := lawfulUnit Config.sin
  pow2   := lawfulPow2 Config.pow2
  dft    := lawfulDft Config.dft
  idft   := lawfulIdft Config.idft
  enc    := fun v => v
  dec    := fun w => w
  encInt := fun w => w
  decInt := fun w => w

end Sys2Proof.Machine
end

