-- ==== Sys2Proof/Machine/Delay.lean ====
section
/-! DEFINITION. DLY, the feedback delay line: `DLY.INIT` (41_delay.md R160), `DLY.APPLY` (R161). -/

namespace Sys2Proof.Machine

variable {S W : Type}

/-- The length `DLY.INIT` computes, or its fault (41_delay.md R160): the floor of the rounded product. -/
def dlyLength (N : Num S W) (cap : Nat) (time rate : S) : Except ErrCode Nat :=
  let t := N.mul time rate
  if N.isfin t = false then .error .dlyLen
  else if N.ifloor t ≤ 0 then .error .dlyLen
  else if (cap : Int) < N.ifloor t then .error .dlyLen
  else .ok (N.ifloor t).toNat

/-- What the loop of 41_delay.md R161 carries from sample to sample. -/
structure DlyLoop (S : Type) where
  idx : Nat
  buf : Memory S

/-- One sample of 41_delay.md R161: read, compute the output, write back, advance. -/
def dlySample (N : Num S W) (unw : Nat → S) (n : Nat) (fb mix : S) (c : DlyLoop S) (dry : S) : S × DlyLoop S :=
  let delayed := c.buf.read unw c.idx
  (N.add (N.mul (N.sub (N.whole 1) mix) dry) (N.mul mix delayed),
    { idx := (c.idx + 1) % n, buf := c.buf.write c.idx (N.add dry (N.mul delayed fb)) })

/-- The loop of 41_delay.md R161 over a block. -/
def dlyBlock (N : Num S W) (unw : Nat → S) (n : Nat) (fb mix : S) (c : DlyLoop S) (x : List S) : List S × DlyLoop S :=
  loop (dlySample N unw n fb mix) c x

/-- `DLY.INIT` on the state (41_delay.md R160). -/
def dlyInit (N : Num S W) (s : AnyNum.State S W) : Except ErrCode (AnyNum.State S W) :=
  match dlyLength N s.caps.maxDly s.params.dlyTime s.params.rate with
  | .error e => .error e
  | .ok n =>
    .ok { s with dly := { valid := true, n := n, idx := 0, buf := Memory.ofList 0 (List.replicate n (N.whole 0)) } }

/-- The loop of `DLY.APPLY` run on the state's block and delay line (41_delay.md R161). -/
def dlyRun [Inhabited S] (N : Num S W) (s : AnyNum.State S W) (B : Nat) : List S × DlyLoop S :=
  dlyBlock N (s.unwritten .dlyBuf) s.dly.n s.params.dlyFb s.params.dlyMix
    { idx := s.dly.idx, buf := s.dly.buf } (inputBlock s B)

/-- `DLY.APPLY` on the state (41_delay.md R161). -/
def dlyApply [Inhabited S] (N : Num S W) (s : AnyNum.State S W) : Except ErrCode (AnyNum.State S W) :=
  match blockSize s with
  | .error e => .error e
  | .ok B =>
    if s.dly.valid = false then .error .noState
    else
      let r := dlyRun N s B
      .ok (outputBlock r.1 { s with dly := { s.dly with idx := r.2.idx, buf := r.2.buf } })

/-- `DLY.INIT` (41_delay.md R160). -/
def execDlyInit (s : State) : Host.Outcome State Fault Refusal :=
  .next (commit Instr.dlyInit.opcode (dlyInit ref64 s) s)

/-- `DLY.APPLY` (41_delay.md R161). -/
def execDlyApply (s : State) : Host.Outcome State Fault Refusal :=
  .next (commit Instr.dlyApply.opcode (dlyApply ref64 s) s)

end Sys2Proof.Machine
end

