-- ==== Sys2Proof/Machine/Distortion.lean ====
section
/-! DEFINITION. DST, the nonlinear waveshaper: `DST.APPLY` (42_distortion.md R180 to R186). It has no state. -/

namespace Sys2Proof.Machine

variable {S W : Type}

/-- `soft` (42_distortion.md R181). -/
def shapeSoft (N : Num S W) (a x : S) : S := N.tanh (N.mul a x)

/-- The threshold of `hard`, `clip(a, 0.01, 1)` (42_distortion.md R182). -/
def hardThreshold (N : Num S W) (a : S) : S := N.clip a (N.lit 1 100) (N.whole 1)

/-- `hard` (42_distortion.md R182). -/
def shapeHard (N : Num S W) (a x : S) : S :=
  let t := hardThreshold N a
  N.div (N.clip x (N.neg t) t) t

/-- `sine` (42_distortion.md R183), evaluated left to right. -/
def shapeSine (N : Num S W) (a x : S) : S := N.mul (N.lit 8 10) (N.sin (N.mul (N.mul N.pi a) x))

/-- The quantisation step of `bitcrush`, `2^clip(a, 1, 16)`, the exponent not rounded (42_distortion.md R184). -/
def crushLevels (N : Num S W) (a : S) : S := N.pow2 (N.clip a (N.whole 1) (N.whole 16))

/-- `bitcrush` (42_distortion.md R184), evaluated left to right. -/
def shapeBitcrush (N : Num S W) (a x : S) : S :=
  let levels := crushLevels N a
  N.div (N.mul (N.lit 8 10) (N.rint (N.mul x levels))) levels

/-- `shape(mode, a, x)` (42_distortion.md R181 to R185); an unknown mode passes the sample through (R185). -/
def shape (N : Num S W) (mode : DstMode) (a x : S) : S :=
  match mode with
  | .soft => shapeSoft N a x
  | .hard => shapeHard N a x
  | .sine => shapeSine N a x
  | .bitcrush => shapeBitcrush N a x
  | .unknown _ => x

/-- One sample of 42_distortion.md R180, with the output stage of R186. -/
def dstSample (N : Num S W) (mode : DstMode) (a m x : S) : S :=
  let wet := shape N mode a x
  N.clip (N.add (N.mul (N.sub (N.whole 1) m) x) (N.mul m wet)) (N.lit (-99) 100) (N.lit 99 100)

/-- The output block (42_distortion.md R180): elementwise. -/
def dstBlock (N : Num S W) (mode : DstMode) (a m : S) (x : List S) : List S := x.map (dstSample N mode a m)

/-- `DST.APPLY` on the state (42_distortion.md R180). -/
def dstApply [Inhabited S] (N : Num S W) (mode : DstMode) (s : AnyNum.State S W) : Except ErrCode (AnyNum.State S W) :=
  match blockSize s with
  | .error e => .error e
  | .ok B => .ok (outputBlock (dstBlock N mode s.params.dstAmount s.params.dstMix (inputBlock s B)) s)

/-- `DST.APPLY` (42_distortion.md R180). -/
def execDstApply (mode : DstMode) (s : State) : Host.Outcome State Fault Refusal :=
  .next (commit (Instr.dstApply mode).opcode (dstApply ref64 mode s) s)

end Sys2Proof.Machine
end

