-- ==== Sys2Proof/Machine/KarplusStrong.lean ====
section
/-! DEFINITION. KS, the Karplus-Strong resonator: `KS.PLUCK` (44_karplus_strong.md R230), `KS.GEN` (R231). -/

namespace Sys2Proof.Machine

variable {S W : Type}

/-- What the loop of 44_karplus_strong.md R231 carries from sample to sample. -/
structure KsLoop (S : Type) where
  head : Nat
  buf  : Memory S

/-- The value appended to the string (44_karplus_strong.md R231), evaluated left to right. -/
def ksNew (N : Num S W) (K first second : S) : S := N.mul (N.mul K (N.lit 1 2)) (N.add first second)

/-- One sample of 44_karplus_strong.md R231: the front is the output, and its cell takes the new back. -/
def ksSample (N : Num S W) (unw : Nat → S) (n : Nat) (K : S) (c : KsLoop S) (_ : Unit) : S × KsLoop S :=
  let first := c.buf.read unw c.head
  let second := if 2 ≤ n then c.buf.read unw ((c.head + 1) % n) else N.whole 0
  (first, { head := (c.head + 1) % n, buf := c.buf.write c.head (ksNew N K first second) })

/-- The loop of 44_karplus_strong.md R231 over a block of `B` samples; the input block is no operand. -/
def ksBlock (N : Num S W) (unw : Nat → S) (n : Nat) (K : S) (c : KsLoop S) (B : Nat) : List S × KsLoop S :=
  loop (ksSample N unw n K) c (List.replicate B ())

/-- Draw number `k` of `NOISE`: finite and in [-1, 1] (00_scope.md R5, 44_karplus_strong.md R230). -/
def noiseDraw [Inhabited S] (N : Num S W) (k : Nat) : S :=
  let v := Config.noise k
  if N.isfin v && N.le (N.whole (-1)) v && N.le v (N.whole 1) then v else N.whole 0

/-- The values of one pluck: draws number `k` to `k + n - 1` of `NOISE` (44_karplus_strong.md R230, R232). -/
def noiseDraws [Inhabited S] (N : Num S W) : Nat → Nat → List S
  | _, 0 => []
  | k, n + 1 => noiseDraw N k :: noiseDraws N (k + 1) n

/-- `KS.PLUCK` on the state (44_karplus_strong.md R230). -/
def ksPluck [Inhabited S] (N : Num S W) (s : AnyNum.State S W) : Except ErrCode (AnyNum.State S W) :=
  let n := s.params.ksLen.toNat
  if n = 0 ∨ s.caps.maxKs < n then .error .ksLen
  else
    .ok { s with
      draws := s.draws + n
      ks := { valid := true, n := n, head := 0, buf := Memory.ofList 0 (noiseDraws N s.draws n) } }

/-- The loop of `KS.GEN` run on the state's string (44_karplus_strong.md R231). -/
def ksRun [Inhabited S] (N : Num S W) (s : AnyNum.State S W) (B : Nat) : List S × KsLoop S :=
  ksBlock N (s.unwritten .ksBuf) s.ks.n s.params.ksDecay { head := s.ks.head, buf := s.ks.buf } B

/-- `KS.GEN` on the state (44_karplus_strong.md R231). -/
def ksGen [Inhabited S] (N : Num S W) (s : AnyNum.State S W) : Except ErrCode (AnyNum.State S W) :=
  match blockSize s with
  | .error e => .error e
  | .ok B =>
    if s.ks.valid = false then .error .noState
    else
      let r := ksRun N s B
      .ok (outputBlock r.1 { s with ks := { s.ks with head := r.2.head, buf := r.2.buf } })

/-- `KS.PLUCK` (44_karplus_strong.md R230). -/
def execKsPluck (s : State) : Host.Outcome State Fault Refusal :=
  .next (commit Instr.ksPluck.opcode (ksPluck ref64 s) s)

/-- `KS.GEN` (44_karplus_strong.md R231). -/
def execKsGen (s : State) : Host.Outcome State Fault Refusal :=
  .next (commit Instr.ksGen.opcode (ksGen ref64 s) s)

end Sys2Proof.Machine
end

