-- ==== Sys2Proof/Machine/Reverb.lean ====
section
/-! DEFINITION. REV, the FIR convolver with FFT overlap-save: `REV.INIT` (43_reverb.md R200), `REV.APPLY` (R201). -/

namespace Sys2Proof.Machine

variable {S W : Type} {L : Nat}

/-- The impulse response divided by its peak and padded with zeros, `h[0 .. L-1]` (43_reverb.md R200). -/
def revPadded (N : Num S W) (peak : S) (ir : List S) (L : Nat) (i : Fin L) : S :=
  match ir[i.val]? with
  | some v => N.div v peak
  | none => N.whole 0

/-- `H`, the transform of the normalised, padded impulse response (43_reverb.md R200). -/
def revSpectrum (N : Num S W) (ir : List S) (L : Nat) : Fin L → S × S :=
  let peak := N.maxabs ir
  N.dft L (revPadded N peak ir L)

/-- Whether an impulse response can be used (43_reverb.md R200): every sample finite and the peak not zero. -/
def revUsable (N : Num S W) (ir : List S) : Bool := ir.all N.isfin && !N.eq (N.maxabs ir) (N.whole 0)

/-- `hist'`, the history shifted by one block with the new block behind it (43_reverb.md R201); `M - 1 = L - B`. -/
def revShift (hist : Nat → S) (x : List S) (L B : Nat) (zero : S) (i : Fin L) : S :=
  if i.val < L - B then hist (i.val + B) else x.getD (i.val - (L - B)) zero

/-- `y`, the inverse transform of the product (43_reverb.md R201). -/
def revProduct (N : Num S W) (H : Fin L → S × S) (hist' : Fin L → S) : Fin L → S × S :=
  N.idft L (fun k => N.cmul (N.dft L hist' k) (H k))

/-- The last `B` real parts of `y` (43_reverb.md R201). -/
def revOutput (y : Fin L → S × S) (B : Nat) : List S := ((List.ofFn y).drop (L - B)).map Prod.fst

/-- One block of 43_reverb.md R201: the output block and the new history. -/
def revBlock (N : Num S W) (H : Fin L → S × S) (hist : Nat → S) (x : List S) (B : Nat) : List S × (Fin L → S) :=
  let hist' := revShift hist x L B (N.whole 0)
  (revOutput (revProduct N H hist') B, hist')

/-- `REV.INIT` on the state (43_reverb.md R200). -/
def revInit [Inhabited S] (N : Num S W) (s : AnyNum.State S W) : Except ErrCode (AnyNum.State S W) :=
  match blockSize s with
  | .error e => .error e
  | .ok B =>
    let P := s.params.revIrlen.toNat
    if P = 0 ∨ s.caps.maxIR < P then .error .revIr
    else if revUsable N (impulseResponse s P) = false then .error .revIr
    else
      let L := P - 1 + B
      .ok { s with
        rev := {
          valid := true
          p := P
          b := B
          l := L
          h := Memory.ofList 0 (List.ofFn (revSpectrum N (impulseResponse s P) L))
          hist := Memory.ofList 0 (List.replicate L (N.whole 0)) } }

/-- The block of `REV.APPLY` run on the state (43_reverb.md R201). -/
def revRun [Inhabited S] (N : Num S W) (s : AnyNum.State S W) (B : Nat) : List S × (Fin s.rev.l → S) :=
  revBlock N (fun k : Fin s.rev.l => s.revHAt k.val) s.histAt (inputBlock s B) B

/-- `REV.APPLY` on the state (43_reverb.md R201). The length guard is R205's; it compares `rev_l + 1` with `rev_p + B`
because `rev_l = rev_p - 1 + B` is an equation of integers (00_scope.md R14). -/
def revApply [Inhabited S] (N : Num S W) (s : AnyNum.State S W) : Except ErrCode (AnyNum.State S W) :=
  match blockSize s with
  | .error e => .error e
  | .ok B =>
    if s.rev.valid = false then .error .noState
    else if s.rev.b ≠ B ∨ s.rev.l + 1 ≠ s.rev.p + B then .error .revLen
    else
      let r := revRun N s B
      .ok (outputBlock r.1 { s with rev := { s.rev with hist := Memory.ofList 0 (List.ofFn r.2) } })

/-- `REV.INIT` (43_reverb.md R200). -/
def execRevInit (s : State) : Host.Outcome State Fault Refusal :=
  .next (commit Instr.revInit.opcode (revInit ref64 s) s)

/-- `REV.APPLY` (43_reverb.md R201). -/
def execRevApply (s : State) : Host.Outcome State Fault Refusal :=
  .next (commit Instr.revApply.opcode (revApply ref64 s) s)

end Sys2Proof.Machine
end

