-- ==== Sys2Proof/Machine/Vibrato.lean ====
section
/-! DEFINITION. VIB, the delay line with a fractional read index: `VIB.INIT` (45_vibrato.md R252), `VIB.APPLY` (R253). -/

namespace Sys2Proof.Machine

variable {S W : Type}

/-- The length `VIB.INIT` computes, or its fault (45_vibrato.md R252). -/
def vibLength (N : Num S W) (cap : Nat) (width rate : S) : Except ErrCode Nat :=
  let t := N.mul width rate
  if N.eq rate (N.whole 0) then .error .vibLen
  else if N.isfin t = false then .error .vibLen
  else if N.lt t (N.whole 0) then .error .vibLen
  else if (cap : Int) < N.ifloor t + 2 then .error .vibLen
  else .ok (N.ifloor t + 2).toNat

/-- What the loop of 45_vibrato.md R253 carries from sample to sample. -/
structure VibLoop (S : Type) where
  r   : S
  w   : Nat
  i1  : Nat
  neg : Bool
  buf : Memory S

/-- The cell an integer index names, by floored modulo (45_vibrato.md R255, 00_scope.md R11). -/
def ringIndex (z : Int) (n : Nat) : Nat := (z % (n : Int)).toNat

/-- The interpolated read at the read index `r` (45_vibrato.md R254). -/
def vibInterpolate (N : Num S W) (unw : Nat → S) (n : Nat) (buf : Memory S) (r : S) : S :=
  let f := N.ifloor r
  let c := N.iceil r
  let frac := N.sub r (N.ofint f)
  N.add (N.mul (N.sub (N.whole 1) frac) (buf.read unw (ringIndex f n))) (N.mul frac (buf.read unw (ringIndex c n)))

/-- The phase of the modulator at sample `k` of a block, evaluated left to right (45_vibrato.md R253, R259). -/
def vibPhase (N : Num S W) (f0 rate : S) (k : Nat) : S :=
  N.div (N.mul (N.mul (N.mul (N.whole 2) N.pi) f0) (N.ofint k)) rate

/-- The next read index before the upper wrap (45_vibrato.md R253). -/
def vibTarget (N : Num S W) (f0 rate wd : S) (k i1 : Nat) : S :=
  N.add (N.ofint i1) (N.mul wd (N.sin (vibPhase N f0 rate k)))

/-- The one-sided upper wrap, one subtraction (45_vibrato.md R256). -/
def vibWrap (N : Num S W) (n : Nat) (r : S) : S := if N.ge r (N.ofint n) then N.sub r (N.ofint n) else r

/-- The output conversion: clip to 16 bits, then truncate toward zero; a NaN stays (45_vibrato.md R258). -/
def vibConvert (N : Num S W) (y : S) : S :=
  let v := N.clip y (N.whole (-32768)) (N.whole 32767)
  if N.isfin v then N.ofint (N.itrunc v) else v

/-- One sample of 45_vibrato.md R253: read, write, advance `i1`, next read index, advance the write index, convert. -/
def vibSample (N : Num S W) (unw : Nat → S) (n : Nat) (f0 rate wd : S) (k : Nat) (c : VibLoop S) (x : S) :
    Except ErrCode (S × VibLoop S) :=
  let y := vibInterpolate N unw n c.buf c.r
  let i1 := (c.i1 + 1) % n
  let r := vibTarget N f0 rate wd k i1
  if N.isfin r = false then .error .vibIdx
  else
    .ok (vibConvert N y,
      { r := vibWrap N n r
        w := (c.w + 1) % n
        i1 := i1
        neg := c.neg || N.lt c.r (N.whole 0)
        buf := c.buf.write c.w x })

/-- The loop of 45_vibrato.md R253 over a block; the index restarts at 0 in every block (R259). -/
def vibBlock (N : Num S W) (unw : Nat → S) (n : Nat) (f0 rate wd : S) (c : VibLoop S) (x : List S) :
    Except ErrCode (List S × VibLoop S) :=
  loopE (vibSample N unw n f0 rate wd) 0 c x

/-- `VIB.INIT` on the state (45_vibrato.md R252). -/
def vibInit (N : Num S W) (s : AnyNum.State S W) : Except ErrCode (AnyNum.State S W) :=
  match vibLength N s.caps.maxVib s.params.vibWidth s.params.rate with
  | .error e => .error e
  | .ok n =>
    .ok { s with
      vibneg := false
      vib := {
        valid := true
        n := n
        r := N.whole 0
        w := n / 2
        i1 := 0
        buf := Memory.ofList 0 (List.replicate n (N.whole 0)) } }

/-- The loop of `VIB.APPLY` run on the state's block and buffer (45_vibrato.md R253). -/
def vibRun [Inhabited S] (N : Num S W) (s : AnyNum.State S W) (B : Nat) : Except ErrCode (List S × VibLoop S) :=
  vibBlock N (s.unwritten .vibBuf) s.vib.n s.params.vibF0 s.params.rate (N.mul s.params.vibWidth s.params.rate)
    { r := s.vib.r, w := s.vib.w, i1 := s.vib.i1, neg := s.vibneg, buf := s.vib.buf } (inputBlock s B)

/-- `VIB.APPLY` on the state (45_vibrato.md R253). -/
def vibApply [Inhabited S] (N : Num S W) (s : AnyNum.State S W) : Except ErrCode (AnyNum.State S W) :=
  match blockSize s with
  | .error e => .error e
  | .ok B =>
    if s.vib.valid = false then .error .noState
    else
      match vibRun N s B with
      | .error e => .error e
      | .ok r =>
        .ok (outputBlock r.1 { s with
          vibneg := r.2.neg
          vib := { s.vib with r := r.2.r, w := r.2.w, i1 := r.2.i1, buf := r.2.buf } })

/-- `VIB.INIT` (45_vibrato.md R252). -/
def execVibInit (s : State) : Host.Outcome State Fault Refusal :=
  .next (commit Instr.vibInit.opcode (vibInit ref64 s) s)

/-- `VIB.APPLY` (45_vibrato.md R253). -/
def execVibApply (s : State) : Host.Outcome State Fault Refusal :=
  .next (commit Instr.vibApply.opcode (vibApply ref64 s) s)

end Sys2Proof.Machine
end

