-- ==== Sys2Proof/Machine/Dispatch.lean ====
section
/-! DEFINITION. What performing a command does (40_commands.md R141): one arm per command of 30_encoding.md R112. -/

namespace Sys2Proof.Machine

def exec (i : Instr) (s : State) : Host.Outcome State Fault Refusal :=
  match i with
  | .nop => Sys2Proof.Machine.execNop s
  | .dlyInit => Sys2Proof.Machine.execDlyInit s
  | .dlyApply => Sys2Proof.Machine.execDlyApply s
  | .dstApply mode => Sys2Proof.Machine.execDstApply mode s
  | .revInit => Sys2Proof.Machine.execRevInit s
  | .revApply => Sys2Proof.Machine.execRevApply s
  | .ksPluck => Sys2Proof.Machine.execKsPluck s
  | .ksGen => Sys2Proof.Machine.execKsGen s
  | .vibInit => Sys2Proof.Machine.execVibInit s
  | .vibApply => Sys2Proof.Machine.execVibApply s

end Sys2Proof.Machine
end

