-- ==== Sys2Proof/Machine/Flags.lean ====
section
/-! DEFINITION. The flags and codes as the host reads them: `STATUS` (10_state.md R36), `ERR` (R37), the code numbers
(60_exceptions.md R281), `ID` (R33), and the line `irq` (R60, 60_exceptions.md R287). -/

namespace Sys2Proof.Machine

variable {S W : Type}

/-- The number of a fault code (60_exceptions.md R281). -/
def ErrCode.number : ErrCode → Byte
  | .none => 0x00#8
  | .illCmd => 0x01#8
  | .busy => 0x02#8
  | .addr => 0x03#8
  | .noState => 0x04#8
  | .bsize => 0x05#8
  | .dlyLen => 0x10#8
  | .revIr => 0x30#8
  | .revLen => 0x31#8
  | .ksLen => 0x40#8
  | .vibLen => 0x50#8
  | .vibIdx => 0x51#8

/-- A flag as one bit. -/
def flag (b : Bool) : BitVec 1 := BitVec.ofBool b

/-- `BUSY`: a command is pending (10_state.md R36). -/
def AnyNum.State.busy (s : AnyNum.State S W) : Bool := s.pending.isSome

/-- The register `STATUS` (10_state.md R36): bit 0 `BUSY`, 1 `FAULT`, 2 `DLYV`, 3 `REVV`, 4 `KSV`, 5 `VIBV`, 6 `VIBNEG`. -/
def statusWord (s : AnyNum.State S W) : IntReg :=
  0#25 ++ (flag s.vibneg ++ (flag s.vib.valid ++ (flag s.ks.valid ++ (flag s.rev.valid ++
    (flag s.dly.valid ++ (flag s.fault ++ flag s.busy))))))

/-- The register `ERR` (10_state.md R37): `err_code` in bits 7:0, `err_op` in bits 15:8. -/
def errWord (s : AnyNum.State S W) : IntReg := 0#16 ++ (s.errOp ++ s.errCode.number)

/-- The register `ID` (10_state.md R33). -/
def idWord : IntReg := 0x47445350#32

/-- The interrupt line (10_state.md R60, 60_exceptions.md R287): a level. -/
def AnyNum.State.irq (s : AnyNum.State S W) : Bool := decide (s.ipend &&& s.ien ≠ 0#2)

end Sys2Proof.Machine
end

