-- ==== Sys2Proof/Machine/Bus.lean ====
section
/-! DEFINITION. The host's two bus operations (20_memory.md R88, R89). -/

namespace Sys2Proof.Machine

variable {S W : Type}

/-- The bus image of an integer register: `zext_64` (20_memory.md R87). -/
def encReg (N : Num S W) (r : IntReg) : W := N.encInt (r.setWidth 64)

/-- The bus image of a length or a cursor, an integer register (10_state.md R49). -/
def encLen (N : Num S W) (n : Nat) : W := encReg N (BitVec.ofNat 32 n)

/-- `data[31:0]` (20_memory.md R87). -/
def decReg (N : Num S W) (w : W) : IntReg := (N.decInt w).extractLsb' 0 32

/-- `value_at` of a register (20_memory.md R88); the write-only ones read 0. -/
def regValue (N : Num S W) (s : AnyNum.State S W) : Reg → W
  | .id => encReg N idWord
  | .cmd => N.encInt 0#64
  | .status => encReg N (statusWord s)
  | .err => encReg N (errWord s)
  | .ien => N.encInt (s.ien.setWidth 64)
  | .ipend => N.encInt (s.ipend.setWidth 64)
  | .ctrl => N.encInt 0#64
  | .cmdcnt => encReg N s.cmdcnt
  | .bsize => encReg N s.params.bsize
  | .rate => N.enc s.params.rate
  | .dlyTime => N.enc s.params.dlyTime
  | .dlyFb => N.enc s.params.dlyFb
  | .dlyMix => N.enc s.params.dlyMix
  | .dlyLen => encLen N s.dly.n
  | .dlyIdx => encLen N s.dly.idx
  | .dstAmount => N.enc s.params.dstAmount
  | .dstMix => N.enc s.params.dstMix
  | .revIrlen => encReg N s.params.revIrlen
  | .revL => encLen N s.rev.l
  | .ksLen => encReg N s.params.ksLen
  | .ksDecay => N.enc s.params.ksDecay
  | .ksHead => encLen N s.ks.head
  | .vibF0 => N.enc s.params.vibF0
  | .vibWidth => N.enc s.params.vibWidth
  | .vibLen => encLen N s.vib.n
  | .vibRidx => N.enc s.vib.r
  | .vibWidx => encLen N s.vib.w
  | .vibI1 => encLen N s.vib.i1

/-- `value_at` (20_memory.md R88); nothing is read at an unmapped place. -/
def placeValue [Inhabited S] (N : Num S W) (s : AnyNum.State S W) : Place → W
  | .reg r => regValue N s r
  | .blk i => N.enc (s.blkAt i)
  | .irbuf i => N.enc (s.irAt i)
  | .dlyBuf i => N.enc (s.dlyAt i)
  | .revHist i => N.enc (s.histAt i)
  | .revH k => if k % 2 = 0 then N.enc (s.revHAt (k / 2)).1 else N.enc (s.revHAt (k / 2)).2
  | .ksBuf i => N.enc (s.ksAt i)
  | .vibBuf i => N.enc (s.vibAt i)
  | .unmapped => N.encInt 0#64

/-- Whether the host may read the place while a command is pending (20_memory.md R91). -/
def Place.readableWhileBusy : Place → Bool
  | .reg r => r.readableWhileBusy
  | _ => false

/-- `MemRead(addr, 1)` (20_memory.md R88): the word returned and the state after. A read changes the state only when it
faults. -/
def memRead [Inhabited S] (N : Num S W) (a : Addr) (s : AnyNum.State S W) : W × AnyNum.State S W :=
  let p := place s a
  if s.fault then (placeValue N s p, s)
  else if s.busy && !p.readableWhileBusy then (N.encInt 0#64, raise .busy 0xFF#8 s)
  else if p = .unmapped then (N.encInt 0#64, raise .addr 0xFF#8 s)
  else (placeValue N s p, s)

/-- A write of an integer or sample parameter register, and the unit states it destroys (20_memory.md R89, 10_state.md
R50); `none` for a register that is not a parameter. -/
def writeParam (N : Num S W) (w : W) (s : AnyNum.State S W) : Reg → Option (AnyNum.State S W)
  | .bsize => some (destroyRev { s with params := { s.params with bsize := decReg N w } })
  | .rate => some (destroyVib N (destroyDly { s with params := { s.params with rate := N.dec w } }))
  | .dlyTime => some (destroyDly { s with params := { s.params with dlyTime := N.dec w } })
  | .dlyFb => some { s with params := { s.params with dlyFb := N.dec w } }
  | .dlyMix => some { s with params := { s.params with dlyMix := N.dec w } }
  | .dstAmount => some { s with params := { s.params with dstAmount := N.dec w } }
  | .dstMix => some { s with params := { s.params with dstMix := N.dec w } }
  | .revIrlen => some (destroyRev { s with params := { s.params with revIrlen := decReg N w } })
  | .ksLen => some (destroyKs { s with params := { s.params with ksLen := decReg N w } })
  | .ksDecay => some { s with params := { s.params with ksDecay := N.dec w } }
  | .vibF0 => some { s with params := { s.params with vibF0 := N.dec w } }
  | .vibWidth => some (destroyVib N { s with params := { s.params with vibWidth := N.dec w } })
  | .id | .cmd | .status | .err | .ien | .ipend | .ctrl | .cmdcnt | .dlyLen | .dlyIdx | .revL | .ksHead
  | .vibLen | .vibRidx | .vibWidx | .vibI1 => none

/-- A write with nothing pending and no fault set (20_memory.md R89 after its first three tests): the effect, or `none` where
the access is refused (R93). -/
def writePlace (N : Num S W) (w : W) (s : AnyNum.State S W) : Place → Option (AnyNum.State S W)
  | .reg .cmd => some { s with pending := some (commandOf (N.decInt w)) }
  | .reg .ipend => some { s with ipend := s.ipend &&& ~~~((N.decInt w).extractLsb' 0 2) }
  | .reg .ien => some { s with ien := (N.decInt w).extractLsb' 0 2 }
  | .reg r => writeParam N w s r
  | .blk i => some { s with blk := s.blk.write i (N.dec w) }
  | .irbuf i => some (destroyRev { s with irbuf := s.irbuf.write i (N.dec w) })
  | .dlyBuf _ | .revHist _ | .revH _ | .ksBuf _ | .vibBuf _ | .unmapped => none

/-- `MemWrite(addr, 1, w)` (20_memory.md R89). A write to `CTRL` is always accepted (R92). -/
def memWrite (N : Num S W) (a : Addr) (w : W) (s : AnyNum.State S W) : AnyNum.State S W :=
  let p := place s a
  if p = .reg .ctrl then (if (N.decInt w).getLsbD 0 then resetBlock N s else s)
  else if s.fault then s
  else if s.busy then raise .busy 0xFF#8 s
  else
    match writePlace N w s p with
    | some t => t
    | none => raise .addr 0xFF#8 s

end Sys2Proof.Machine
end

