-- ==== Sys2Proof/Machine/Engine.lean ====
section
/-! DEFINITION. The two agents (00_scope.md R15): the engine step (40_commands.md R141), the host's bus operations, and which
of them moves next. -/

namespace Sys2Proof.Machine

variable {S W : Type}

/-- The engine step (40_commands.md R141): enabled when a command is pending and no fault is set; otherwise the engine has
no step and nothing changes. `perform` is what performing a command does. -/
def engineStep (perform : Instr → AnyNum.State S W → Host.Outcome (AnyNum.State S W) Fault Refusal) (s : AnyNum.State S W) :
    Host.Outcome (AnyNum.State S W) Fault Refusal :=
  match s.pending with
  | none => .next s
  | some c =>
    if s.fault then .next s
    else
      match decode c with
      | .ok i => perform i s
      | .error _ => .next (illegalCommand c s)

/-- A host read, and what it returned (20_memory.md R88). -/
def hostRead [Inhabited S] (N : Num S W) (a : Addr) (s : AnyNum.State S W) : AnyNum.State S W := returned (memRead N a s).1 (memRead N a s).2

/-- The rest of the script is still to come. -/
def withScript (rest : List (BusOp W)) (s : AnyNum.State S W) : AnyNum.State S W := { s with host := { s.host with script := rest } }

/-- One step of the machine: the next line of the host's script, `wait` being the engine's turn (30_encoding.md R117). When
the script has ended the engine's step is still owed (70_reset_and_hazards.md R347); an idle block stays as it is
(60_exceptions.md R301). Log entry 8. -/
def agentStep [Inhabited S] (N : Num S W) (perform : Instr → AnyNum.State S W → Host.Outcome (AnyNum.State S W) Fault Refusal)
    (s : AnyNum.State S W) : Host.Outcome (AnyNum.State S W) Fault Refusal :=
  match s.host.script with
  | [] => engineStep perform s
  | .wait :: rest => engineStep perform (withScript rest s)
  | .rd a :: rest => .next (hostRead N a (withScript rest s))
  | .wr a w :: rest => .next (memWrite N a w (withScript rest s))
  | .rst :: rest => .next (resetBlock N (withScript rest s))

/-- `s` with the command word `w` accepted (40_commands.md R140) and the engine's turn next, so that the next step performs
it: the bits above `nbits` are 0, and the block is not faulted, since a faulted block accepts no command. Log entry 9. -/
def acceptWord (s : AnyNum.State S W) (nbits w : Nat) : AnyNum.State S W :=
  { s with
    pending := some (BitVec.ofNat 32 (w % (1 <<< nbits)))
    fault := false
    host := { s.host with script := .wait :: s.host.script } }

end Sys2Proof.Machine
end

