-- ==== Sys2Proof/Machine/Step.lean ====
section
/-! DEFINITION. The step function of the machine of `REF64`: `agentStep` of Machine/Engine.lean, performing commands as
`exec` does. -/

namespace Sys2Proof.Machine

/-- One step of the machine. -/
def step (s : State) : Host.Outcome State Fault Refusal := agentStep ref64 exec s

/-- `s` with the command word `w` as the command the next step performs (log entry 9). -/
def State.withFetchWord (s : State) (nbits w : Nat) : State := acceptWord s nbits w

end Sys2Proof.Machine
end

