-- ==== Sys2Proof/Machine/Exact.lean ====
section
/-! DEFINITION. Exact arithmetic (00_scope.md R8): `exact`, the record of the real numbers with the transforms of R16, and
`Num.Exact`, which says of a record over any ordered field that its operations are the mathematical ones. The reals do not
evaluate, and nothing the host runs uses this file. -/

namespace Sys2Proof.Machine

/-- What the bus moves in `EXACT` (20_memory.md R86): an integer word, or a sample as itself. -/
inductive BusDatum (S : Type) where
  | integer (w : Word)
  | sample (x : S)
  deriving DecidableEq, Repr

/-- The sample a bus datum stands for: a sample itself; for an integer word the spec names none (log entry 21). -/
def BusDatum.toSample {S : Type} [Inhabited S] : BusDatum S → S
  | .sample x => x
  | .integer w => Config.sampleOfInteger w

/-- The integer word of a bus datum; for a sample the spec names none (log entry 21). -/
def BusDatum.toInteger {S : Type} : BusDatum S → Word
  | .integer w => w
  | .sample x => Config.integerOfSample x

section field

variable {K W : Type} [Field K] [LinearOrder K] [FloorRing K]

/-- Truncation toward zero (00_scope.md R6). -/
def truncate (x : K) : Int := if 0 ≤ x then ⌊x⌋ else ⌈x⌉

/-- The nearest integer, the even one of two that are equally near (00_scope.md R6, `rint`). -/
def nearestInteger (x : K) : Int :=
  if x - ⌊x⌋ < 1 / 2 ∨ (x - ⌊x⌋ = 1 / 2 ∧ ⌊x⌋ % 2 = 0) then ⌊x⌋ else ⌊x⌋ + 1

/-- The record computes exactly in an ordered field, as `EXACT` does in the reals (00_scope.md R8), and has the laws of R9.
The field is left free, so that a rational instance can be evaluated; what is not a matter of the field (`PI`, `tanh`,
`sin`, `pow2` off the integers, the transforms) is bound by the laws alone. -/
structure Num.Exact [IsStrictOrderedRing K] (N : Num K W) : Prop where
  literals : (∀ n d, N.lit n d = (n : K) / (d : K)) ∧ ∀ z, N.ofint z = (z : K)
  arithmetic : ∀ x y, N.add x y = x + y ∧ N.sub x y = x - y ∧ N.mul x y = x * y ∧ N.div x y = x / y
  signs : ∀ x, N.neg x = -x ∧ N.abs x = |x| ∧ N.isfin x = true
  order : ∀ x y, N.lt x y = decide (x < y) ∧ N.le x y = decide (x ≤ y) ∧ N.eq x y = decide (x = y)
  rounding : ∀ x, N.ifloor x = ⌊x⌋ ∧ N.iceil x = ⌈x⌉ ∧ N.itrunc x = truncate x ∧ N.rint x = (nearestInteger x : K)
  powers : ∀ k : Nat, N.pow2 k = 2 ^ k
  bus : ∀ x, N.dec (N.enc x) = x
  laws : N.Laws id 0

end field

/-- `DFT` of 00_scope.md R16: the factor of term `n` of element `k` is `exp(-2 pi i k n / L)`. -/
noncomputable def exactDft (L : Nat) (v : Fin L → ℝ) (k : Fin L) : ℝ × ℝ :=
  let z : ℂ := ∑ n : Fin L, (v n : ℂ) * Complex.exp (-(2 * Real.pi * Complex.I * k.val * n.val / L))
  (z.re, z.im)

/-- `IDFT` of 00_scope.md R16: the factor of term `k` of element `n` is `exp(+2 pi i k n / L)`, the whole divided by `L`. -/
noncomputable def exactIdft (L : Nat) (y : Fin L → ℝ × ℝ) (n : Fin L) : ℝ × ℝ :=
  let z : ℂ := (1 / L : ℂ) * ∑ k : Fin L, (⟨(y k).1, (y k).2⟩ : ℂ) * Complex.exp (2 * Real.pi * Complex.I * k.val * n.val / L)
  (z.re, z.im)

/-- `EXACT` (00_scope.md R8): every operation is the mathematical one, and the bus carries the real number itself. -/
noncomputable def exact : Num ℝ (BusDatum ℝ) where
  lit n d := n / d
  ofint z := z
  pi := Real.pi
  add := (· + ·)
  sub := (· - ·)
  mul := (· * ·)
  div := (· / ·)
  neg x := -x
  abs x := |x|
  lt x y := decide (x < y)
  le x y := decide (x ≤ y)
  eq x y := decide (x = y)
  isfin _ := true
  ifloor x := ⌊x⌋
  iceil x := ⌈x⌉
  itrunc := truncate
  rint x := nearestInteger x
  tanh := Real.tanh
  sin := Real.sin
  pow2 x := (2 : ℝ) ^ x
  dft := exactDft
  idft := exactIdft
  enc := .sample
  dec := BusDatum.toSample
  encInt := .integer
  decInt := BusDatum.toInteger

end Sys2Proof.Machine
end

