-- ==== Sys2Proof/Machine/Script.lean ====
section
/-! DEFINITION. The lines of a host script and their expansions (30_encoding.md R117 to R119), the chain of effects
(40_commands.md R147), and the bring-up sequence's building blocks (70_reset_and_hazards.md R325). -/

namespace Sys2Proof.Machine

variable {S W : Type}

/-- The address of a register (20_memory.md R85). -/
def Reg.address : Reg → Addr
  | .id => 0x00#24
  | .cmd => 0x01#24
  | .status => 0x02#24
  | .err => 0x03#24
  | .ien => 0x04#24
  | .ipend => 0x05#24
  | .ctrl => 0x06#24
  | .cmdcnt => 0x07#24
  | .bsize => 0x10#24
  | .rate => 0x11#24
  | .dlyTime => 0x20#24
  | .dlyFb => 0x21#24
  | .dlyMix => 0x22#24
  | .dlyLen => 0x23#24
  | .dlyIdx => 0x24#24
  | .dstAmount => 0x30#24
  | .dstMix => 0x31#24
  | .revIrlen => 0x40#24
  | .revL => 0x41#24
  | .ksLen => 0x50#24
  | .ksDecay => 0x51#24
  | .ksHead => 0x52#24
  | .vibF0 => 0x60#24
  | .vibWidth => 0x61#24
  | .vibLen => 0x62#24
  | .vibRidx => 0x63#24
  | .vibWidx => 0x64#24
  | .vibI1 => 0x65#24

/-- The address of `BLK[i]` (30_encoding.md R117). -/
def blkAddress (i : Nat) : Addr := BitVec.ofNat 24 (0x100000 + i)

/-- The address of `IRBUF[i]` (30_encoding.md R117). -/
def irAddress (i : Nat) : Addr := BitVec.ofNat 24 (0x200000 + i)

/-- `cmd MNEMONIC` (30_encoding.md R117): a write of the encoded command to `CMD`. -/
def cmdLine (N : Num S W) (i : Instr) : BusOp W := .wr Reg.cmd.address (encReg N (encode i))

/-- `run MNEMONIC` (30_encoding.md R118): the command, then `wait`. -/
def runLines (N : Num S W) (i : Instr) : List (BusOp W) := [cmdLine N i, .wait]

/-- Writes of samples to consecutive cells, from cell `i` on; `address` says where a cell stands. -/
def cellLines (N : Num S W) (address : Nat → Addr) : Nat → List S → List (BusOp W)
  | _, [] => []
  | i, v :: vs => .wr (address i) (N.enc v) :: cellLines N address (i + 1) vs

/-- `blk v0, v1, ...` (30_encoding.md R118). -/
def blkLines (N : Num S W) (vs : List S) : List (BusOp W) := cellLines N blkAddress 0 vs

/-- `ir v0, v1, ...` (30_encoding.md R118): the samples, then their number. -/
def irLines (N : Num S W) (vs : List S) : List (BusOp W) :=
  cellLines N irAddress 0 vs ++ [.wr Reg.revIrlen.address (N.encInt (BitVec.ofNat 64 vs.length))]

/-- `rdblk n` (30_encoding.md R118). -/
def rdblkLines (n : Nat) : List (BusOp W) := (List.range n).map (fun i => .rd (blkAddress i))

/-- `srst` (30_encoding.md R118). -/
def srstLine (N : Num S W) : BusOp W := .wr Reg.ctrl.address (N.encInt 1#64)

/-- `DST.IDENT` (30_encoding.md R118). -/
def dstIdent : Instr := .dstApply (.unknown 0#8)

/-- `DST.SOFT` (30_encoding.md R118). -/
def dstSoft : Instr := .dstApply .soft

/-- `DST.HARD` (30_encoding.md R118). -/
def dstHard : Instr := .dstApply .hard

/-- `DST.SINE` (30_encoding.md R118). -/
def dstSine : Instr := .dstApply .sine

/-- `DST.BITCRUSH` (30_encoding.md R118). -/
def dstBitcrush : Instr := .dstApply .bitcrush

/-- A chain of commands on one block (40_commands.md R147): load the block, run each command, read the block back. -/
def chainLines (N : Num S W) (x : List S) (chain : List Instr) : List (BusOp W) :=
  blkLines N x ++ chain.flatMap (runLines N) ++ rdblkLines x.length

end Sys2Proof.Machine
end

