-- ==== Sys2Proof/Safety.lean ====
section
/-! DEFINITION. What counts as a good state and a good end: the invariants of 10_state.md R58, 45_vibrato.md R257 and
60_exceptions.md R284, and a run that ended well (70_reset_and_hazards.md R347). -/

namespace Sys2Proof.Machine

/-- The listed cells are exactly 0 to `n - 1`: every reachable cell of a unit buffer has been written
(70_reset_and_hazards.md R324). -/
abbrev Memory.covers {α : Type} (m : Memory α) (n : Nat) : Prop := m.map Prod.fst = List.range n

/-- The canonical form of a memory of `cap` cells. -/
structure Memory.Ok {α : Type} (m : Memory α) (cap : Nat) : Prop where
  rising : m.wf = true
  inside : ∀ c ∈ m, c.1 < cap

/-- 10_state.md R58, the DLY part. -/
structure DlyOk (s : State) : Prop where
  cells : s.dly.buf.covers s.dly.n
  live  : s.dly.valid = true → 1 ≤ s.dly.n ∧ s.dly.n ≤ s.caps.maxDly ∧ s.dly.idx < s.dly.n
  dead  : s.dly.valid = false → s.dly = DlyUnit.destroyed

/-- 10_state.md R58, the REV part. -/
structure RevOk (s : State) : Prop where
  cellsH    : s.rev.h.covers s.rev.l
  cellsHist : s.rev.hist.covers s.rev.l
  live      : s.rev.valid = true →
    1 ≤ s.rev.p ∧ s.rev.p ≤ s.caps.maxIR ∧ s.rev.b = s.params.bsize.toNat ∧ 1 ≤ s.rev.b ∧ s.rev.b ≤ s.caps.maxB ∧
      s.rev.l = s.rev.p - 1 + s.rev.b
  dead      : s.rev.valid = false → s.rev = RevUnit.destroyed

/-- 10_state.md R58, the KS part. -/
structure KsOk (s : State) : Prop where
  cells : s.ks.buf.covers s.ks.n
  live  : s.ks.valid = true →
    1 ≤ s.ks.n ∧ s.ks.n ≤ s.caps.maxKs ∧ s.ks.head < s.ks.n ∧ s.ks.n = s.params.ksLen.toNat
  dead  : s.ks.valid = false → s.ks = KsUnit.destroyed

/-- 10_state.md R58 and 45_vibrato.md R257, the VIB part but for the read index. -/
structure VibOk (s : State) : Prop where
  cells : s.vib.buf.covers s.vib.n
  live  : s.vib.valid = true →
    2 ≤ s.vib.n ∧ s.vib.n ≤ s.caps.maxVib ∧ s.vib.w < s.vib.n ∧ s.vib.i1 < s.vib.n ∧
      s.vib.w = (s.vib.i1 + s.vib.n / 2) % s.vib.n ∧
      ref64.isfin (ref64.mul s.params.vibWidth s.params.rate) = true ∧
      (s.vib.n : Int) = ref64.ifloor (ref64.mul s.params.vibWidth s.params.rate) + 2 ∧
      ref64.eq s.params.rate (ref64.whole 0) = false
  dead  : s.vib.valid = false → s.vib = VibUnit.destroyed 0x0000000000000000#64

/-- The fault fields agree with each other: 10_state.md R37, 60_exceptions.md R284. -/
structure FaultOk (s : State) : Prop where
  idle    : s.fault = true → s.pending = none
  pending : s.ipend.getLsbD 1 = s.fault
  clean   : s.fault = false → s.errCode = .none ∧ s.errOp = 0#8
  coded   : s.fault = true → s.errCode ≠ .none

/-- The invariant of the machine. -/
structure MachineInv (s : State) : Prop where
  caps   : s.caps.legal
  blk    : s.blk.Ok s.caps.maxB
  irbuf  : s.irbuf.Ok s.caps.maxIR
  dly    : DlyOk s
  rev    : RevOk s
  ks     : KsOk s
  vib    : VibOk s
  faults : FaultOk s

/-- The bound of 45_vibrato.md R257 on the read index of a valid VIB state: `-(vib_n - 1) < vib_r < vib_n`. -/
abbrev readIndexBounded (s : State) : Prop :=
  s.vib.valid = true →
    ref64.lt (ref64.ofint (-((s.vib.n : Int) - 1))) s.vib.r = true ∧ ref64.lt s.vib.r (ref64.ofint s.vib.n) = true

/-- A run has ended well (70_reset_and_hazards.md R347). -/
abbrev endedWell (s : State) : Prop := s.host.script = [] ∧ s.pending = none ∧ s.fault = false

end Sys2Proof.Machine
end

