-- ==== Sys2Proof/Certificates/Slice0/Obligations.lean ====
section
/-! DEFINITION. The statements for the provers, from the numbered rules of spec/. `Sys2Proof.Claims` holds what they are
stated with: each effect once more, as a recursion on the sample number over plain functions, with no memory lists. -/

open Sys2Proof Sys2Proof.Machine

namespace Sys2Proof.Claims

/-- `BSIZE` passes the check of 40_commands.md R144. -/
abbrev blockLegal (s : State) : Prop := 1 ≤ s.params.bsize.toNat ∧ s.params.bsize.toNat ≤ s.caps.maxB

/-- `B`. -/
abbrev blockLen (s : State) : Nat := s.params.bsize.toNat

/-- (match, mask) of the row of a command (30_encoding.md R112). -/
def row : Instr → Cmd × Cmd
  | .nop => (0x00000000#32, 0xFFFFFFFF#32)
  | .dlyInit => (0x00000010#32, 0xFFFFFFFF#32)
  | .dlyApply => (0x00000011#32, 0xFFFFFFFF#32)
  | .dstApply _ => (0x00000020#32, 0xFFFF00FF#32)
  | .revInit => (0x00000030#32, 0xFFFFFFFF#32)
  | .revApply => (0x00000031#32, 0xFFFFFFFF#32)
  | .ksPluck => (0x00000040#32, 0xFFFFFFFF#32)
  | .ksGen => (0x00000041#32, 0xFFFFFFFF#32)
  | .vibInit => (0x00000050#32, 0xFFFFFFFF#32)
  | .vibApply => (0x00000051#32, 0xFFFFFFFF#32)

/-- The command reads or writes `BLK` or sizes its buffers from `BSIZE` (40_commands.md R144). -/
def usesBlock : Instr → Bool
  | .dlyApply | .dstApply _ | .revInit | .revApply | .ksGen | .vibApply => true
  | .nop | .dlyInit | .ksPluck | .vibInit => false

/-- The command writes `BLK`. -/
def writesBlock : Instr → Bool
  | .dlyApply | .dstApply _ | .revApply | .ksGen | .vibApply => true
  | .nop | .dlyInit | .revInit | .ksPluck | .vibInit => false

/-- The unit state an apply command needs is valid (60_exceptions.md R281, `E_NOSTATE`). -/
def unitReady : Instr → State → Bool
  | .dlyApply, s => s.dly.valid
  | .revApply, s => s.rev.valid
  | .ksGen, s => s.ks.valid
  | .vibApply, s => s.vib.valid
  | .nop, _ | .dlyInit, _ | .dstApply _, _ | .revInit, _ | .ksPluck, _ | .vibInit, _ => true

/-- The codes a command can fault with (60_exceptions.md R281), after decode. -/
def faultCodes : Instr → List ErrCode
  | .nop => []
  | .dlyInit => [.dlyLen]
  | .dlyApply => [.bsize, .noState]
  | .dstApply _ => [.bsize]
  | .revInit => [.bsize, .revIr]
  | .revApply => [.bsize, .noState, .revLen]
  | .ksPluck => [.ksLen]
  | .ksGen => [.bsize, .noState]
  | .vibInit => [.vibLen]
  | .vibApply => [.bsize, .noState, .vibIdx]

/-- The state after fault entry with no fault set (60_exceptions.md R283). -/
def faulted (e : ErrCode) (op : Byte) (s : State) : State :=
  { s with pending := none, fault := true, errCode := e, errOp := op, ipend := s.ipend ||| 2#2 }

/-- The bookkeeping of a completed command (40_commands.md R141). -/
def completed (s : State) : State :=
  { s with pending := none, cmdcnt := s.cmdcnt + 1#32, ipend := s.ipend ||| 1#2 }

/-- The first two checks of a command that uses the block, in this order (60_exceptions.md R285). -/
abbrev firstChecks (i : Instr) (s : State) : Prop :=
  s.fault = false →
    (¬ blockLegal s → exec i s = .next (faulted .bsize i.opcode s)) ∧
    (blockLegal s → unitReady i s = false → exec i s = .next (faulted .noState i.opcode s))

/-- The engine moves next: its turn in the script, or the script has ended. -/
abbrev engineTurn (s : State) (rest : List (BusOp Word)) : Prop :=
  s.host.script = .wait :: rest ∨ (s.host.script = [] ∧ rest = [])

/-- The product `t` of 41_delay.md R160. -/
def dlyProduct (s : State) : Sample := ref64.mul s.params.dlyTime s.params.rate

/-- The index of 41_delay.md R161 before sample `k`. -/
def dlyIndex (s : State) : Nat → Nat
  | 0 => s.dly.idx
  | k + 1 => (dlyIndex s k + 1) % s.dly.n

/-- The delay line of 41_delay.md R161 before sample `k`. -/
def dlyLine (s : State) : Nat → Nat → Sample
  | 0 => s.dlyAt
  | k + 1 => fun i =>
    if i = dlyIndex s k then ref64.add (s.blkAt k) (ref64.mul (dlyLine s k (dlyIndex s k)) s.params.dlyFb)
    else dlyLine s k i

/-- Output sample `k` of 41_delay.md R161. -/
def dlyOut (s : State) (k : Nat) : Sample :=
  ref64.add (ref64.mul (ref64.sub (ref64.lit 1 1) s.params.dlyMix) (s.blkAt k))
    (ref64.mul s.params.dlyMix (dlyLine s k (dlyIndex s k)))

/-- `clip` of 00_scope.md R12. -/
def clip64 (v lo hi : Sample) : Sample := if ref64.lt v lo then lo else if ref64.lt hi v then hi else v

/-- `wet` of 42_distortion.md R181 to R185. -/
def wet : DstMode → Sample → Sample → Sample
  | .soft, a, x => ref64.tanh (ref64.mul a x)
  | .hard, a, x =>
    ref64.div (clip64 x (ref64.neg (clip64 a (ref64.lit 1 100) (ref64.lit 1 1))) (clip64 a (ref64.lit 1 100) (ref64.lit 1 1)))
      (clip64 a (ref64.lit 1 100) (ref64.lit 1 1))
  | .sine, a, x => ref64.mul (ref64.lit 8 10) (ref64.sin (ref64.mul (ref64.mul ref64.pi a) x))
  | .bitcrush, a, x =>
    ref64.div (ref64.mul (ref64.lit 8 10) (ref64.rint (ref64.mul x (ref64.pow2 (clip64 a (ref64.lit 1 1) (ref64.lit 16 1))))))
      (ref64.pow2 (clip64 a (ref64.lit 1 1) (ref64.lit 16 1)))
  | .unknown _, _, x => x

/-- Output sample `k` of 42_distortion.md R180 and R186. -/
def dstOut (mode : DstMode) (s : State) (k : Nat) : Sample :=
  clip64
    (ref64.add (ref64.mul (ref64.sub (ref64.lit 1 1) s.params.dstMix) (s.blkAt k))
      (ref64.mul s.params.dstMix (wet mode s.params.dstAmount (s.blkAt k))))
    (ref64.lit (-99) 100) (ref64.lit 99 100)

/-- `P`. -/
abbrev irLen (s : State) : Nat := s.params.revIrlen.toNat

/-- `maxabs(IRBUF[0 .. n-1])` (00_scope.md R12). -/
def irPeak (s : State) : Nat → Sample
  | 0 => ref64.lit 0 1
  | n + 1 => if ref64.lt (irPeak s n) (ref64.abs (s.irAt n)) then ref64.abs (s.irAt n) else irPeak s n

/-- The impulse response passes the checks of 43_reverb.md R200. -/
abbrev irUsable (s : State) : Prop :=
  1 ≤ irLen s ∧ irLen s ≤ s.caps.maxIR ∧ (∀ i < irLen s, ref64.isfin (s.irAt i) = true) ∧
    ref64.eq (irPeak s (irLen s)) (ref64.lit 0 1) = false

/-- `h[0 .. L-1]` of 43_reverb.md R200. -/
def irPadded (s : State) (L : Nat) (i : Fin L) : Sample :=
  if i.val < irLen s then ref64.div (s.irAt i.val) (irPeak s (irLen s)) else ref64.lit 0 1

/-- `hist'` of 43_reverb.md R201: the last `M - 1` samples of the history, then the block. -/
def shifted (s : State) (i : Fin s.rev.l) : Sample :=
  if i.val < s.rev.l - blockLen s then s.histAt (i.val + blockLen s) else s.blkAt (i.val - (s.rev.l - blockLen s))

/-- `y` of 43_reverb.md R201. -/
def convolved (s : State) : Fin s.rev.l → Sample × Sample :=
  ref64.idft s.rev.l (fun k => ref64.cmul (ref64.dft s.rev.l (shifted s) k) (s.revHAt k.val))

/-- The history after block number `k` of a signal, and the output of that block (43_reverb.md R201), for any `NUM`. -/
def revSession {S W : Type} (N : Machine.Num S W) {L : Nat} (H : Fin L → S × S) (B : Nat) (u : Nat → S) : Nat → List S × (Fin L → S)
  | 0 => revBlock N H (fun _ => N.lit 0 1) ((List.range B).map u) B
  | k + 1 =>
    revBlock N H (fun i => if h : i < L then (revSession N H B u k).2 ⟨i, h⟩ else N.lit 0 1)
      ((List.range B).map fun j => u ((k + 1) * B + j)) B

/-- The history of `REF64` after `z` blocks of zeros (any zeros) on a history. -/
def silentBlocks {L : Nat} (H : Fin L → Sample × Sample) (B : Nat) (zeros : Nat → Nat → Sample) (hist : Fin L → Sample) :
    Nat → List Sample × (Fin L → Sample)
  | 0 => ([], hist)
  | z + 1 =>
    revBlock ref64 H
      (fun i => if h : i < L then (silentBlocks H B zeros hist z).2 ⟨i, h⟩ else ref64.lit 0 1)
      ((List.range B).map (zeros z)) B

/-- The logical sequence `q` of a string (10_state.md R55). -/
def stringOf (s : State) : List Sample := (List.range s.ks.n).map fun j => s.ksAt ((s.ks.head + j) % s.ks.n)

/-- One iteration on the sequence: append, then remove the front (44_karplus_strong.md R233). -/
def plucked (K : Sample) (q : List Sample) : List Sample :=
  (q ++ [ref64.mul (ref64.mul K (ref64.lit 1 2)) (ref64.add (q.getD 0 (ref64.lit 0 1)) (q.getD 1 (ref64.lit 0 1)))]).tail

/-- The sequence after `k` iterations. -/
def pluckedTimes (K : Sample) (q : List Sample) : Nat → List Sample
  | 0 => q
  | k + 1 => plucked K (pluckedTimes K q k)

/-- The product `t` of 45_vibrato.md R252, `Wd` of R253. -/
def vibProduct (s : State) : Sample := ref64.mul s.params.vibWidth s.params.rate

/-- `i1` of 45_vibrato.md R253 before sample `k`. -/
def vibBase (s : State) : Nat → Nat
  | 0 => s.vib.i1
  | k + 1 => (vibBase s k + 1) % s.vib.n

/-- `w` of 45_vibrato.md R253 before sample `k`. -/
def vibWrite (s : State) : Nat → Nat
  | 0 => s.vib.w
  | k + 1 => (vibWrite s k + 1) % s.vib.n

/-- The read index computed at sample `k`, before the wrap (45_vibrato.md R253). -/
def vibRaw (s : State) (k : Nat) : Sample :=
  ref64.add (ref64.ofint (vibBase s (k + 1)))
    (ref64.mul (vibProduct s)
      (ref64.sin (ref64.div (ref64.mul (ref64.mul (ref64.mul (ref64.lit 2 1) ref64.pi) s.params.vibF0) (ref64.ofint k))
        s.params.rate)))

/-- The read index used at sample `k` (45_vibrato.md R253, R256). -/
def vibRead (s : State) : Nat → Sample
  | 0 => s.vib.r
  | k + 1 =>
    if ref64.le (ref64.ofint s.vib.n) (vibRaw s k) then ref64.sub (vibRaw s k) (ref64.ofint s.vib.n) else vibRaw s k

/-- `vib_buf` before sample `k` (45_vibrato.md R253). -/
def vibLine (s : State) : Nat → Nat → Sample
  | 0 => s.vibAt
  | k + 1 => fun i => if i = vibWrite s k then s.blkAt k else vibLine s k i

/-- The interpolated value of sample `k` (45_vibrato.md R253, R254). -/
def vibValue (s : State) (k : Nat) : Sample :=
  ref64.add
    (ref64.mul (ref64.sub (ref64.lit 1 1) (ref64.sub (vibRead s k) (ref64.ofint (ref64.ifloor (vibRead s k)))))
      (vibLine s k (ref64.ifloor (vibRead s k) % (s.vib.n : Int)).toNat))
    (ref64.mul (ref64.sub (vibRead s k) (ref64.ofint (ref64.ifloor (vibRead s k))))
      (vibLine s k (ref64.iceil (vibRead s k) % (s.vib.n : Int)).toNat))

/-- The output conversion of 45_vibrato.md R258. -/
def vibPcm (y : Sample) : Sample :=
  if ref64.isfin (clip64 y (ref64.lit (-32768) 1) (ref64.lit 32767 1)) then
    ref64.ofint (ref64.itrunc (clip64 y (ref64.lit (-32768) 1) (ref64.lit 32767 1)))
  else clip64 y (ref64.lit (-32768) 1) (ref64.lit 32767 1)

/-- Every read index the block computes is finite (45_vibrato.md R256). -/
abbrev vibFinite (s : State) : Prop := ∀ k < blockLen s, ref64.isfin (vibRaw s k) = true

/-- Every phase the block computes is finite (45_vibrato.md R253, R256). -/
abbrev vibPhasesFinite (s : State) : Prop :=
  ∀ k < blockLen s, ref64.isfin (vibPhase ref64 s.params.vibF0 s.params.rate k) = true

/-- The twelve parameter registers (10_state.md R31), integer ones and sample ones. -/
def intParams : List Reg := [.bsize, .revIrlen, .ksLen]

/-- The sample parameter registers (10_state.md R31). -/
def sampleParams : List Reg :=
  [.rate, .dlyTime, .dlyFb, .dlyMix, .dstAmount, .dstMix, .ksDecay, .vibF0, .vibWidth]

/-- The read-only registers (20_memory.md R93). -/
def readOnlyRegs : List Reg :=
  [.id, .status, .err, .cmdcnt, .dlyLen, .dlyIdx, .revL, .ksHead, .vibLen, .vibRidx, .vibWidx, .vibI1]

/-- The offsets of 20_memory.md R85. -/
def registerTable : List (Nat × Reg) :=
  [(0x00, .id), (0x01, .cmd), (0x02, .status), (0x03, .err), (0x04, .ien), (0x05, .ipend), (0x06, .ctrl), (0x07, .cmdcnt),
    (0x10, .bsize), (0x11, .rate), (0x20, .dlyTime), (0x21, .dlyFb), (0x22, .dlyMix), (0x23, .dlyLen), (0x24, .dlyIdx),
    (0x30, .dstAmount), (0x31, .dstMix), (0x40, .revIrlen), (0x41, .revL), (0x50, .ksLen), (0x51, .ksDecay),
    (0x52, .ksHead), (0x60, .vibF0), (0x61, .vibWidth), (0x62, .vibLen), (0x63, .vibRidx), (0x64, .vibWidx), (0x65, .vibI1)]

/-- The windows of 20_memory.md R83, first address and mapped length in the present state (R84). -/
def windows (s : State) : List (Nat × Nat) :=
  [(0x100000, s.caps.maxB), (0x200000, s.caps.maxIR), (0x300000, s.dly.n), (0x400000, s.rev.l), (0x500000, 2 * s.rev.l),
    (0x600000, s.ks.n), (0x700000, s.vib.n)]

/-- The address is mapped (20_memory.md R83, R85): a register, or in a window, which is 2^20 cells at most. -/
abbrev mapped (s : State) (a : Nat) : Prop :=
  (∃ r ∈ registerTable, a = r.1) ∨ ∃ w ∈ windows s, w.1 ≤ a ∧ a < w.1 + min w.2 0x100000

/-- The number of a fault code (60_exceptions.md R281). -/
def codeNumber : ErrCode → Nat
  | .none => 0x00
  | .illCmd => 0x01
  | .busy => 0x02
  | .addr => 0x03
  | .noState => 0x04
  | .bsize => 0x05
  | .dlyLen => 0x10
  | .revIr => 0x30
  | .revLen => 0x31
  | .ksLen => 0x40
  | .vibLen => 0x50
  | .vibIdx => 0x51

/-- `STATUS` (10_state.md R36) as a number. -/
def statusNumber (s : State) : Nat :=
  s.pending.isSome.toNat + 2 * s.fault.toNat + 4 * s.dly.valid.toNat + 8 * s.rev.valid.toNat + 16 * s.ks.valid.toNat +
    32 * s.vib.valid.toNat + 64 * s.vibneg.toNat

/-- What the host reads at each register's offset (20_memory.md R85, R88, 10_state.md R31 to R49): integers zero-extended, a
length or a cursor in 32 bits, samples as they are. -/
def registerImages (s : State) : List (Nat × Word) :=
  [(0x00, 0x47445350#64), (0x01, 0#64), (0x02, BitVec.ofNat 64 (statusNumber s)),
    (0x03, BitVec.ofNat 64 (256 * s.errOp.toNat + codeNumber s.errCode)), (0x04, BitVec.ofNat 64 s.ien.toNat),
    (0x05, BitVec.ofNat 64 s.ipend.toNat), (0x06, 0#64), (0x07, BitVec.ofNat 64 s.cmdcnt.toNat),
    (0x10, BitVec.ofNat 64 s.params.bsize.toNat), (0x11, s.params.rate), (0x20, s.params.dlyTime), (0x21, s.params.dlyFb),
    (0x22, s.params.dlyMix), (0x23, BitVec.ofNat 64 (s.dly.n % 4294967296)), (0x24, BitVec.ofNat 64 (s.dly.idx % 4294967296)),
    (0x30, s.params.dstAmount), (0x31, s.params.dstMix), (0x40, BitVec.ofNat 64 s.params.revIrlen.toNat),
    (0x41, BitVec.ofNat 64 (s.rev.l % 4294967296)), (0x50, BitVec.ofNat 64 s.params.ksLen.toNat), (0x51, s.params.ksDecay),
    (0x52, BitVec.ofNat 64 (s.ks.head % 4294967296)), (0x60, s.params.vibF0), (0x61, s.params.vibWidth),
    (0x62, BitVec.ofNat 64 (s.vib.n % 4294967296)), (0x63, s.vib.r), (0x64, BitVec.ofNat 64 (s.vib.w % 4294967296)),
    (0x65, BitVec.ofNat 64 (s.vib.i1 % 4294967296))]

/-- The offsets readable while a command is pending (20_memory.md R91): `ID`, `STATUS`, `ERR`, `IEN`, `IPEND`, `CMDCNT`. -/
def busyOffsets : List Nat := [0x00, 0x02, 0x03, 0x04, 0x05, 0x07]

/-- What the host reads at an offset of each window (20_memory.md R83, R84), where it is mapped. -/
abbrev windowImages (s : State) (read : Nat → Word) : Prop :=
  ∀ i < 0x100000,
    (i < s.caps.maxB → read (0x100000 + i) = s.blkAt i) ∧ (i < s.caps.maxIR → read (0x200000 + i) = s.irAt i) ∧
    (i < s.dly.n → read (0x300000 + i) = s.dlyAt i) ∧ (i < s.rev.l → read (0x400000 + i) = s.histAt i) ∧
    (∀ k < s.rev.l, (i = 2 * k → read (0x500000 + i) = (s.revHAt k).1) ∧ (i = 2 * k + 1 → read (0x500000 + i) = (s.revHAt k).2)) ∧
    (i < s.ks.n → read (0x600000 + i) = s.ksAt i) ∧ (i < s.vib.n → read (0x700000 + i) = s.vibAt i)

/-- Nothing pending, no fault set. -/
abbrev quiet (s : State) : Prop := s.pending = none ∧ s.fault = false

/-- Everything but the model's own fields for the host is as before. -/
abbrev sameButHost (s t : State) : Prop := t = { s with host := t.host }

/-- A finite sample as a multiple of 2^-1074. -/
abbrev units64 (x : Sample) : Int := Binary64.value x

/-- 1 in the units of `units64`. -/
abbrev one64 : Int := (Binary64.one : Int)

/-- The least size, in units of 2^-1074, that binary64 rounds to an infinity: 2^1024 - 2^970, which is 2^54 - 1 times 2^970. -/
def overflow64 : Int := ((0x3FFFFFFFFFFFFF <<< 2044 : Nat) : Int)

/-- `r` is `num / den` units rounded as 00_scope.md R7 says: the nearest finite sample, of two that are equally near the one
whose last bit is 0; past the largest finite sample an infinity. -/
abbrev rounded (r : Sample) (num den : Int) : Prop :=
  (|num| < overflow64 * den →
    ref64.isfin r = true ∧
    ∀ z, ref64.isfin z = true →
      |units64 r * den - num| ≤ |units64 z * den - num| ∧
      (|units64 r * den - num| = |units64 z * den - num| → units64 z ≠ units64 r → r.getLsbD 0 = false)) ∧
  (overflow64 * den ≤ num → r = 0x7FF0000000000000#64) ∧ (num ≤ -(overflow64 * den) → r = 0xFFF0000000000000#64)

/-- The number a finite sample stands for (00_scope.md R7). -/
def number64 (x : Sample) : ℚ := (units64 x : ℚ) / (one64 : ℚ)

/-- The step performs a command: the engine moves, a command is pending and no fault is set. -/
abbrev performs (s : State) : Prop := s.pending ≠ none ∧ s.fault = false ∧ ∃ rest, engineTurn s rest

/-- The step is a reset: the reset input, or a write of `CTRL` with bit 0 set (70_reset_and_hazards.md R320, R321). -/
abbrev resets (s : State) : Prop :=
  ∃ rest, s.host.script = .rst :: rest ∨ ∃ w : Word, s.host.script = .wr 0x06#24 w :: rest ∧ w.getLsbD 0 = true

end Sys2Proof.Claims

open Sys2Proof.Claims

/-! Encoding. -/

/-- 30_encoding.md R112, R113: a word of each row, and of each named mode. -/
def Obligations.TableWordsDecode : Prop :=
  decode 0x00000000#32 = .ok .nop ∧ decode 0x00000010#32 = .ok .dlyInit ∧ decode 0x00000011#32 = .ok .dlyApply ∧
  decode 0x00000320#32 = .ok (.dstApply .sine) ∧ decode 0x0000FF20#32 = .ok (.dstApply (.unknown 255#8)) ∧
  decode 0x00000030#32 = .ok .revInit ∧ decode 0x00000031#32 = .ok .revApply ∧ decode 0x00000040#32 = .ok .ksPluck ∧
  decode 0x00000041#32 = .ok .ksGen ∧ decode 0x00000050#32 = .ok .vibInit ∧ decode 0x00000051#32 = .ok .vibApply ∧
  decode 0x00000111#32 = .error .argument ∧ decode 0x00010020#32 = .error .reservedBits ∧
  decode 0x00000012#32 = .error .unknownOpcode

/-- 30_encoding.md R112: a decoded command is the one whose row the word matches, and a word that matches a row decodes to a
command of that row. -/
def Obligations.DecodeMatchesRow : Prop :=
  (∀ c i, decode c = .ok i → c &&& (row i).2 = (row i).1) ∧
  (∀ c i, c &&& (row i).2 = (row i).1 → ∃ j, decode c = .ok j ∧ row j = row i)

/-- 30_encoding.md R114: which words are illegal; the `CMD` write accepts them, and the engine faults on them, all alike. -/
def Obligations.IllegalWordsFault : Prop :=
  (∀ c : Cmd, (∃ e, decode c = .error e) ↔
    (rsvField c ≠ 0#16 ∨
      opField c ∉ [0x00#8, 0x10#8, 0x11#8, 0x20#8, 0x30#8, 0x31#8, 0x40#8, 0x41#8, 0x50#8, 0x51#8] ∨
      (opField c ≠ 0x20#8 ∧ argField c ≠ 0#8))) ∧
  (∀ s c e rest, s.pending = some c → s.fault = false → engineTurn s rest → decode c = .error e →
    step s = .next (faulted .illCmd (opField c) { s with host := { s.host with script := rest } })) ∧
  (∀ s w, quiet s → memWrite ref64 0x01#24 w s = { s with pending := some (w.extractLsb' 0 32) })

/-- 30_encoding.md R110 to R113: decoding and encoding are inverse to each other, in both directions. -/
def Obligations.DecodeEncodeInverse : Prop :=
  (∀ i : Instr, i.wellFormed = true → decode (encode i) = .ok i) ∧
  (∀ (c : Cmd) (i : Instr), decode c = .ok i → i.wellFormed = true ∧ encode i = c)

/-- 30_encoding.md R113: the mode field, every value, and the transfer function each names (42_distortion.md R181 to R185). -/
def Obligations.ModeFieldMeaning : Prop :=
  ∀ m : Byte,
    (m = 1#8 → decodeMode m = .soft) ∧ (m = 2#8 → decodeMode m = .hard) ∧ (m = 3#8 → decodeMode m = .sine) ∧
    (m = 4#8 → decodeMode m = .bitcrush) ∧
    (m = 0#8 ∨ 5 ≤ m.toNat → decodeMode m = .unknown m) ∧
    ∀ a x, shape ref64 (decodeMode m) a x = wet (decodeMode m) a x

/-! The step. -/

/-- 40_commands.md R141: in the engine's turn the pending command that decodes is performed, and by `withFetchWord` that is
the next step. -/
def Obligations.StepPerformsCommand : Prop :=
  (∀ (s : State) (c : Cmd) (i : Instr) (rest : List (BusOp Word)), s.pending = some c → s.fault = false →
    engineTurn s rest → decode c = .ok i →
    step s = exec i { s with host := { s.host with script := rest } }) ∧
  (∀ (s : State) (w : Nat) (i : Instr), decode (BitVec.ofNat 32 w) = .ok i → w < 4294967296 →
    step (s.withFetchWord 32 w) = exec i { s with pending := some (BitVec.ofNat 32 w), fault := false })

/-- 00_scope.md R15, 20_memory.md R94: in the host's turn the next line of its script is performed, and nothing else. -/
def Obligations.StepPerformsBusOperation : Prop :=
  ∀ (s : State) (rest : List (BusOp Word)),
    (∀ a, s.host.script = .rd a :: rest →
      step s = .next (returned (memRead ref64 a { s with host := { s.host with script := rest } }).1
        (memRead ref64 a { s with host := { s.host with script := rest } }).2)) ∧
    (∀ a w, s.host.script = .wr a w :: rest →
      step s = .next (memWrite ref64 a w { s with host := { s.host with script := rest } })) ∧
    (s.host.script = .rst :: rest → step s = .next (resetBlock ref64 { s with host := { s.host with script := rest } })) ∧
    (s.pending = none → s.host.script = .wait :: rest →
      step s = .next { s with host := { s.host with script := rest } }) ∧
    (s.pending = none → s.host.script = [] → step s = .next s)

/-! Completion and faults of commands. -/

/-- 40_commands.md R141, 60_exceptions.md R286: the counters and pending bits of a command that completes and of one that
faults. -/
def Obligations.CommandBookkeeping : Prop :=
  ∀ (i : Instr) (s t : State), s.fault = false → exec i s = .next t →
    t.pending = none ∧
    (t.fault = false → t.cmdcnt = s.cmdcnt + 1#32 ∧ t.ipend = s.ipend ||| 1#2 ∧ t.errCode = s.errCode ∧ t.errOp = s.errOp) ∧
    (t.fault = true → t.cmdcnt = s.cmdcnt ∧ t.ipend = s.ipend ||| 2#2)

/-- 60_exceptions.md R289: a faulting command leaves the state as it was, plus the fields of R283. -/
def Obligations.FaultsArePrecise : Prop :=
  ∀ (i : Instr) (s t : State), s.fault = false → exec i s = .next t → t.fault = true →
    t = faulted t.errCode i.opcode s

/-- 60_exceptions.md R281, R285: which codes a command can fault with, and which check comes first. -/
def Obligations.FaultCodesAndPriority : Prop :=
  ∀ (i : Instr) (s t : State), s.fault = false → exec i s = .next t →
    (t.fault = true → t.errCode ∈ faultCodes i) ∧
    (usesBlock i = true → ¬ blockLegal s → t = faulted .bsize i.opcode s) ∧
    ((usesBlock i = true → blockLegal s) → unitReady i s = false → t = faulted .noState i.opcode s)

/-- 40_commands.md R146: `NOP` does nothing but the bookkeeping. -/
def Obligations.NopCompletes : Prop :=
  decode 0x00000000#32 = .ok .nop ∧ ∀ s : State, exec .nop s = .next (completed s)

/-- 41_delay.md R160: what `DLY.INIT` leaves, and when it faults. -/
def Obligations.DlyInitResult : Prop :=
  decode 0x00000010#32 = .ok .dlyInit ∧ ∀ s : State,
    (ref64.isfin (dlyProduct s) = true → 0 < ref64.ifloor (dlyProduct s) →
      ref64.ifloor (dlyProduct s) ≤ (s.caps.maxDly : Int) →
      ∃ t, exec .dlyInit s = .next t ∧ t = completed { s with dly := t.dly } ∧ t.dly.valid = true ∧
        (t.dly.n : Int) = ref64.ifloor (dlyProduct s) ∧ t.dly.idx = 0 ∧ ∀ i < t.dly.n, t.dlyAt i = ref64.lit 0 1) ∧
    (s.fault = false →
      (ref64.isfin (dlyProduct s) = false ∨ ref64.ifloor (dlyProduct s) ≤ 0 ∨
        (s.caps.maxDly : Int) < ref64.ifloor (dlyProduct s)) →
      exec .dlyInit s = .next (faulted .dlyLen 0x10#8 s))

/-- 41_delay.md R161: every output sample, every cell of the line and the cursor after `DLY.APPLY`. -/
def Obligations.DlyApplyResult : Prop :=
  decode 0x00000011#32 = .ok .dlyApply ∧ ∀ s : State, firstChecks .dlyApply s ∧
    (blockLegal s → s.dly.valid = true → ∃ t, exec .dlyApply s = .next t ∧ t = completed { s with blk := t.blk, dly := t.dly } ∧
      (∀ k < blockLen s, t.blkAt k = dlyOut s k) ∧ (∀ i, t.dlyAt i = dlyLine s (blockLen s) i) ∧
      t.dly.idx = dlyIndex s (blockLen s) ∧ t.dly.n = s.dly.n ∧ t.dly.valid = true)

/-- 41_delay.md R161, R166, in exact arithmetic: a fresh delay line without feedback is a plain delay of `n` samples, mixed
with the dry signal. The signal may be cut into blocks anywhere (`loop_append`). -/
def Obligations.DlyPlainDelay : Prop :=
  ∀ (F : Type) [Field F] [LinearOrder F] [IsStrictOrderedRing F] [FloorRing F] (W : Type) (N : Machine.Num F W) (unw : Nat → F) (n B : Nat)
    (mix : F) (u : Nat → F), N.Exact → 1 ≤ n →
    (dlyBlock N unw n 0 mix { idx := 0, buf := Memory.ofList 0 (List.replicate n 0) } ((List.range B).map u)).1 =
      (List.range B).map fun k => (1 - mix) * u k + mix * (if n ≤ k then u (k - n) else 0)

/-- 42_distortion.md R180 to R186: every output sample of `DST.APPLY`. -/
def Obligations.DstApplyResult : Prop :=
  (∀ m : Byte, decode (0x00000020#32 + m.setWidth 32 <<< 8) = .ok (.dstApply (decodeMode m))) ∧
  ∀ (mode : DstMode) (s : State), firstChecks (.dstApply mode) s ∧
    (blockLegal s → ∃ t, exec (.dstApply mode) s = .next t ∧ t = completed { s with blk := t.blk } ∧
      ∀ k < blockLen s, t.blkAt k = dstOut mode s k)

/-- 42_distortion.md R189: the output bound, for every input, mode, amount and mix. -/
def Obligations.DstOutputBound : Prop :=
  ∀ (mode : DstMode) (s t : State), blockLegal s → exec (.dstApply mode) s = .next t →
    ∀ k < blockLen s, Binary64.isNaN (t.blkAt k) = false →
      ref64.le (ref64.lit (-99) 100) (t.blkAt k) = true ∧ ref64.le (t.blkAt k) (ref64.lit 99 100) = true

/-- 42_distortion.md R190: zero in, zero out, at `mix = 1` and a finite amount. In `REF64` two more premises are needed, which
R190 leaves out: `PI * a` must not overflow (`sine`), and the configured `pow2` must give a finite step that is not zero
(`bitcrush`). -/
def Obligations.DstZeroInZeroOut : Prop :=
  ∀ (mode : DstMode) (a m x : Sample), m = ref64.lit 1 1 → Binary64.isZero x = true → ref64.isfin a = true →
    (mode = .sine → ref64.isfin (ref64.mul ref64.pi a) = true) →
    (mode = .bitcrush → ref64.isfin (crushLevels ref64 a) = true ∧ Binary64.isZero (crushLevels ref64 a) = false) →
    ref64.eq (dstSample ref64 mode a m x) (ref64.lit 0 1) = true

/-- 42_distortion.md R191: hard clip at unity threshold. -/
def Obligations.DstHardUnity : Prop :=
  ∀ a m x : Sample, ref64.le (ref64.lit 1 1) a = true → m = ref64.lit 1 1 →
    (ref64.le (ref64.abs x) (ref64.lit 99 100) = true → ref64.eq (dstSample ref64 .hard a m x) x = true) ∧
    (ref64.lt (ref64.lit 99 100) (ref64.abs x) = true → ref64.le (ref64.abs x) (ref64.lit 1 1) = true →
      ref64.eq (shape ref64 .hard a x) x = true ∧
      dstSample ref64 .hard a m x = if ref64.lt x (ref64.lit 0 1) then ref64.lit (-99) 100 else ref64.lit 99 100)

/-- 43_reverb.md R200: what `REV.INIT` leaves, and when it faults. -/
def Obligations.RevInitResult : Prop :=
  decode 0x00000030#32 = .ok .revInit ∧ ∀ s : State, firstChecks .revInit s ∧
    (blockLegal s → irUsable s →
      ∃ t, exec .revInit s = .next t ∧ t = completed { s with rev := t.rev } ∧ t.rev.valid = true ∧
        t.rev.p = irLen s ∧ t.rev.b = blockLen s ∧ t.rev.l = irLen s - 1 + blockLen s ∧
        (∀ k : Fin t.rev.l, t.revHAt k.val = ref64.dft t.rev.l (irPadded s t.rev.l) k) ∧
        ∀ i < t.rev.l, t.histAt i = ref64.lit 0 1) ∧
    (blockLegal s → ¬ irUsable s → s.fault = false → exec .revInit s = .next (faulted .revIr 0x30#8 s))

/-- 43_reverb.md R201: every output sample and the history after `REV.APPLY`; `H` and the lengths stay. The lengths agree, as
the invariant says (`InvariantKept`); where they do not, `E_REV_LEN`. -/
def Obligations.RevApplyResult : Prop :=
  decode 0x00000031#32 = .ok .revApply ∧ ∀ s : State, firstChecks .revApply s ∧
    (blockLegal s → s.rev.valid = true → ∀ (hb : s.rev.b = blockLen s) (hl : s.rev.l + 1 = s.rev.p + blockLen s) (hp : 1 ≤ s.rev.p),
      ∃ t, exec .revApply s = .next t ∧
        t = completed { s with blk := t.blk, rev := { s.rev with hist := t.rev.hist } } ∧
        (∀ (j : Nat) (hj : j < blockLen s),
          t.blkAt j = (convolved s ⟨s.rev.l - blockLen s + j, by have := hl; have := hp; simp only [blockLen] at *; omega⟩).1) ∧
        ∀ i : Fin s.rev.l, t.histAt i.val = shifted s i) ∧
    (blockLegal s → s.rev.valid = true → s.fault = false →
      (s.rev.b ≠ blockLen s ∨ (s.rev.l : Int) ≠ (s.rev.p : Int) - 1 + (blockLen s : Int)) →
      exec .revApply s = .next (faulted .revLen 0x31#8 s))

/-- 43_reverb.md R203: in exact arithmetic, and for transforms with law N12, the output blocks of a session are the linear
convolution of the input signal with the normalised impulse response, and the history is the last `L` input samples. -/
def Obligations.RevLinearConvolution : Prop :=
  ∀ (K : Type) [Field K] [LinearOrder K] [IsStrictOrderedRing K] [FloorRing K] (W : Type) (N : Machine.Num K W) (ir : List K) (B : Nat)
    (u : Nat → K), N.Exact → 1 ≤ ir.length → 1 ≤ B → N.ConvolutionLaw (ir.length - 1 + B) →
    ∀ k : Nat,
      (∀ i : Fin (ir.length - 1 + B),
        (revSession N (revSpectrum N ir (ir.length - 1 + B)) B u k).2 i =
          if ir.length - 1 + B ≤ (k + 1) * B + i.val then u ((k + 1) * B + i.val - (ir.length - 1 + B)) else 0) ∧
      (revSession N (revSpectrum N ir (ir.length - 1 + B)) B u k).1 =
        (List.range B).map fun j =>
          ∑ m ∈ Finset.range ir.length,
            (ir.getD m 0 / N.maxabs ir) * (if m ≤ k * B + j then u (k * B + j - m) else 0)

/-- 43_reverb.md R207: once the zero blocks are as long as the history, the history is zero and so is the output. `H` is
finite: law N9 asks it of the second factor. -/
def Obligations.RevSilence : Prop :=
  ∀ (L B : Nat) (H : Fin L → Sample × Sample) (zeros : Nat → Nat → Sample) (hist : Fin L → Sample) (z : Nat),
    1 ≤ B → B ≤ L → (∀ k, ref64.isfin (H k).1 = true ∧ ref64.isfin (H k).2 = true) →
    (∀ b j, Binary64.isZero (zeros b j) = true) → 1 ≤ z → L ≤ z * B →
    (∀ i, Binary64.isZero ((silentBlocks H B zeros hist z).2 i) = true) ∧
    (silentBlocks H B zeros hist z).1.length = B ∧
    ∀ v ∈ (silentBlocks H B zeros hist z).1, Binary64.isZero v = true

/-- 43_reverb.md R205: in a state of the invariant the length guard never fails. -/
def Obligations.RevGuardNeverFails : Prop :=
  ∀ s t : State, MachineInv s → exec .revApply s = .next t → t.errCode = .revLen → s.errCode = .revLen

/-- 44_karplus_strong.md R230: what `KS.PLUCK` leaves, and when it faults. The values are draws: finite, in [-1, 1], and
nothing else is said of them. -/
def Obligations.KsPluckResult : Prop :=
  decode 0x00000040#32 = .ok .ksPluck ∧ ∀ s : State,
    (1 ≤ s.params.ksLen.toNat → s.params.ksLen.toNat ≤ s.caps.maxKs →
      ∃ t, exec .ksPluck s = .next t ∧ t = completed { s with ks := t.ks, draws := t.draws } ∧ t.ks.valid = true ∧
        t.ks.n = s.params.ksLen.toNat ∧ t.ks.head = 0 ∧
        ∀ i < t.ks.n, ref64.isfin (t.ksAt i) = true ∧ ref64.le (ref64.lit (-1) 1) (t.ksAt i) = true ∧
          ref64.le (t.ksAt i) (ref64.lit 1 1) = true) ∧
    (s.fault = false → (s.params.ksLen.toNat = 0 ∨ s.caps.maxKs < s.params.ksLen.toNat) →
      exec .ksPluck s = .next (faulted .ksLen 0x40#8 s))

/-- 44_karplus_strong.md R231, R233: `KS.GEN` is append-and-pop on the logical sequence, and emits the old fronts. The
string is in range, as the invariant says. -/
def Obligations.KsGenResult : Prop :=
  decode 0x00000041#32 = .ok .ksGen ∧ ∀ s : State, firstChecks .ksGen s ∧
    (blockLegal s → s.ks.valid = true → s.ks.head < s.ks.n → ∃ t, exec .ksGen s = .next t ∧ t = completed { s with blk := t.blk, ks := t.ks } ∧
      (∀ k < blockLen s,
        t.blkAt k = (pluckedTimes s.params.ksDecay (stringOf s) k).getD 0 (ref64.lit 0 1)) ∧
      stringOf t = pluckedTimes s.params.ksDecay (stringOf s) (blockLen s) ∧
      t.ks.head = (s.ks.head + blockLen s) % s.ks.n ∧ t.ks.n = s.ks.n ∧ t.ks.valid = true)

/-- 44_karplus_strong.md R238: in exact arithmetic a new value is bounded by the two it is made of, and for `abs(K) <= 1`
nothing in the ring and nothing emitted ever exceeds the bound of the ring. -/
def Obligations.KsStringBounded : Prop :=
  ∀ (F : Type) [Field F] [LinearOrder F] [IsStrictOrderedRing F] [FloorRing F] (W : Type) (N : Machine.Num F W) (unw : Nat → F) (n B : Nat)
    (K c : F) (l : KsLoop F), N.Exact →
    (∀ first second : F, |ksNew N K first second| ≤ |K| * max |first| |second|) ∧
    (|K| ≤ 1 → l.head < n → (∀ i < n, |l.buf.read unw i| ≤ c) →
      (∀ o ∈ (ksBlock N unw n K l B).1, |o| ≤ c) ∧ (ksBlock N unw n K l B).2.head < n ∧
      ∀ i < n, |(ksBlock N unw n K l B).2.buf.read unw i| ≤ c)

/-- 45_vibrato.md R252: what `VIB.INIT` leaves, and when it faults. -/
def Obligations.VibInitResult : Prop :=
  decode 0x00000050#32 = .ok .vibInit ∧ ∀ s : State,
    (ref64.eq s.params.rate (ref64.lit 0 1) = false → ref64.isfin (vibProduct s) = true →
      ref64.lt (vibProduct s) (ref64.lit 0 1) = false → ref64.ifloor (vibProduct s) + 2 ≤ (s.caps.maxVib : Int) →
      ∃ t, exec .vibInit s = .next t ∧ t = completed { s with vib := t.vib, vibneg := false } ∧ t.vib.valid = true ∧
        (t.vib.n : Int) = ref64.ifloor (vibProduct s) + 2 ∧ t.vib.r = ref64.lit 0 1 ∧ t.vib.w = t.vib.n / 2 ∧
        t.vib.i1 = 0 ∧ ∀ i < t.vib.n, t.vibAt i = ref64.lit 0 1) ∧
    (s.fault = false →
      (ref64.eq s.params.rate (ref64.lit 0 1) = true ∨ ref64.isfin (vibProduct s) = false ∨
        ref64.lt (vibProduct s) (ref64.lit 0 1) = true ∨ (s.caps.maxVib : Int) < ref64.ifloor (vibProduct s) + 2) →
      exec .vibInit s = .next (faulted .vibLen 0x50#8 s))

/-- 45_vibrato.md R253 to R258: every output sample, every cell and every cursor after `VIB.APPLY`, and the sticky flag;
and the fault where a computed read index is not finite. -/
def Obligations.VibApplyResult : Prop :=
  decode 0x00000051#32 = .ok .vibApply ∧ ∀ s : State, firstChecks .vibApply s ∧
    (blockLegal s → s.vib.valid = true → vibFinite s →
      ∃ t, exec .vibApply s = .next t ∧ t = completed { s with blk := t.blk, vib := t.vib, vibneg := t.vibneg } ∧
        (∀ k < blockLen s, t.blkAt k = vibPcm (vibValue s k)) ∧ (∀ i, t.vibAt i = vibLine s (blockLen s) i) ∧
        t.vib.r = vibRead s (blockLen s) ∧ t.vib.w = vibWrite s (blockLen s) ∧ t.vib.i1 = vibBase s (blockLen s) ∧
        t.vib.n = s.vib.n ∧ t.vib.valid = true ∧
        (t.vibneg = true ↔ s.vibneg = true ∨ ∃ k < blockLen s, ref64.lt (vibRead s k) (ref64.lit 0 1) = true)) ∧
    (blockLegal s → s.vib.valid = true → s.fault = false → ¬ vibFinite s → exec .vibApply s = .next (faulted .vibIdx 0x51#8 s))

/-- 45_vibrato.md R258: the output conversion. A NaN stays; every other value becomes an integer of the 16-bit range. -/
def Obligations.VibOutputIsInteger : Prop :=
  ∀ y : Sample,
    (Binary64.isNaN y = true → vibConvert ref64 y = y) ∧
    (Binary64.isNaN y = false → ∃ z : Int, -32768 ≤ z ∧ z ≤ 32767 ∧ vibConvert ref64 y = ref64.ofint z ∧
      (ref64.lt y (ref64.lit (-32768) 1) = true → z = -32768) ∧ (ref64.lt (ref64.lit 32767 1) y = true → z = 32767) ∧
      (ref64.le (ref64.lit (-32768) 1) y = true → ref64.le y (ref64.lit 32767 1) = true → z = ref64.itrunc y))

/-- 45_vibrato.md R260: without modulation the read index is `i1`, and the output is the conversion of the input delayed by
`floor(len / 2)` samples. The positions are those of the invariant, the rate is not a NaN (its product is finite). -/
def Obligations.VibPureDelay : Prop :=
  ∀ s t : State, blockLegal s → s.vib.valid = true → 2 ≤ s.vib.n → s.vib.n ≤ 1048576 → s.vib.i1 < s.vib.n →
    s.vib.w = (s.vib.i1 + s.vib.n / 2) % s.vib.n → s.vib.r = ref64.ofint s.vib.i1 → s.params.vibF0 = ref64.lit 0 1 →
    ref64.isfin (vibProduct s) = true → ref64.eq s.params.rate (ref64.lit 0 1) = false →
    (∀ i < s.vib.n, ref64.isfin (s.vibAt i) = true) → (∀ k < blockLen s, ref64.isfin (s.blkAt k) = true) →
    exec .vibApply s = .next t →
    t.vib.r = ref64.ofint t.vib.i1 ∧ t.vib.i1 = (s.vib.i1 + blockLen s) % s.vib.n ∧ t.vibneg = s.vibneg ∧
    ∀ k < blockLen s,
      t.blkAt k = vibConvert ref64 (if s.vib.n / 2 ≤ k then s.blkAt (k - s.vib.n / 2) else s.vibAt ((s.vib.i1 + k) % s.vib.n))

/-! What commands leave unchanged. -/

/-- The frame of every command: 10_state.md R31 (commands never write the parameter registers), R52 (nor `IRBUF`), and the
interrupt enables, the capacities, the reset count and the host, which none writes. -/
def Obligations.CommandsKeepHostData : Prop :=
  ∀ (i : Instr) (s t : State), exec i s = .next t →
    t.params = s.params ∧ t.ien = s.ien ∧ t.caps = s.caps ∧ t.epoch = s.epoch ∧ t.host = s.host ∧
    (i ≠ .ksPluck → t.draws = s.draws) ∧ (i ≠ .vibInit → i ≠ .vibApply → t.vibneg = s.vibneg) ∧
    ∀ a, t.irAt a = s.irAt a

/-- 10_state.md R30: each unit owns its state, and no command of another unit changes it. -/
def Obligations.UnitsAreIsolated : Prop :=
  ∀ (i : Instr) (s t : State), exec i s = .next t →
    (i ≠ .dlyInit → i ≠ .dlyApply → t.dly = s.dly ∧ ∀ a, t.dlyAt a = s.dlyAt a) ∧
    (i ≠ .revInit → i ≠ .revApply → t.rev = s.rev ∧ (∀ a, t.histAt a = s.histAt a) ∧ ∀ a, t.revHAt a = s.revHAt a) ∧
    (i ≠ .ksPluck → i ≠ .ksGen → t.ks = s.ks ∧ ∀ a, t.ksAt a = s.ksAt a) ∧
    (i ≠ .vibInit → i ≠ .vibApply → t.vib = s.vib ∧ ∀ a, t.vibAt a = s.vibAt a) ∧
    (i = .revApply → t.rev.h = s.rev.h ∧ t.rev.p = s.rev.p ∧ t.rev.b = s.rev.b ∧ t.rev.l = s.rev.l)

/-- 40_commands.md R145, 10_state.md R51: a command that writes `BLK` writes `BLK[0 .. B-1]` and no other cell; the others
write none. -/
def Obligations.CommandsWriteOnlyTheBlock : Prop :=
  ∀ (i : Instr) (s t : State), exec i s = .next t →
    ∀ a, (writesBlock i = true → blockLen s ≤ a) → t.blkAt a = s.blkAt a

/-! The bus. -/

/-- 20_memory.md R83 to R85, R88, R91 to R93: what a host read returns and does. Idle or faulted, every mapped address reads
what stands there, written out; six registers do so in every state; any other read while busy, and a read of an unmapped
address, is a fault and returns 0, and in the fault state just 0. -/
def Obligations.HostRead : Prop :=
  ∀ s : State,
    (∀ r ∈ registerImages s, (quiet s ∨ s.fault = true ∨ r.1 ∈ busyOffsets) →
      memRead ref64 (BitVec.ofNat 24 r.1) s = (r.2, s)) ∧
    (quiet s ∨ s.fault = true →
      windowImages s (fun a => (memRead ref64 (BitVec.ofNat 24 a) s).1) ∧
      ∀ a : Addr, mapped s a.toNat → (memRead ref64 a s).2 = s) ∧
    (s.fault = false → s.pending ≠ none → ∀ a : Addr, a.toNat ∉ busyOffsets →
      memRead ref64 a s = (0#64, faulted .busy 0xFF#8 s)) ∧
    (quiet s → ∀ a : Addr, ¬ mapped s a.toNat → memRead ref64 a s = (0#64, faulted .addr 0xFF#8 s)) ∧
    (s.fault = true → ∀ a : Addr, ¬ mapped s a.toNat → memRead ref64 a s = (0#64, s))

/-- 20_memory.md R91 to R93: when a host write is refused or dropped. -/
def Obligations.HostWriteRefused : Prop :=
  ∀ (a : Addr) (w : Word) (s : State), place s a ≠ .reg .ctrl →
    (s.fault = true → memWrite ref64 a w s = s) ∧
    (s.fault = false → s.pending ≠ none → memWrite ref64 a w s = faulted .busy 0xFF#8 s) ∧
    (quiet s →
      (place s a = .unmapped ∨ (∃ r ∈ readOnlyRegs, place s a = .reg r) ∨
        (0x300000 ≤ a.toNat ∧ a.toNat < 0x800000)) →
      memWrite ref64 a w s = faulted .addr 0xFF#8 s)

/-- 20_memory.md R89, R86, R87, 10_state.md R32, R50: a write of a parameter register stores the value, reads back, and
destroys exactly the unit states it sizes. -/
def Obligations.ParameterWrite : Prop :=
  ∀ (w : Word) (s : State), quiet s →
    (∀ r ∈ intParams,
      (memRead ref64 r.address (memWrite ref64 r.address w s)).1 = (w.extractLsb' 0 32).setWidth 64) ∧
    (∀ r ∈ sampleParams, (memRead ref64 r.address (memWrite ref64 r.address w s)).1 = w) ∧
    (∀ r ∈ intParams ++ sampleParams,
      (memWrite ref64 r.address w s).dly = (if r = .rate ∨ r = .dlyTime then DlyUnit.destroyed else s.dly) ∧
      (memWrite ref64 r.address w s).rev = (if r = .bsize ∨ r = .revIrlen then RevUnit.destroyed else s.rev) ∧
      (memWrite ref64 r.address w s).ks = (if r = .ksLen then KsUnit.destroyed else s.ks) ∧
      (memWrite ref64 r.address w s).vib = (if r = .rate ∨ r = .vibWidth then VibUnit.destroyed 0x0000000000000000#64 else s.vib) ∧
      memWrite ref64 r.address w s =
        { s with
          params := (memWrite ref64 r.address w s).params
          dly := (memWrite ref64 r.address w s).dly
          rev := (memWrite ref64 r.address w s).rev
          ks := (memWrite ref64 r.address w s).ks
          vib := (memWrite ref64 r.address w s).vib } ∧
      ∀ r' ∈ intParams ++ sampleParams, r' ≠ r → regValue ref64 (memWrite ref64 r.address w s) r' = regValue ref64 s r')

/-- 20_memory.md R89, R86, 10_state.md R50 to R52: a write of a cell of `BLK` or `IRBUF` stores it and leaves every other
cell; an `IRBUF` write destroys the REV state. -/
def Obligations.CellWrite : Prop :=
  ∀ (i : Nat) (w : Word) (s : State), quiet s →
    (i < s.caps.maxB → i < 1048576 →
      (memRead ref64 (blkAddress i) (memWrite ref64 (blkAddress i) w s)).1 = w ∧
      memWrite ref64 (blkAddress i) w s = { s with blk := (memWrite ref64 (blkAddress i) w s).blk } ∧
      ∀ j, j ≠ i → (memWrite ref64 (blkAddress i) w s).blkAt j = s.blkAt j) ∧
    (i < s.caps.maxIR → i < 1048576 →
      (memRead ref64 (irAddress i) (memWrite ref64 (irAddress i) w s)).1 = w ∧
      memWrite ref64 (irAddress i) w s =
        { s with irbuf := (memWrite ref64 (irAddress i) w s).irbuf, rev := RevUnit.destroyed } ∧
      ∀ j, j ≠ i → (memWrite ref64 (irAddress i) w s).irAt j = s.irAt j)

/-- 10_state.md R38, R39, 60_exceptions.md R288, 20_memory.md R89: writes of `IEN` and `IPEND`. -/
def Obligations.InterruptRegisterWrites : Prop :=
  ∀ (w : Word) (s : State), quiet s →
    memWrite ref64 Reg.ien.address w s = { s with ien := w.extractLsb' 0 2 } ∧
    memWrite ref64 Reg.ipend.address w s = { s with ipend := (memWrite ref64 Reg.ipend.address w s).ipend } ∧
    ∀ b < 2, (memWrite ref64 Reg.ipend.address w s).ipend.getLsbD b = (s.ipend.getLsbD b && !w.getLsbD b)

/-- 20_memory.md R83, R85: the address map. The 28 registers stand at the offsets of the table and nowhere else, each window
starts at its region, and every other address is unmapped. -/
def Obligations.RegisterMap : Prop :=
  ∀ (s : State) (a : Addr),
    (∀ r, place s a = .reg r ↔ (a.toNat, r) ∈ registerTable) ∧
    (∀ i, place s a = .blk i ↔ a.toNat = 0x100000 + i ∧ i < 0x100000 ∧ i < s.caps.maxB) ∧
    (∀ i, place s a = .irbuf i ↔ a.toNat = 0x200000 + i ∧ i < 0x100000 ∧ i < s.caps.maxIR) ∧
    (∀ i, place s a = .dlyBuf i ↔ a.toNat = 0x300000 + i ∧ i < 0x100000 ∧ i < s.dly.n) ∧
    (∀ i, place s a = .revHist i ↔ a.toNat = 0x400000 + i ∧ i < 0x100000 ∧ i < s.rev.l) ∧
    (∀ i, place s a = .revH i ↔ a.toNat = 0x500000 + i ∧ i < 0x100000 ∧ i < 2 * s.rev.l) ∧
    (∀ i, place s a = .ksBuf i ↔ a.toNat = 0x600000 + i ∧ i < 0x100000 ∧ i < s.ks.n) ∧
    (∀ i, place s a = .vibBuf i ↔ a.toNat = 0x700000 + i ∧ i < 0x100000 ∧ i < s.vib.n) ∧
    (place s a = .unmapped ↔ ¬ mapped s a.toNat) ∧ ∀ r, (r.address.toNat, r) ∈ registerTable

/-- 10_state.md R36: each bit of `STATUS`. -/
def Obligations.StatusBits : Prop :=
  ∀ s : State,
    ((statusWord s).getLsbD 0 = s.pending.isSome) ∧ ((statusWord s).getLsbD 1 = s.fault) ∧
    ((statusWord s).getLsbD 2 = s.dly.valid) ∧ ((statusWord s).getLsbD 3 = s.rev.valid) ∧
    ((statusWord s).getLsbD 4 = s.ks.valid) ∧ ((statusWord s).getLsbD 5 = s.vib.valid) ∧
    ((statusWord s).getLsbD 6 = s.vibneg) ∧ ∀ b, 7 ≤ b → (statusWord s).getLsbD b = false

/-- 10_state.md R60, 60_exceptions.md R287: the interrupt line. -/
def Obligations.InterruptLine : Prop :=
  ∀ s : State, s.irq = true ↔
    ((s.ipend.getLsbD 0 = true ∧ s.ien.getLsbD 0 = true) ∨ (s.ipend.getLsbD 1 = true ∧ s.ien.getLsbD 1 = true))

/-! Faults, reset, invariants. -/

/-- 60_exceptions.md R284: the fault state is absorbing. A step either leaves everything but the host as it is, or is a
reset. -/
def Obligations.FaultIsAbsorbing : Prop :=
  ∀ s t : State, s.fault = true → step s = .next t →
    sameButHost s t ∨ (resets s ∧ t = resetBlock ref64 { s with host := t.host })

/-- 70_reset_and_hazards.md R320, R321, 20_memory.md R89: hard and soft reset have the same effect, the state of reset, in
every state, and a write of `CTRL` with bit 0 clear has none, in every state. The capacities, the count of draws and the host
are no state of the block (log entries 5, 7, 8). -/
def Obligations.ResetEffect : Prop :=
  (∀ (s : State) (w : Word) (rest : List (BusOp Word)), w.getLsbD 0 = true →
    (s.host.script = .rst :: rest ∨ s.host.script = .wr 0x06#24 w :: rest) →
    ∃ t, step s = .next t ∧
      t = { State.reset with
        caps := s.caps, epoch := s.epoch + 1, draws := s.draws, host := { s.host with script := rest } }) ∧
  ∀ (s : State) (w : Word), w.getLsbD 0 = false → memWrite ref64 0x06#24 w s = s

/-- 10_state.md R59: the reset values the spec gives. -/
def Obligations.ResetValues : Prop :=
  State.reset.pending = none ∧ State.reset.fault = false ∧ (errWord State.reset) = 0#32 ∧ State.reset.ien = 0#2 ∧
  State.reset.ipend = 0#2 ∧ State.reset.cmdcnt = 0#32 ∧ State.reset.vibneg = false ∧
  (∀ r ∈ intParams, regValue ref64 State.reset r = 0#64) ∧ (∀ r ∈ sampleParams, regValue ref64 State.reset r = ref64.enc (ref64.lit 0 1)) ∧
  State.reset.dly.valid = false ∧ State.reset.rev.valid = false ∧ State.reset.ks.valid = false ∧
  State.reset.vib.valid = false ∧
  (∀ r ∈ [Reg.dlyLen, .dlyIdx, .revL, .ksHead, .vibLen, .vibRidx, .vibWidx, .vibI1, .status], regValue ref64 State.reset r = 0#64) ∧
  State.reset.rev.p = 0 ∧ State.reset.rev.b = 0 ∧ State.reset.ks.n = 0 ∧
  regValue ref64 State.reset .id = 0x47445350#64 ∧ State.reset.irq = false

/-- 10_state.md R40, 60_exceptions.md R297: a step that performs a command without a fault adds 1 to `CMDCNT`, modulo 2^32; a
reset makes it 0; every other step leaves it. -/
def Obligations.CommandCounter : Prop :=
  ∀ s t : State, step s = .next t →
    (performs s → t.fault = false → t.cmdcnt = s.cmdcnt + 1#32) ∧ (resets s → t.cmdcnt = 0#32) ∧
    (¬ (performs s ∧ t.fault = false) → ¬ resets s → t.cmdcnt = s.cmdcnt)

/-- The state of reset meets the invariant (10_state.md R58, R59), and the bound on the read index. -/
def Obligations.InvariantAtReset : Prop := MachineInv State.reset ∧ readIndexBounded State.reset

/-- 10_state.md R58, 45_vibrato.md R257, 60_exceptions.md R284, 70_reset_and_hazards.md R324: every step, of the engine or of
the host, keeps the invariant. -/
def Obligations.InvariantKept : Prop :=
  ∀ s t : State, MachineInv s → step s = .next t → MachineInv t

/-- 45_vibrato.md R257: every step keeps the two-sided bound on the read index, in `REF64`, where the phases of the block
are finite (the laws of 00_scope.md R9 say nothing of `sin` elsewhere). -/
def Obligations.ReadIndexBoundKept : Prop :=
  ∀ s t : State, MachineInv s → readIndexBounded s → vibPhasesFinite s → step s = .next t → readIndexBounded t

/-- 45_vibrato.md R256: with finite phases `VIB.APPLY` never faults on its read index. -/
def Obligations.FinitePhaseNeverFaults : Prop :=
  ∀ s t : State, MachineInv s → s.fault = false → vibPhasesFinite s → exec .vibApply s = .next t → t.errCode ≠ .vibIdx

/-! The arithmetic of `REF64`. -/

/-- 00_scope.md R7: the literals of the table. -/
def Obligations.LiteralTable : Prop :=
  ref64.lit 0 1 = 0x0000000000000000#64 ∧ ref64.lit 1 100 = 0x3F847AE147AE147B#64 ∧
  ref64.lit 1 2 = 0x3FE0000000000000#64 ∧ ref64.lit 8 10 = 0x3FE999999999999A#64 ∧
  ref64.lit 1 1 = 0x3FF0000000000000#64 ∧ ref64.lit 2 1 = 0x4000000000000000#64 ∧
  ref64.lit 99 100 = 0x3FEFAE147AE147AE#64 ∧ ref64.lit (-99) 100 = 0xBFEFAE147AE147AE#64 ∧
  ref64.lit 16 1 = 0x4030000000000000#64 ∧ ref64.lit 32767 1 = 0x40DFFFC000000000#64 ∧
  ref64.lit (-32768) 1 = 0xC0E0000000000000#64 ∧ ref64.pi = 0x400921FB54442D18#64

/-- 00_scope.md R7: `+`, `-`, `*`, `/` on finite operands, `lit` and `ofint` are the exact result rounded once: to the nearest
binary64 number, ties to even, to an infinity past the largest (the exact results are scaled to whole numbers). -/
def Obligations.ArithmeticIsNearest : Prop :=
  (∀ x y : Sample, ref64.isfin x = true → ref64.isfin y = true →
    rounded (ref64.add x y) (units64 x + units64 y) 1 ∧ rounded (ref64.sub x y) (units64 x - units64 y) 1 ∧
    rounded (ref64.mul x y) (units64 x * units64 y) one64 ∧
    (units64 y ≠ 0 → rounded (ref64.div x y) (units64 x * one64 * (units64 y).sign) |units64 y|)) ∧
  (∀ (n : Int) (d : Nat), 1 ≤ d → rounded (ref64.lit n d) (n * one64) d) ∧
  ∀ z : Int, rounded (ref64.ofint z) (z * one64) 1

/-- 00_scope.md R9, laws N1 to N4 and N8, on finite samples. Halving is exact from 2^-1021 on, and below it where the last
bit allows it. -/
def Obligations.LawsOfZeroAndOne : Prop :=
  (∀ x, ref64.isfin x = true →
    ref64.eq (ref64.add (ref64.lit 0 1) x) x = true ∧ ref64.eq (ref64.add x (ref64.lit 0 1)) x = true ∧
    ref64.eq (ref64.sub x (ref64.lit 0 1)) x = true ∧
    ref64.eq (ref64.mul (ref64.lit 0 1) x) (ref64.lit 0 1) = true ∧
    ref64.eq (ref64.mul x (ref64.lit 0 1)) (ref64.lit 0 1) = true ∧
    ref64.eq (ref64.mul (ref64.lit 1 1) x) x = true ∧ ref64.eq (ref64.mul x (ref64.lit 1 1)) x = true ∧
    ref64.eq (ref64.div x (ref64.lit 1 1)) x = true ∧
    (2 ^ 53 ≤ |units64 x| ∨ units64 x % 2 = 0 → 2 * units64 (ref64.mul (ref64.lit 1 2) x) = units64 x)) ∧
  ref64.eq (ref64.sub (ref64.lit 1 1) (ref64.lit 1 1)) (ref64.lit 0 1) = true ∧
  ref64.eq (ref64.sub (ref64.lit 1 1) (ref64.lit 0 1)) (ref64.lit 1 1) = true

/-- 00_scope.md R9, laws N5 to N7, whatever the configuration functions are. -/
def Obligations.LawsOfTranscendentals : Prop :=
  (ref64.eq (ref64.tanh (ref64.lit 0 1)) (ref64.lit 0 1) = true ∧
    ref64.eq (ref64.sin (ref64.lit 0 1)) (ref64.lit 0 1) = true ∧
    ref64.eq (ref64.rint (ref64.lit 0 1)) (ref64.lit 0 1) = true) ∧
  (∀ x, ref64.isfin x = true →
    ref64.le (ref64.abs (ref64.tanh x)) (ref64.lit 1 1) = true ∧ ref64.le (ref64.abs (ref64.sin x)) (ref64.lit 1 1) = true) ∧
  ∀ k : Nat, 1 ≤ k → k ≤ 16 → ref64.eq (ref64.pow2 (ref64.ofint k)) (ref64.lit (2 ^ k) 1) = true

/-- 00_scope.md R9, law N9, whatever the configuration functions are. -/
def Obligations.LawOfTransforms : Prop :=
  (∀ (L : Nat) (v : Fin L → Sample), (∀ i, Binary64.isZero (v i) = true) →
    ∀ k, Binary64.isZero (ref64.dft L v k).1 = true ∧ Binary64.isZero (ref64.dft L v k).2 = true) ∧
  (∀ (L : Nat) (y : Fin L → Sample × Sample), (∀ i, Binary64.isZero (y i).1 = true ∧ Binary64.isZero (y i).2 = true) →
    ∀ n, Binary64.isZero (ref64.idft L y n).1 = true ∧ Binary64.isZero (ref64.idft L y n).2 = true) ∧
  ∀ a b : Sample × Sample, Binary64.isZero a.1 = true → Binary64.isZero a.2 = true → ref64.isfin b.1 = true →
    ref64.isfin b.2 = true → Binary64.isZero (ref64.cmul a b).1 = true ∧ Binary64.isZero (ref64.cmul a b).2 = true

/-- 00_scope.md R9, law N10: integers up to 2^20 are exact, and floor, ceiling and truncation give them back. -/
def Obligations.LawOfIntegers : Prop :=
  ∀ z : Int, |z| ≤ 1048576 →
    units64 (ref64.ofint z) = z * one64 ∧ ref64.isfin (ref64.ofint z) = true ∧ ref64.ifloor (ref64.ofint z) = z ∧
    ref64.iceil (ref64.ofint z) = z ∧ ref64.itrunc (ref64.ofint z) = z

/-- 00_scope.md R9, law N11. For samples that are not negative the fractional part is exact and in [0, 1). For negative ones
R7's rounding breaks the law: it stays in [0, 1], and -2^-1074 reaches 1 (NOTES.md). -/
def Obligations.LawOfFractions : Prop :=
  (∀ x : Sample, ref64.isfin x = true → ref64.le (ref64.abs x) (ref64.lit 2097152 1) = true →
    0 ≤ units64 (ref64.sub x (ref64.ofint (ref64.ifloor x))) ∧
    units64 (ref64.sub x (ref64.ofint (ref64.ifloor x))) ≤ one64 ∧
    (ref64.le (ref64.lit 0 1) x = true →
      units64 (ref64.sub x (ref64.ofint (ref64.ifloor x))) = units64 x - ref64.ifloor x * one64 ∧
      units64 (ref64.sub x (ref64.ofint (ref64.ifloor x))) < one64)) ∧
  ref64.sub 0x8000000000000001#64 (ref64.ofint (ref64.ifloor 0x8000000000000001#64)) = ref64.lit 1 1

/-- 00_scope.md R6: floor, ceiling and truncation of every finite sample as exact integers, and `rint`, ties to even, with the
operand's sign; `rint` of an infinity is itself (R7). -/
def Obligations.RoundingToIntegers : Prop :=
  (∀ x : Sample, ref64.isfin x = true →
    (ref64.ifloor x * one64 ≤ units64 x ∧ units64 x < (ref64.ifloor x + 1) * one64) ∧
    ((ref64.iceil x - 1) * one64 < units64 x ∧ units64 x ≤ ref64.iceil x * one64) ∧
    ref64.itrunc x = (if 0 ≤ units64 x then ref64.ifloor x else ref64.iceil x) ∧
    ref64.isfin (ref64.rint x) = true ∧ (ref64.rint x).getLsbD 63 = x.getLsbD 63 ∧
    ∃ z : Int, units64 (ref64.rint x) = z * one64 ∧ 2 * |units64 x - z * one64| ≤ one64 ∧
      (2 * |units64 x - z * one64| = one64 → z % 2 = 0)) ∧
  ∀ x : Sample, ref64.isfin x = false → Binary64.isNaN x = false → ref64.rint x = x

/-- 00_scope.md R6: comparisons are numeric, false on a NaN, and take the two zeros as equal; the infinities are the ends of
the order. Negation and absolute value are exact, and change the sign bit only. -/
def Obligations.ComparisonsAndSigns : Prop :=
  (∀ x y : Sample, Binary64.isNaN x = true ∨ Binary64.isNaN y = true →
    ref64.lt x y = false ∧ ref64.le x y = false ∧ ref64.eq x y = false) ∧
  (∀ x y : Sample, ref64.isfin x = true → ref64.isfin y = true →
    (ref64.lt x y = true ↔ units64 x < units64 y) ∧ (ref64.le x y = true ↔ units64 x ≤ units64 y) ∧
    (ref64.eq x y = true ↔ units64 x = units64 y)) ∧
  (∀ x y : Sample, Binary64.isNaN x = false → Binary64.isNaN y = false →
    ref64.le x 0x7FF0000000000000#64 = true ∧ ref64.le 0xFFF0000000000000#64 x = true ∧
    (ref64.isfin x = true → ref64.lt x 0x7FF0000000000000#64 = true ∧ ref64.lt 0xFFF0000000000000#64 x = true) ∧
    (ref64.lt x y = true ↔ ref64.le y x = false) ∧ (ref64.eq x y = true ↔ ref64.le x y = true ∧ ref64.le y x = true)) ∧
  ∀ x : Sample, Binary64.isNaN x = false →
    (ref64.neg x).getLsbD 63 = !x.getLsbD 63 ∧ (ref64.abs x).getLsbD 63 = false ∧
    (∀ b < 63, (ref64.neg x).getLsbD b = x.getLsbD b ∧ (ref64.abs x).getLsbD b = x.getLsbD b) ∧
    units64 (ref64.neg x) = -units64 x ∧ units64 (ref64.abs x) = |units64 x|

/-! `NUM` and its laws. -/

/-- 00_scope.md R9: `REF64` has the laws N1 to N10, whatever its configuration functions are. -/
def Obligations.ReferenceIsLawful : Prop := ref64.Laws number64 (1 / 2 ^ 1021)

/-- 00_scope.md R8, R9, R16: `EXACT` computes exactly and has the laws N1 to N11, and the transforms of R16 have law N12 at
every length. -/
def Obligations.ExactIsLawful : Prop :=
  exact.Exact ∧ exact.FractionLaw id ∧ ∀ L : Nat, exact.ConvolutionLaw L
end

