-- ==== Sys2Proof/Machine/AnyNum.lean ====
section
/-! DEFINITION. The machine over any `NUM` (00_scope.md R5): the same meanings, bus operations and agents as the machine of
`REF64`, which is this machine at `ref64` (Laws/AnyNum.lean). `NUM` is the argument; the capacities are plain data in the
state, and `NOISE` is drawn as Machine/KarplusStrong.lean says. -/

namespace Sys2Proof.Machine

variable {S W : Type} [Inhabited S]

/-- What a command does to the state before it is committed: its fault, or the state with its writes. -/
def performed (N : Num S W) : Instr → AnyNum.State S W → Except ErrCode (AnyNum.State S W)
  | .nop, s => .ok s
  | .dlyInit, s => dlyInit N s
  | .dlyApply, s => dlyApply N s
  | .dstApply m, s => dstApply N m s
  | .revInit, s => revInit N s
  | .revApply, s => revApply N s
  | .ksPluck, s => ksPluck N s
  | .ksGen, s => ksGen N s
  | .vibInit, s => vibInit N s
  | .vibApply, s => vibApply N s

/-- What performing a command does (40_commands.md R141), in the machine over `N`. -/
def execOver (N : Num S W) (i : Instr) (s : AnyNum.State S W) : Host.Outcome (AnyNum.State S W) Fault Refusal :=
  .next (commit i.opcode (performed N i s) s)

/-- One step of the machine over `N`. -/
def stepOver (N : Num S W) (s : AnyNum.State S W) : Host.Outcome (AnyNum.State S W) Fault Refusal := agentStep N (execOver N) s

/-- The machine over `N`, as `Sys2Proof.core` is the machine over `ref64`. -/
def coreOver (N : Num S W) : Host.Core where
  State := AnyNum.State S W
  Fault := Fault
  Refusal := Refusal
  step := stepOver N
  reset := AnyNum.State.reset (N.whole 0)

end Sys2Proof.Machine
end

