-- ==== Sys2Proof/Laws/AnyNum.lean ====
section
/-! SUPPORT. The machine of `REF64` is the machine over any `NUM` at `ref64`; what a written sample reads back as. -/

namespace Sys2Proof.Machine

theorem exec_eq_execOver : exec = execOver ref64 := by
  funext i s
  cases i <;> rfl

theorem step_eq_stepOver : step = stepOver ref64 := by
  funext s
  rw [step, stepOver, exec_eq_execOver]

/-- `lit(0)` in `REF64` (00_scope.md R7's table). -/
theorem whole_zero : ref64.whole 0 = 0x0000000000000000#64 := by decide +kernel

theorem core_eq_coreOver : Sys2Proof.core = coreOver ref64 := by
  rw [Sys2Proof.core, coreOver, step_eq_stepOver, whole_zero]
  rfl

/-- A sample parameter register written with `w` reads back as `enc(dec(w))` over any `NUM` (20_memory.md R86, R88, R89). -/
theorem regValue_writeParam {S W : Type} (N : Num S W) (w : W) (s : AnyNum.State S W) {r : Reg}
    (hr : r ∈ [Reg.rate, .dlyTime, .dlyFb, .dlyMix, .dstAmount, .dstMix, .ksDecay, .vibF0, .vibWidth]) :
    (writeParam N w s r).map (regValue N · r) = some (N.enc (N.dec w)) := by
  simp only [List.mem_cons, List.not_mem_nil, or_false] at hr
  rcases hr with rfl | rfl | rfl | rfl | rfl | rfl | rfl | rfl | rfl <;> rfl

/-- In `EXACT` a sample is read back as it was written (20_memory.md R86). -/
theorem exact_enc_dec (x : ℝ) : exact.enc (exact.dec (.sample x)) = .sample x := rfl

/-- In `REF64` every word is read back as it was written: NaNs, infinities and the sign of zero too (20_memory.md R86). -/
theorem ref64_enc_dec (w : Word) : ref64.enc (ref64.dec w) = w := rfl

end Sys2Proof.Machine
end

