-- ==== Sys2Proof/Laws/Binary64.lean ====
section
/-! SUPPORT. The rounding of `REF64`: it is exact on binary64 numbers, it is monotone, and a scale on both sides does not
matter. From these follow the bounds on results. -/

namespace Sys2Proof.Machine.Binary64

theorem nearestEven_one (n : Nat) : nearestEven n 1 = n := by
  simp [nearestEven, Nat.mod_one]

theorem nearestEven_mul (k d : Nat) (hd : 0 < d) : nearestEven (k * d) d = k := by
  simp [nearestEven, hd]

theorem nearestEven_mono {n n' d : Nat} (h : n ≤ n') : nearestEven n d ≤ nearestEven n' d := by
  have hq : n / d ≤ n' / d := Nat.div_le_div_right h
  have e1 := Nat.div_add_mod n d
  have e2 := Nat.div_add_mod n' d
  unfold nearestEven
  dsimp only
  rcases Nat.lt_or_eq_of_le hq with hlt | heq
  · have : n / d + 1 ≤ n' / d := hlt
    split <;> split <;> (try split) <;> (try split) <;> omega
  · rw [heq] at e1 ⊢
    have hr : n % d ≤ n' % d := by omega
    split <;> split <;> (try split) <;> (try split) <;> omega

theorem nearestEven_ge {n d k : Nat} (hd : 0 < d) (h : k * d ≤ n) : k ≤ nearestEven n d := by
  have := nearestEven_mono (d := d) h
  rwa [nearestEven_mul k d hd] at this

theorem nearestEven_le {n d k : Nat} (hd : 0 < d) (h : n ≤ k * d) : nearestEven n d ≤ k := by
  have := nearestEven_mono (d := d) h
  rwa [nearestEven_mul k d hd] at this

theorem nearestEven_scale (n d k : Nat) (hk : 0 < k) : nearestEven (n * k) (d * k) = nearestEven n d := by
  unfold nearestEven
  dsimp only
  rw [Nat.mul_div_mul_right _ _ hk, Nat.mul_mod_mul_right, show 2 * (n % d * k) = (2 * (n % d)) * k by ring]
  simp [hk]

theorem roundMag_le_inf (num den : Nat) : roundMag num den ≤ infMag := by
  unfold roundMag; exact Nat.min_le_left _ _

@[simp] theorem roundMag_zero (den : Nat) : roundMag 0 den = 0 := by
  simp [roundMag, nearestEven, infMag]

theorem roundMag_scale (num den k : Nat) (hk : 0 < k) : roundMag (num * k) (den * k) = roundMag num den := by
  unfold roundMag
  dsimp only
  rw [Nat.mul_div_mul_right _ _ hk, Nat.shiftLeft_eq, Nat.shiftLeft_eq,
    show den * k * 2 ^ (Nat.log2 (num / den) - 52) = den * 2 ^ (Nat.log2 (num / den) - 52) * k by ring,
    nearestEven_scale _ _ _ hk]

/-- The magnitude a rounding with a given shift produces. -/
theorem roundMag_eq (num den : Nat) :
    roundMag num den = min infMag ((Nat.log2 (num / den) - 52) * expUnit +
      nearestEven num (den * 2 ^ (Nat.log2 (num / den) - 52))) := by
  simp [roundMag, Nat.shiftLeft_eq]

/-- In a shift above 0 the rounded significand has its top bit set. -/
theorem significand_ge {num den : Nat} (hd : 0 < den) (hs : 0 < Nat.log2 (num / den) - 52) :
    expUnit ≤ nearestEven num (den * 2 ^ (Nat.log2 (num / den) - 52)) := by
  have hq : num / den ≠ 0 := by
    intro h; rw [h] at hs; simp at hs
  apply nearestEven_ge (by positivity)
  have h1 : 2 ^ Nat.log2 (num / den) ≤ num / den := Nat.log2_self_le hq
  have h2 : expUnit * 2 ^ (Nat.log2 (num / den) - 52) = 2 ^ Nat.log2 (num / den) := by
    rw [show expUnit = 2 ^ 52 by rfl, ← Nat.pow_add]; congr 1; omega
  calc expUnit * (den * 2 ^ (Nat.log2 (num / den) - 52))
      = (expUnit * 2 ^ (Nat.log2 (num / den) - 52)) * den := by ring
    _ = 2 ^ Nat.log2 (num / den) * den := by rw [h2]
    _ ≤ num / den * den := Nat.mul_le_mul_right _ h1
    _ ≤ num := Nat.div_mul_le_self _ _

/-- The rounded significand has at most 53 bits, or is 2^53 itself. -/
theorem significand_le {num den : Nat} (hd : 0 < den) :
    nearestEven num (den * 2 ^ (Nat.log2 (num / den) - 52)) ≤ 2 * expUnit := by
  apply nearestEven_le (by positivity)
  have h1 : num / den < 2 ^ (Nat.log2 (num / den) + 1) := Nat.lt_log2_self
  have h2 : 2 ^ (Nat.log2 (num / den) + 1) ≤ 2 * expUnit * 2 ^ (Nat.log2 (num / den) - 52) := by
    rw [show 2 * expUnit = 2 ^ 53 by rfl, ← Nat.pow_add]
    exact Nat.pow_le_pow_right (by norm_num) (by omega)
  have h3 : num < (num / den + 1) * den := by
    have := Nat.div_add_mod num den
    have := Nat.mod_lt num hd
    nlinarith
  calc num ≤ (num / den + 1) * den := h3.le
    _ ≤ 2 ^ (Nat.log2 (num / den) + 1) * den := Nat.mul_le_mul_right _ h1
    _ ≤ (2 * expUnit * 2 ^ (Nat.log2 (num / den) - 52)) * den := Nat.mul_le_mul_right _ h2
    _ = 2 * expUnit * (den * 2 ^ (Nat.log2 (num / den) - 52)) := by ring

/-- Rounding is monotone. -/
theorem roundMag_mono {num num' den : Nat} (hd : 0 < den) (h : num ≤ num') : roundMag num den ≤ roundMag num' den := by
  rw [roundMag_eq, roundMag_eq]
  have hq : num / den ≤ num' / den := Nat.div_le_div_right h
  have hl : Nat.log2 (num / den) ≤ Nat.log2 (num' / den) := by
    by_cases h0 : num / den = 0
    · rw [h0]; simp
    · by_contra hc
      have h1 := Nat.log2_self_le h0
      have h2 : num' / den < 2 ^ (Nat.log2 (num' / den) + 1) := Nat.lt_log2_self
      have h3 : 2 ^ (Nat.log2 (num' / den) + 1) ≤ 2 ^ Nat.log2 (num / den) :=
        Nat.pow_le_pow_right (by norm_num) (by omega)
      omega
  apply min_le_min le_rfl
  rcases Nat.lt_or_eq_of_le (Nat.sub_le_sub_right hl 52) with hlt | heq
  · have h1 := significand_le (num := num) hd
    have h2 := significand_ge (num := num') hd (by omega)
    have h3 : (Nat.log2 (num / den) - 52 + 1) * expUnit ≤ (Nat.log2 (num' / den) - 52) * expUnit :=
      Nat.mul_le_mul_right _ hlt
    rw [Nat.add_mul] at h3
    omega
  · rw [heq]
    exact Nat.add_le_add_left (nearestEven_mono h) _

theorem magUnits_small {m : Nat} (h : m < expUnit) : magUnits m = m := by simp [magUnits, h]

theorem magUnits_large {m : Nat} (h : expUnit ≤ m) :
    magUnits m = (expUnit + m % expUnit) * 2 ^ (m / expUnit - 1) := by
  simp [magUnits, Nat.not_lt.mpr h, Nat.shiftLeft_eq]

/-- A binary64 number is its own rounding. -/
theorem roundMag_magUnits {m : Nat} (h : m ≤ infMag) : roundMag (magUnits m) 1 = m := by
  rw [roundMag_eq, Nat.div_one]
  by_cases hs : m < expUnit
  · rw [magUnits_small hs]
    have : Nat.log2 m - 52 = 0 := by
      by_cases h0 : m = 0
      · subst h0; rfl
      · have := (Nat.log2_lt h0 (k := 52)).mpr hs
        omega
    rw [this]
    simp [nearestEven_one, h]
  · have hs : expUnit ≤ m := Nat.not_lt.mp hs
    rw [magUnits_large hs]
    have he : 1 ≤ m / expUnit := (Nat.one_le_div_iff (by decide)).mpr hs
    have hf : m % expUnit < expUnit := Nat.mod_lt _ (by decide)
    have hlog : Nat.log2 ((expUnit + m % expUnit) * 2 ^ (m / expUnit - 1)) = 52 + (m / expUnit - 1) := by
      have hne : (expUnit + m % expUnit) * 2 ^ (m / expUnit - 1) ≠ 0 := by
        have : 0 < expUnit := by decide
        positivity
      apply Nat.le_antisymm
      · have : Nat.log2 ((expUnit + m % expUnit) * 2 ^ (m / expUnit - 1)) < 52 + (m / expUnit - 1) + 1 := by
          rw [Nat.log2_lt hne]
          rw [show 52 + (m / expUnit - 1) + 1 = 53 + (m / expUnit - 1) by omega, Nat.pow_add]
          exact Nat.mul_lt_mul_of_pos_right (by have : (2:Nat)^53 = 2 * expUnit := rfl; omega) (by positivity)
        omega
      · rw [Nat.le_log2 hne, Nat.pow_add]
        exact Nat.mul_le_mul_right _ (by have : (2:Nat)^52 = expUnit := rfl; omega)
    rw [hlog, Nat.add_sub_cancel_left, one_mul, nearestEven_mul _ _ (by positivity)]
    have := Nat.div_add_mod m expUnit
    have h3 : (m / expUnit - 1) * expUnit + expUnit = expUnit * (m / expUnit) := by
      conv_rhs => rw [show m / expUnit = (m / expUnit - 1) + 1 by omega]
      ring
    rw [min_eq_right] <;> omega

/-- `roundMag` of a multiple of the denominator that is a binary64 number. -/
theorem roundMag_exact {m den : Nat} (hd : 0 < den) (h : m ≤ infMag) : roundMag (magUnits m * den) den = m := by
  have := roundMag_scale (magUnits m) 1 den hd
  rw [one_mul] at this
  rw [this, roundMag_magUnits h]

/-- A value at most a binary64 number rounds to at most it. -/
theorem roundMag_le {num den m : Nat} (hd : 0 < den) (hm : m ≤ infMag) (h : num ≤ magUnits m * den) : roundMag num den ≤ m := by
  have := roundMag_mono hd h
  rwa [roundMag_exact hd hm] at this

/-- A value at least a binary64 number rounds to at least it. -/
theorem le_roundMag {num den m : Nat} (hd : 0 < den) (hm : m ≤ infMag) (h : magUnits m * den ≤ num) : m ≤ roundMag num den := by
  have := roundMag_mono hd h
  rwa [roundMag_exact hd hm] at this

/-- The value grows with the magnitude. -/
theorem magUnits_mono {m m' : Nat} (h : m ≤ m') (h' : m' ≤ infMag) : magUnits m ≤ magUnits m' := by
  by_contra hc
  have h1 := roundMag_mono (den := 1) (by norm_num) (Nat.le_of_lt (Nat.not_le.mp hc))
  rw [roundMag_magUnits h', roundMag_magUnits (h.trans h')] at h1
  have : m = m' := Nat.le_antisymm h h1
  subst this; exact hc le_rfl

/-- Different magnitudes have different values. -/
theorem magUnits_lt {m m' : Nat} (h : m < m') (h' : m' ≤ infMag) : magUnits m < magUnits m' := by
  rcases Nat.lt_or_eq_of_le (magUnits_mono h.le h') with h1 | h1
  · exact h1
  · have := roundMag_magUnits h'
    rw [← h1, roundMag_magUnits (h.le.trans h')] at this
    omega

theorem magUnits_le_iff {m m' : Nat} (h : m ≤ infMag) (h' : m' ≤ infMag) : magUnits m ≤ magUnits m' ↔ m ≤ m' := by
  constructor
  · intro hle
    by_contra hc
    have := magUnits_lt (Nat.not_le.mp hc) h
    omega
  · intro hle; exact magUnits_mono hle h'

@[simp] theorem magUnits_zero : magUnits 0 = 0 := rfl

/-! Packing and unpacking. -/

theorem magnitude_lt (x : Sample) : magnitude x < 0x8000000000000000 := Nat.mod_lt _ (by decide)

theorem toNat_pack {neg : Bool} {m : Nat} (h : m < 0x8000000000000000) :
    (pack neg m).toNat = if neg then 0x8000000000000000 + m else m := by
  cases neg <;> simp only [pack, BitVec.toNat_ofNat, if_true, if_false, Bool.false_eq_true]
  · exact Nat.mod_eq_of_lt (by omega)
  · exact Nat.mod_eq_of_lt (by omega)

@[simp] theorem negative_pack {neg : Bool} {m : Nat} (h : m < 0x8000000000000000) : negative (pack neg m) = neg := by
  unfold negative; rw [toNat_pack h]; cases neg <;> simp; omega

@[simp] theorem magnitude_pack {neg : Bool} {m : Nat} (h : m < 0x8000000000000000) : magnitude (pack neg m) = m := by
  unfold magnitude; rw [toNat_pack h]; cases neg <;> simp <;> omega

/-- A sample is its sign and its magnitude. -/
theorem pack_eta (x : Sample) : pack (negative x) (magnitude x) = x := by
  apply BitVec.eq_of_toNat_eq
  rw [toNat_pack (magnitude_lt x)]
  have := x.isLt
  unfold negative magnitude
  split <;> simp_all <;> omega

theorem roundMag_lt (num den : Nat) : roundMag num den < 0x8000000000000000 :=
  Nat.lt_of_le_of_lt (roundMag_le_inf num den) (by decide)

@[simp] theorem magnitude_round (neg : Bool) (num den : Nat) : magnitude (round neg num den) = roundMag num den :=
  magnitude_pack (roundMag_lt num den)

@[simp] theorem negative_round (neg : Bool) (num den : Nat) : negative (round neg num den) = neg :=
  negative_pack (roundMag_lt num den)

/-- A NaN result is a NaN. -/
@[simp] theorem isNaN_nan (op : NumOp) (x y : Sample) : isNaN (nan op x y) = true := by
  unfold nan
  dsimp only
  split
  · assumption
  · decide

theorem isFinite_iff (x : Sample) : isFinite x = true ↔ magnitude x < infMag := by simp [isFinite]

theorem not_isNaN_of_isFinite {x : Sample} (h : isFinite x = true) : isNaN x = false := by
  simp only [isFinite, decide_eq_true_eq] at h
  simp only [isNaN, decide_eq_false_iff_not]; omega

theorem not_isInf_of_isFinite {x : Sample} (h : isFinite x = true) : isInf x = false := by
  simp only [isFinite, decide_eq_true_eq] at h
  simp only [isInf, decide_eq_false_iff_not]; omega

/-- A rounding is never a NaN. -/
@[simp] theorem isNaN_round (neg : Bool) (num den : Nat) : isNaN (round neg num den) = false := by
  have := roundMag_le_inf num den
  simp only [isNaN, magnitude_round, decide_eq_false_iff_not]; omega

/-- The key is a strictly monotone image of the value. -/
theorem key_le_iff {x y : Sample} (hx : isFinite x = true) (hy : isFinite y = true) : key x ≤ key y ↔ value x ≤ value y := by
  rw [isFinite_iff] at hx hy
  have hxy := magUnits_le_iff (le_of_lt hx) (le_of_lt hy)
  have hyx := magUnits_le_iff (le_of_lt hy) (le_of_lt hx)
  have zx : magUnits (magnitude x) = 0 ↔ magnitude x = 0 := by
    have := magUnits_le_iff (m := magnitude x) (m' := 0) (le_of_lt hx) (by decide)
    simpa using this
  have zy : magUnits (magnitude y) = 0 ↔ magnitude y = 0 := by
    have := magUnits_le_iff (m := magnitude y) (m' := 0) (le_of_lt hy) (by decide)
    simpa using this
  unfold key value units
  split <;> split <;> omega

end Sys2Proof.Machine.Binary64
end

