-- ==== Sys2Proof/Laws/Loop.lean ====
section
/-! SUPPORT. The two sample loops: lengths, splitting a block, and an invariant carried through. -/

namespace Sys2Proof.Machine

variable {α β σ ε : Type}

@[simp] theorem loop_nil (f : σ → α → β × σ) (c : σ) : loop f c [] = ([], c) := rfl

@[simp] theorem loop_cons (f : σ → α → β × σ) (c : σ) (x : α) (xs : List α) :
    loop f c (x :: xs) = ((f c x).1 :: (loop f (f c x).2 xs).1, (loop f (f c x).2 xs).2) := rfl

@[simp] theorem length_loop (f : σ → α → β × σ) (xs : List α) : ∀ c, (loop f c xs).1.length = xs.length := by
  induction xs with
  | nil => intro c; rfl
  | cons x xs ih => intro c; simp [ih]

/-- A loop over two blocks is the loop over the first, then over the second. -/
theorem loop_append (f : σ → α → β × σ) (xs ys : List α) : ∀ c,
    loop f c (xs ++ ys) =
      ((loop f c xs).1 ++ (loop f (loop f c xs).2 ys).1, (loop f (loop f c xs).2 ys).2) := by
  induction xs with
  | nil => intro c; simp
  | cons x xs ih => intro c; simp [ih]

/-- What every iteration keeps, the loop keeps. -/
theorem loop_invariant (f : σ → α → β × σ) (P : σ → Prop) (h : ∀ c x, P c → P (f c x).2) (xs : List α) :
    ∀ c, P c → P (loop f c xs).2 := by
  induction xs with
  | nil => intro c hc; exact hc
  | cons x xs ih => intro c hc; exact ih _ (h c x hc)

@[simp] theorem loopE_nil (f : Nat → σ → α → Except ε (β × σ)) (n : Nat) (c : σ) : loopE f n c [] = .ok ([], c) := rfl

/-- A loop that ends ends through an iteration that ends. -/
theorem loopE_cons_ok (f : Nat → σ → α → Except ε (β × σ)) (n : Nat) (c : σ) (x : α) (xs : List α) (o : List β × σ)
    (h : loopE f n c (x :: xs) = .ok o) :
    ∃ r rest, f n c x = .ok r ∧ loopE f (n + 1) r.2 xs = .ok rest ∧ o = (r.1 :: rest.1, rest.2) := by
  simp only [loopE] at h
  split at h
  · cases h
  · rename_i r hr
    split at h
    · cases h
    · rename_i rest hrest
      refine ⟨r, rest, hr, hrest, ?_⟩
      cases h; rfl

theorem length_loopE (f : Nat → σ → α → Except ε (β × σ)) (xs : List α) : ∀ n c o,
    loopE f n c xs = .ok o → o.1.length = xs.length := by
  induction xs with
  | nil => intro n c o h; cases h; rfl
  | cons x xs ih =>
    intro n c o h
    obtain ⟨r, rest, -, h2, rfl⟩ := loopE_cons_ok f n c x xs o h
    simp [ih _ _ _ h2]

/-- What every iteration that ends keeps, a loop that ends keeps. -/
theorem loopE_invariant (f : Nat → σ → α → Except ε (β × σ)) (P : σ → Prop)
    (h : ∀ n c x r, P c → f n c x = .ok r → P r.2) (xs : List α) : ∀ n c o, P c → loopE f n c xs = .ok o → P o.2 := by
  induction xs with
  | nil => intro n c o hc ho; cases ho; exact hc
  | cons x xs ih =>
    intro n c o hc ho
    obtain ⟨r, rest, h1, h2, rfl⟩ := loopE_cons_ok f n c x xs o ho
    exact ih (n + 1) r.2 rest (h n c x r hc h1) h2

/-- A loop that faults, faults as one of its iterations does. -/
theorem loopE_error (f : Nat → σ → α → Except ε (β × σ)) (P : ε → Prop) (h : ∀ n c x e, f n c x = .error e → P e)
    (xs : List α) : ∀ n c e, loopE f n c xs = .error e → P e := by
  induction xs with
  | nil => intro n c e he; cases he
  | cons x xs ih =>
    intro n c e he
    simp only [loopE] at he
    split at he
    · rename_i e' h'
      cases he; exact h n c x _ h'
    · split at he
      · rename_i e' h'
        cases he; exact ih _ _ _ h'
      · cases he

end Sys2Proof.Machine
end

