-- ==== Sys2Proof/Laws/Memory.lean ====
section
/-! SUPPORT. What the memory operations do: a read after a write, the canonical form, which cells are listed. -/

namespace Sys2Proof.Machine

variable {α : Type}

@[simp] theorem Memory.find_nil (i : Nat) : Memory.find ([] : Memory α) i = none := rfl

theorem Memory.find_write (m : Memory α) (i j : Nat) (v : α) :
    (m.write i v).find j = if j = i then some v else m.find j := by
  induction m with
  | nil => simp [Memory.write, Memory.find]
  | cons c m ih =>
    obtain ⟨k, w⟩ := c
    simp only [Memory.write]
    split
    · simp [Memory.find]
    · split
      · subst_vars
        simp only [Memory.find]
        split <;> simp_all
      · simp only [Memory.find, ih]
        split
        · subst_vars
          split <;> simp_all
        · rfl

theorem Memory.read_write (unw : Nat → α) (m : Memory α) (i j : Nat) (v : α) :
    (m.write i v).read unw j = if j = i then v else m.read unw j := by
  simp only [Memory.read, Memory.find_write]
  split <;> rfl

@[simp] theorem Memory.read_write_same (unw : Nat → α) (m : Memory α) (i : Nat) (v : α) :
    (m.write i v).read unw i = v := by simp [Memory.read_write]

theorem Memory.read_write_ne (unw : Nat → α) (m : Memory α) {i j : Nat} (v : α) (h : j ≠ i) :
    (m.write i v).read unw j = m.read unw j := by simp [Memory.read_write, h]

theorem Memory.read_writeList (unw : Nat → α) (vs : List α) : ∀ (m : Memory α) (i j : Nat),
    (m.writeList i vs).read unw j = if h : i ≤ j ∧ j - i < vs.length then vs[j - i]'h.2 else m.read unw j := by
  induction vs with
  | nil => intro m i j; simp [Memory.writeList]
  | cons v vs ih =>
    intro m i j
    simp only [Memory.writeList, ih, Memory.read_write]
    by_cases hij : j = i
    · subst hij
      simp
    · by_cases h : i ≤ j ∧ j - i < (v :: vs).length
      · have h2 : i + 1 ≤ j ∧ j - (i + 1) < vs.length := by
          simp only [List.length_cons] at h; omega
        rw [dif_pos h2, dif_pos h]
        have h3 : j - i = (j - (i + 1)) + 1 := by omega
        simp [h3]
      · have h2 : ¬(i + 1 ≤ j ∧ j - (i + 1) < vs.length) := by
          simp only [List.length_cons] at h; omega
        rw [dif_neg h2, dif_neg h, if_neg hij]

@[simp] theorem Memory.length_readList (unw : Nat → α) (m : Memory α) (i n : Nat) :
    (m.readList unw i n).length = n := by
  induction n generalizing i with
  | zero => rfl
  | succ n ih => simp [Memory.readList, ih]

theorem Memory.getElem_readList (unw : Nat → α) (m : Memory α) (i n k : Nat) (h : k < (m.readList unw i n).length) :
    (m.readList unw i n)[k] = m.read unw (i + k) := by
  induction n generalizing i k with
  | zero => simp [Memory.readList] at h
  | succ n ih =>
    cases k with
    | zero => simp [Memory.readList]
    | succ k =>
      simp only [Memory.readList, List.getElem_cons_succ]
      rw [ih]
      congr 1; omega

theorem Memory.find_ofList (vs : List α) : ∀ i j : Nat,
    (Memory.ofList i vs).find j = if i ≤ j then vs[j - i]? else none := by
  induction vs with
  | nil => intro i j; simp [Memory.ofList]
  | cons v vs ih =>
    intro i j
    simp only [Memory.ofList, Memory.find, ih]
    by_cases h : j = i
    · subst h; simp
    · rw [if_neg h]
      by_cases h2 : i ≤ j
      · have h3 : j - i = (j - (i + 1)) + 1 := by omega
        simp [h2, show i + 1 ≤ j by omega, h3]
      · simp [h2, show ¬ i + 1 ≤ j by omega]

theorem Memory.read_ofList (unw : Nat → α) (vs : List α) (j : Nat) :
    (Memory.ofList 0 vs).read unw j = (vs[j]?).getD (unw j) := by
  simp [Memory.read, Memory.find_ofList]

theorem Memory.fst_ofList (vs : List α) : ∀ i : Nat,
    (Memory.ofList i vs).map Prod.fst = List.range' i vs.length := by
  induction vs with
  | nil => intro i; rfl
  | cons v vs ih => intro i; simp [Memory.ofList, ih, List.range'_succ]

theorem Memory.covers_ofList (vs : List α) : (Memory.ofList 0 vs).covers vs.length := by
  simp [Memory.covers, Memory.fst_ofList, List.range_eq_range']

/-- Indices of a memory that rises from `lo` are at least `lo`. -/
theorem Memory.le_of_risingFrom {k : Nat} : ∀ {m : Memory α} {lo : Nat}, Memory.risingFrom lo m = true →
    k ∈ m.map Prod.fst → lo ≤ k
  | [], _, _, hk => absurd hk (by simp)
  | (a, _) :: m, lo, h, hk => by
    have ⟨hlo, hrest⟩ : lo ≤ a ∧ Memory.risingFrom (a + 1) m = true := by simpa [Memory.risingFrom] using h
    obtain rfl | hk := List.mem_cons.1 hk
    · exact hlo
    · have := Memory.le_of_risingFrom hrest hk
      omega

/-- Writing a listed cell lists no other. -/
theorem Memory.fst_write_of_mem (m : Memory α) (i : Nat) (v : α) (lo : Nat) (hw : Memory.risingFrom lo m = true)
    (hi : i ∈ m.map Prod.fst) : (m.write i v).map Prod.fst = m.map Prod.fst := by
  induction m generalizing lo with
  | nil => cases hi
  | cons c m ih =>
    have ⟨_, hrest⟩ : lo ≤ c.1 ∧ Memory.risingFrom (c.1 + 1) m = true := by simpa [Memory.risingFrom] using hw
    unfold Memory.write
    obtain rfl | hi := List.mem_cons.1 hi
    · simp
    · have := Memory.le_of_risingFrom hrest hi
      rw [if_neg (by omega), if_neg (by omega), List.map_cons, List.map_cons, ih _ hrest hi]

theorem Memory.risingFrom_write (m : Memory α) (i : Nat) (v : α) : ∀ lo, lo ≤ i → Memory.risingFrom lo m = true →
    Memory.risingFrom lo (m.write i v) = true := by
  induction m with
  | nil => intro lo h _; simp [Memory.write, Memory.risingFrom, h]
  | cons c m ih =>
    obtain ⟨j, w⟩ := c
    intro lo h hw
    simp only [Memory.risingFrom, Bool.and_eq_true, decide_eq_true_eq] at hw
    simp only [Memory.write]
    split
    · rename_i hlt
      simp only [Memory.risingFrom, Bool.and_eq_true, decide_eq_true_eq]
      exact ⟨h, by omega, hw.2⟩
    · split
      · subst_vars
        simp only [Memory.risingFrom, Bool.and_eq_true, decide_eq_true_eq]
        exact ⟨h, hw.2⟩
      · simp only [Memory.risingFrom, Bool.and_eq_true, decide_eq_true_eq]
        exact ⟨hw.1, ih (j + 1) (by omega) hw.2⟩

/-- Every write keeps the canonical form. -/
theorem Memory.wf_write (m : Memory α) (i : Nat) (v : α) (h : m.wf = true) : (m.write i v).wf = true :=
  Memory.risingFrom_write m i v 0 (Nat.zero_le i) h

theorem Memory.wf_writeList (vs : List α) : ∀ (m : Memory α) (i : Nat), m.wf = true → (m.writeList i vs).wf = true := by
  induction vs with
  | nil => intro m i h; exact h
  | cons v vs ih => intro m i h; exact ih _ _ (Memory.wf_write m i v h)

theorem Memory.risingFrom_ofList (vs : List α) : ∀ i lo, lo ≤ i → Memory.risingFrom lo (Memory.ofList i vs) = true := by
  induction vs with
  | nil => intro i lo _; rfl
  | cons v vs ih =>
    intro i lo h
    simp only [Memory.ofList, Memory.risingFrom, Bool.and_eq_true, decide_eq_true_eq]
    exact ⟨h, ih _ _ (Nat.le_refl _)⟩

theorem Memory.wf_ofList (vs : List α) : (Memory.ofList 0 vs).wf = true :=
  Memory.risingFrom_ofList vs 0 0 (Nat.le_refl 0)

/-- A memory that covers a range is in canonical form. -/
theorem Memory.wf_of_covers (m : Memory α) (n : Nat) (h : m.covers n) : m.wf = true := by
  have aux : ∀ (m : Memory α) (i n : Nat), m.map Prod.fst = List.range' i n → Memory.risingFrom i m = true := by
    intro m
    induction m with
    | nil => intro i n _; rfl
    | cons c m ih =>
      obtain ⟨j, w⟩ := c
      intro i n h
      cases n with
      | zero => simp at h
      | succ n =>
        simp only [List.map_cons, List.range'_succ, List.cons.injEq] at h
        simp only [Memory.risingFrom, Bool.and_eq_true, decide_eq_true_eq]
        obtain ⟨rfl, h2⟩ := h
        exact ⟨Nat.le_refl _, ih _ _ h2⟩
  exact aux m 0 n (by rw [h, List.range_eq_range'])

/-- Writing a covered cell keeps the cover. -/
theorem Memory.covers_write (m : Memory α) (n i : Nat) (v : α) (h : m.covers n) (hi : i < n) : (m.write i v).covers n := by
  have hw := Memory.wf_of_covers m n h
  rw [Memory.covers, Memory.fst_write_of_mem m i v 0 hw (by rw [h]; simpa using hi)]
  exact h

/-- What holds of every listed cell and of the cell written holds of every cell listed afterwards. -/
theorem Memory.forall_write {p : Nat × α → Prop} {m : Memory α} {i : Nat} {v : α} (hm : ∀ c ∈ m, p c) (hv : p (i, v)) :
    ∀ c ∈ m.write i v, p c := by
  induction m with
  | nil => exact List.forall_mem_singleton.2 hv
  | cons d m ih =>
    have ⟨hd, hrest⟩ := List.forall_mem_cons.1 hm
    unfold Memory.write
    split_ifs
    exacts [List.forall_mem_cons.2 ⟨hv, hm⟩, List.forall_mem_cons.2 ⟨hv, hrest⟩, List.forall_mem_cons.2 ⟨hd, ih hrest⟩]

/-- A write inside the capacity keeps a memory within it. -/
theorem Memory.Ok.write {m : Memory α} {cap i : Nat} (h : m.Ok cap) (v : α) (hi : i < cap) : (m.write i v).Ok cap where
  rising := Memory.wf_write m i v h.rising
  inside := Memory.forall_write h.inside hi

theorem Memory.Ok.writeList {cap : Nat} (vs : List α) : ∀ {m : Memory α} {i : Nat}, m.Ok cap → i + vs.length ≤ cap →
    (m.writeList i vs).Ok cap := by
  induction vs with
  | nil => intro m i h _; exact h
  | cons v vs ih =>
    intro m i h hi
    simp only [List.length_cons] at hi
    exact ih (h.write v (by omega)) (by omega)

end Sys2Proof.Machine
end

