-- ==== Sys2Proof/Laws/State.lean ====
section
/-! SUPPORT. What each named update of the state does to each field: one lemma per field per update, true by `rfl`, so that
no later proof unfolds a record update. The conditional updates (`raise`, `commit`) have theirs in Laws/Commit.lean. -/

namespace Sys2Proof.Machine

variable {S W : Type}

@[simp] theorem complete_pending (s : AnyNum.State S W) : (complete s).pending = none := rfl
@[simp] theorem complete_fault (s : AnyNum.State S W) : (complete s).fault = s.fault := rfl
@[simp] theorem complete_errCode (s : AnyNum.State S W) : (complete s).errCode = s.errCode := rfl
@[simp] theorem complete_errOp (s : AnyNum.State S W) : (complete s).errOp = s.errOp := rfl
@[simp] theorem complete_ien (s : AnyNum.State S W) : (complete s).ien = s.ien := rfl
@[simp] theorem complete_ipend (s : AnyNum.State S W) : (complete s).ipend = s.ipend ||| 1#2 := rfl
@[simp] theorem complete_cmdcnt (s : AnyNum.State S W) : (complete s).cmdcnt = s.cmdcnt + 1#32 := rfl
@[simp] theorem complete_vibneg (s : AnyNum.State S W) : (complete s).vibneg = s.vibneg := rfl
@[simp] theorem complete_params (s : AnyNum.State S W) : (complete s).params = s.params := rfl
@[simp] theorem complete_blk (s : AnyNum.State S W) : (complete s).blk = s.blk := rfl
@[simp] theorem complete_irbuf (s : AnyNum.State S W) : (complete s).irbuf = s.irbuf := rfl
@[simp] theorem complete_dly (s : AnyNum.State S W) : (complete s).dly = s.dly := rfl
@[simp] theorem complete_rev (s : AnyNum.State S W) : (complete s).rev = s.rev := rfl
@[simp] theorem complete_ks (s : AnyNum.State S W) : (complete s).ks = s.ks := rfl
@[simp] theorem complete_vib (s : AnyNum.State S W) : (complete s).vib = s.vib := rfl
@[simp] theorem complete_caps (s : AnyNum.State S W) : (complete s).caps = s.caps := rfl
@[simp] theorem complete_epoch (s : AnyNum.State S W) : (complete s).epoch = s.epoch := rfl
@[simp] theorem complete_draws (s : AnyNum.State S W) : (complete s).draws = s.draws := rfl
@[simp] theorem complete_host (s : AnyNum.State S W) : (complete s).host = s.host := rfl

@[simp] theorem outputBlock_pending (out : List S) (s : AnyNum.State S W) : (outputBlock out s).pending = s.pending := rfl
@[simp] theorem outputBlock_fault (out : List S) (s : AnyNum.State S W) : (outputBlock out s).fault = s.fault := rfl
@[simp] theorem outputBlock_errCode (out : List S) (s : AnyNum.State S W) : (outputBlock out s).errCode = s.errCode := rfl
@[simp] theorem outputBlock_errOp (out : List S) (s : AnyNum.State S W) : (outputBlock out s).errOp = s.errOp := rfl
@[simp] theorem outputBlock_ien (out : List S) (s : AnyNum.State S W) : (outputBlock out s).ien = s.ien := rfl
@[simp] theorem outputBlock_ipend (out : List S) (s : AnyNum.State S W) : (outputBlock out s).ipend = s.ipend := rfl
@[simp] theorem outputBlock_cmdcnt (out : List S) (s : AnyNum.State S W) : (outputBlock out s).cmdcnt = s.cmdcnt := rfl
@[simp] theorem outputBlock_vibneg (out : List S) (s : AnyNum.State S W) : (outputBlock out s).vibneg = s.vibneg := rfl
@[simp] theorem outputBlock_params (out : List S) (s : AnyNum.State S W) : (outputBlock out s).params = s.params := rfl
@[simp] theorem outputBlock_blk (out : List S) (s : AnyNum.State S W) : (outputBlock out s).blk = s.blk.writeList 0 out := rfl
@[simp] theorem outputBlock_irbuf (out : List S) (s : AnyNum.State S W) : (outputBlock out s).irbuf = s.irbuf := rfl
@[simp] theorem outputBlock_dly (out : List S) (s : AnyNum.State S W) : (outputBlock out s).dly = s.dly := rfl
@[simp] theorem outputBlock_rev (out : List S) (s : AnyNum.State S W) : (outputBlock out s).rev = s.rev := rfl
@[simp] theorem outputBlock_ks (out : List S) (s : AnyNum.State S W) : (outputBlock out s).ks = s.ks := rfl
@[simp] theorem outputBlock_vib (out : List S) (s : AnyNum.State S W) : (outputBlock out s).vib = s.vib := rfl
@[simp] theorem outputBlock_caps (out : List S) (s : AnyNum.State S W) : (outputBlock out s).caps = s.caps := rfl
@[simp] theorem outputBlock_epoch (out : List S) (s : AnyNum.State S W) : (outputBlock out s).epoch = s.epoch := rfl
@[simp] theorem outputBlock_draws (out : List S) (s : AnyNum.State S W) : (outputBlock out s).draws = s.draws := rfl
@[simp] theorem outputBlock_host (out : List S) (s : AnyNum.State S W) : (outputBlock out s).host = s.host := rfl

@[simp] theorem resetBlock_pending (N : Num S W) (s : AnyNum.State S W) : (resetBlock N s).pending = none := rfl
@[simp] theorem resetBlock_fault (N : Num S W) (s : AnyNum.State S W) : (resetBlock N s).fault = false := rfl
@[simp] theorem resetBlock_errCode (N : Num S W) (s : AnyNum.State S W) : (resetBlock N s).errCode = .none := rfl
@[simp] theorem resetBlock_errOp (N : Num S W) (s : AnyNum.State S W) : (resetBlock N s).errOp = 0#8 := rfl
@[simp] theorem resetBlock_ien (N : Num S W) (s : AnyNum.State S W) : (resetBlock N s).ien = 0#2 := rfl
@[simp] theorem resetBlock_ipend (N : Num S W) (s : AnyNum.State S W) : (resetBlock N s).ipend = 0#2 := rfl
@[simp] theorem resetBlock_cmdcnt (N : Num S W) (s : AnyNum.State S W) : (resetBlock N s).cmdcnt = 0#32 := rfl
@[simp] theorem resetBlock_vibneg (N : Num S W) (s : AnyNum.State S W) : (resetBlock N s).vibneg = false := rfl
@[simp] theorem resetBlock_params (N : Num S W) (s : AnyNum.State S W) : (resetBlock N s).params = Params.reset (N.whole 0) := rfl
@[simp] theorem resetBlock_blk (N : Num S W) (s : AnyNum.State S W) : (resetBlock N s).blk = [] := rfl
@[simp] theorem resetBlock_irbuf (N : Num S W) (s : AnyNum.State S W) : (resetBlock N s).irbuf = [] := rfl
@[simp] theorem resetBlock_dly (N : Num S W) (s : AnyNum.State S W) : (resetBlock N s).dly = DlyUnit.destroyed := rfl
@[simp] theorem resetBlock_rev (N : Num S W) (s : AnyNum.State S W) : (resetBlock N s).rev = RevUnit.destroyed := rfl
@[simp] theorem resetBlock_ks (N : Num S W) (s : AnyNum.State S W) : (resetBlock N s).ks = KsUnit.destroyed := rfl
@[simp] theorem resetBlock_vib (N : Num S W) (s : AnyNum.State S W) : (resetBlock N s).vib = VibUnit.destroyed (N.whole 0) := rfl
@[simp] theorem resetBlock_caps (N : Num S W) (s : AnyNum.State S W) : (resetBlock N s).caps = s.caps := rfl
@[simp] theorem resetBlock_epoch (N : Num S W) (s : AnyNum.State S W) : (resetBlock N s).epoch = s.epoch + 1 := rfl
@[simp] theorem resetBlock_draws (N : Num S W) (s : AnyNum.State S W) : (resetBlock N s).draws = s.draws := rfl
@[simp] theorem resetBlock_host (N : Num S W) (s : AnyNum.State S W) : (resetBlock N s).host = s.host := rfl

@[simp] theorem destroyDly_pending (s : AnyNum.State S W) : (destroyDly s).pending = s.pending := rfl
@[simp] theorem destroyDly_fault (s : AnyNum.State S W) : (destroyDly s).fault = s.fault := rfl
@[simp] theorem destroyDly_errCode (s : AnyNum.State S W) : (destroyDly s).errCode = s.errCode := rfl
@[simp] theorem destroyDly_errOp (s : AnyNum.State S W) : (destroyDly s).errOp = s.errOp := rfl
@[simp] theorem destroyDly_ien (s : AnyNum.State S W) : (destroyDly s).ien = s.ien := rfl
@[simp] theorem destroyDly_ipend (s : AnyNum.State S W) : (destroyDly s).ipend = s.ipend := rfl
@[simp] theorem destroyDly_cmdcnt (s : AnyNum.State S W) : (destroyDly s).cmdcnt = s.cmdcnt := rfl
@[simp] theorem destroyDly_vibneg (s : AnyNum.State S W) : (destroyDly s).vibneg = s.vibneg := rfl
@[simp] theorem destroyDly_params (s : AnyNum.State S W) : (destroyDly s).params = s.params := rfl
@[simp] theorem destroyDly_blk (s : AnyNum.State S W) : (destroyDly s).blk = s.blk := rfl
@[simp] theorem destroyDly_irbuf (s : AnyNum.State S W) : (destroyDly s).irbuf = s.irbuf := rfl
@[simp] theorem destroyDly_dly (s : AnyNum.State S W) : (destroyDly s).dly = DlyUnit.destroyed := rfl
@[simp] theorem destroyDly_rev (s : AnyNum.State S W) : (destroyDly s).rev = s.rev := rfl
@[simp] theorem destroyDly_ks (s : AnyNum.State S W) : (destroyDly s).ks = s.ks := rfl
@[simp] theorem destroyDly_vib (s : AnyNum.State S W) : (destroyDly s).vib = s.vib := rfl
@[simp] theorem destroyDly_caps (s : AnyNum.State S W) : (destroyDly s).caps = s.caps := rfl
@[simp] theorem destroyDly_epoch (s : AnyNum.State S W) : (destroyDly s).epoch = s.epoch := rfl
@[simp] theorem destroyDly_draws (s : AnyNum.State S W) : (destroyDly s).draws = s.draws := rfl
@[simp] theorem destroyDly_host (s : AnyNum.State S W) : (destroyDly s).host = s.host := rfl

@[simp] theorem destroyRev_pending (s : AnyNum.State S W) : (destroyRev s).pending = s.pending := rfl
@[simp] theorem destroyRev_fault (s : AnyNum.State S W) : (destroyRev s).fault = s.fault := rfl
@[simp] theorem destroyRev_errCode (s : AnyNum.State S W) : (destroyRev s).errCode = s.errCode := rfl
@[simp] theorem destroyRev_errOp (s : AnyNum.State S W) : (destroyRev s).errOp = s.errOp := rfl
@[simp] theorem destroyRev_ien (s : AnyNum.State S W) : (destroyRev s).ien = s.ien := rfl
@[simp] theorem destroyRev_ipend (s : AnyNum.State S W) : (destroyRev s).ipend = s.ipend := rfl
@[simp] theorem destroyRev_cmdcnt (s : AnyNum.State S W) : (destroyRev s).cmdcnt = s.cmdcnt := rfl
@[simp] theorem destroyRev_vibneg (s : AnyNum.State S W) : (destroyRev s).vibneg = s.vibneg := rfl
@[simp] theorem destroyRev_params (s : AnyNum.State S W) : (destroyRev s).params = s.params := rfl
@[simp] theorem destroyRev_blk (s : AnyNum.State S W) : (destroyRev s).blk = s.blk := rfl
@[simp] theorem destroyRev_irbuf (s : AnyNum.State S W) : (destroyRev s).irbuf = s.irbuf := rfl
@[simp] theorem destroyRev_dly (s : AnyNum.State S W) : (destroyRev s).dly = s.dly := rfl
@[simp] theorem destroyRev_rev (s : AnyNum.State S W) : (destroyRev s).rev = RevUnit.destroyed := rfl
@[simp] theorem destroyRev_ks (s : AnyNum.State S W) : (destroyRev s).ks = s.ks := rfl
@[simp] theorem destroyRev_vib (s : AnyNum.State S W) : (destroyRev s).vib = s.vib := rfl
@[simp] theorem destroyRev_caps (s : AnyNum.State S W) : (destroyRev s).caps = s.caps := rfl
@[simp] theorem destroyRev_epoch (s : AnyNum.State S W) : (destroyRev s).epoch = s.epoch := rfl
@[simp] theorem destroyRev_draws (s : AnyNum.State S W) : (destroyRev s).draws = s.draws := rfl
@[simp] theorem destroyRev_host (s : AnyNum.State S W) : (destroyRev s).host = s.host := rfl

@[simp] theorem destroyKs_pending (s : AnyNum.State S W) : (destroyKs s).pending = s.pending := rfl
@[simp] theorem destroyKs_fault (s : AnyNum.State S W) : (destroyKs s).fault = s.fault := rfl
@[simp] theorem destroyKs_errCode (s : AnyNum.State S W) : (destroyKs s).errCode = s.errCode := rfl
@[simp] theorem destroyKs_errOp (s : AnyNum.State S W) : (destroyKs s).errOp = s.errOp := rfl
@[simp] theorem destroyKs_ien (s : AnyNum.State S W) : (destroyKs s).ien = s.ien := rfl
@[simp] theorem destroyKs_ipend (s : AnyNum.State S W) : (destroyKs s).ipend = s.ipend := rfl
@[simp] theorem destroyKs_cmdcnt (s : AnyNum.State S W) : (destroyKs s).cmdcnt = s.cmdcnt := rfl
@[simp] theorem destroyKs_vibneg (s : AnyNum.State S W) : (destroyKs s).vibneg = s.vibneg := rfl
@[simp] theorem destroyKs_params (s : AnyNum.State S W) : (destroyKs s).params = s.params := rfl
@[simp] theorem destroyKs_blk (s : AnyNum.State S W) : (destroyKs s).blk = s.blk := rfl
@[simp] theorem destroyKs_irbuf (s : AnyNum.State S W) : (destroyKs s).irbuf = s.irbuf := rfl
@[simp] theorem destroyKs_dly (s : AnyNum.State S W) : (destroyKs s).dly = s.dly := rfl
@[simp] theorem destroyKs_rev (s : AnyNum.State S W) : (destroyKs s).rev = s.rev := rfl
@[simp] theorem destroyKs_ks (s : AnyNum.State S W) : (destroyKs s).ks = KsUnit.destroyed := rfl
@[simp] theorem destroyKs_vib (s : AnyNum.State S W) : (destroyKs s).vib = s.vib := rfl
@[simp] theorem destroyKs_caps (s : AnyNum.State S W) : (destroyKs s).caps = s.caps := rfl
@[simp] theorem destroyKs_epoch (s : AnyNum.State S W) : (destroyKs s).epoch = s.epoch := rfl
@[simp] theorem destroyKs_draws (s : AnyNum.State S W) : (destroyKs s).draws = s.draws := rfl
@[simp] theorem destroyKs_host (s : AnyNum.State S W) : (destroyKs s).host = s.host := rfl

@[simp] theorem destroyVib_pending (N : Num S W) (s : AnyNum.State S W) : (destroyVib N s).pending = s.pending := rfl
@[simp] theorem destroyVib_fault (N : Num S W) (s : AnyNum.State S W) : (destroyVib N s).fault = s.fault := rfl
@[simp] theorem destroyVib_errCode (N : Num S W) (s : AnyNum.State S W) : (destroyVib N s).errCode = s.errCode := rfl
@[simp] theorem destroyVib_errOp (N : Num S W) (s : AnyNum.State S W) : (destroyVib N s).errOp = s.errOp := rfl
@[simp] theorem destroyVib_ien (N : Num S W) (s : AnyNum.State S W) : (destroyVib N s).ien = s.ien := rfl
@[simp] theorem destroyVib_ipend (N : Num S W) (s : AnyNum.State S W) : (destroyVib N s).ipend = s.ipend := rfl
@[simp] theorem destroyVib_cmdcnt (N : Num S W) (s : AnyNum.State S W) : (destroyVib N s).cmdcnt = s.cmdcnt := rfl
@[simp] theorem destroyVib_vibneg (N : Num S W) (s : AnyNum.State S W) : (destroyVib N s).vibneg = s.vibneg := rfl
@[simp] theorem destroyVib_params (N : Num S W) (s : AnyNum.State S W) : (destroyVib N s).params = s.params := rfl
@[simp] theorem destroyVib_blk (N : Num S W) (s : AnyNum.State S W) : (destroyVib N s).blk = s.blk := rfl
@[simp] theorem destroyVib_irbuf (N : Num S W) (s : AnyNum.State S W) : (destroyVib N s).irbuf = s.irbuf := rfl
@[simp] theorem destroyVib_dly (N : Num S W) (s : AnyNum.State S W) : (destroyVib N s).dly = s.dly := rfl
@[simp] theorem destroyVib_rev (N : Num S W) (s : AnyNum.State S W) : (destroyVib N s).rev = s.rev := rfl
@[simp] theorem destroyVib_ks (N : Num S W) (s : AnyNum.State S W) : (destroyVib N s).ks = s.ks := rfl
@[simp] theorem destroyVib_vib (N : Num S W) (s : AnyNum.State S W) : (destroyVib N s).vib = VibUnit.destroyed (N.whole 0) := rfl
@[simp] theorem destroyVib_caps (N : Num S W) (s : AnyNum.State S W) : (destroyVib N s).caps = s.caps := rfl
@[simp] theorem destroyVib_epoch (N : Num S W) (s : AnyNum.State S W) : (destroyVib N s).epoch = s.epoch := rfl
@[simp] theorem destroyVib_draws (N : Num S W) (s : AnyNum.State S W) : (destroyVib N s).draws = s.draws := rfl
@[simp] theorem destroyVib_host (N : Num S W) (s : AnyNum.State S W) : (destroyVib N s).host = s.host := rfl

@[simp] theorem returned_pending (d : W) (s : AnyNum.State S W) : (returned d s).pending = s.pending := rfl
@[simp] theorem returned_fault (d : W) (s : AnyNum.State S W) : (returned d s).fault = s.fault := rfl
@[simp] theorem returned_errCode (d : W) (s : AnyNum.State S W) : (returned d s).errCode = s.errCode := rfl
@[simp] theorem returned_errOp (d : W) (s : AnyNum.State S W) : (returned d s).errOp = s.errOp := rfl
@[simp] theorem returned_ien (d : W) (s : AnyNum.State S W) : (returned d s).ien = s.ien := rfl
@[simp] theorem returned_ipend (d : W) (s : AnyNum.State S W) : (returned d s).ipend = s.ipend := rfl
@[simp] theorem returned_cmdcnt (d : W) (s : AnyNum.State S W) : (returned d s).cmdcnt = s.cmdcnt := rfl
@[simp] theorem returned_vibneg (d : W) (s : AnyNum.State S W) : (returned d s).vibneg = s.vibneg := rfl
@[simp] theorem returned_params (d : W) (s : AnyNum.State S W) : (returned d s).params = s.params := rfl
@[simp] theorem returned_blk (d : W) (s : AnyNum.State S W) : (returned d s).blk = s.blk := rfl
@[simp] theorem returned_irbuf (d : W) (s : AnyNum.State S W) : (returned d s).irbuf = s.irbuf := rfl
@[simp] theorem returned_dly (d : W) (s : AnyNum.State S W) : (returned d s).dly = s.dly := rfl
@[simp] theorem returned_rev (d : W) (s : AnyNum.State S W) : (returned d s).rev = s.rev := rfl
@[simp] theorem returned_ks (d : W) (s : AnyNum.State S W) : (returned d s).ks = s.ks := rfl
@[simp] theorem returned_vib (d : W) (s : AnyNum.State S W) : (returned d s).vib = s.vib := rfl
@[simp] theorem returned_caps (d : W) (s : AnyNum.State S W) : (returned d s).caps = s.caps := rfl
@[simp] theorem returned_epoch (d : W) (s : AnyNum.State S W) : (returned d s).epoch = s.epoch := rfl
@[simp] theorem returned_draws (d : W) (s : AnyNum.State S W) : (returned d s).draws = s.draws := rfl
@[simp] theorem returned_host (d : W) (s : AnyNum.State S W) : (returned d s).host = { s.host with returned := s.host.returned ++ [d] } := rfl

@[simp] theorem withScript_pending (rest : List (BusOp W)) (s : AnyNum.State S W) : (withScript rest s).pending = s.pending := rfl
@[simp] theorem withScript_fault (rest : List (BusOp W)) (s : AnyNum.State S W) : (withScript rest s).fault = s.fault := rfl
@[simp] theorem withScript_errCode (rest : List (BusOp W)) (s : AnyNum.State S W) : (withScript rest s).errCode = s.errCode := rfl
@[simp] theorem withScript_errOp (rest : List (BusOp W)) (s : AnyNum.State S W) : (withScript rest s).errOp = s.errOp := rfl
@[simp] theorem withScript_ien (rest : List (BusOp W)) (s : AnyNum.State S W) : (withScript rest s).ien = s.ien := rfl
@[simp] theorem withScript_ipend (rest : List (BusOp W)) (s : AnyNum.State S W) : (withScript rest s).ipend = s.ipend := rfl
@[simp] theorem withScript_cmdcnt (rest : List (BusOp W)) (s : AnyNum.State S W) : (withScript rest s).cmdcnt = s.cmdcnt := rfl
@[simp] theorem withScript_vibneg (rest : List (BusOp W)) (s : AnyNum.State S W) : (withScript rest s).vibneg = s.vibneg := rfl
@[simp] theorem withScript_params (rest : List (BusOp W)) (s : AnyNum.State S W) : (withScript rest s).params = s.params := rfl
@[simp] theorem withScript_blk (rest : List (BusOp W)) (s : AnyNum.State S W) : (withScript rest s).blk = s.blk := rfl
@[simp] theorem withScript_irbuf (rest : List (BusOp W)) (s : AnyNum.State S W) : (withScript rest s).irbuf = s.irbuf := rfl
@[simp] theorem withScript_dly (rest : List (BusOp W)) (s : AnyNum.State S W) : (withScript rest s).dly = s.dly := rfl
@[simp] theorem withScript_rev (rest : List (BusOp W)) (s : AnyNum.State S W) : (withScript rest s).rev = s.rev := rfl
@[simp] theorem withScript_ks (rest : List (BusOp W)) (s : AnyNum.State S W) : (withScript rest s).ks = s.ks := rfl
@[simp] theorem withScript_vib (rest : List (BusOp W)) (s : AnyNum.State S W) : (withScript rest s).vib = s.vib := rfl
@[simp] theorem withScript_caps (rest : List (BusOp W)) (s : AnyNum.State S W) : (withScript rest s).caps = s.caps := rfl
@[simp] theorem withScript_epoch (rest : List (BusOp W)) (s : AnyNum.State S W) : (withScript rest s).epoch = s.epoch := rfl
@[simp] theorem withScript_draws (rest : List (BusOp W)) (s : AnyNum.State S W) : (withScript rest s).draws = s.draws := rfl
@[simp] theorem withScript_host (rest : List (BusOp W)) (s : AnyNum.State S W) : (withScript rest s).host = { s.host with script := rest } := rfl

/-! The fields of fault entry that do not depend on whether a fault is already set. -/

@[simp] theorem raise_pending (e : ErrCode) (op : Byte) (s : AnyNum.State S W) : (raise e op s).pending = none := by
  unfold raise; split <;> rfl
@[simp] theorem raise_ien (e : ErrCode) (op : Byte) (s : AnyNum.State S W) : (raise e op s).ien = s.ien := by
  unfold raise; split <;> rfl
@[simp] theorem raise_cmdcnt (e : ErrCode) (op : Byte) (s : AnyNum.State S W) : (raise e op s).cmdcnt = s.cmdcnt := by
  unfold raise; split <;> rfl
@[simp] theorem raise_vibneg (e : ErrCode) (op : Byte) (s : AnyNum.State S W) : (raise e op s).vibneg = s.vibneg := by
  unfold raise; split <;> rfl
@[simp] theorem raise_params (e : ErrCode) (op : Byte) (s : AnyNum.State S W) : (raise e op s).params = s.params := by
  unfold raise; split <;> rfl
@[simp] theorem raise_blk (e : ErrCode) (op : Byte) (s : AnyNum.State S W) : (raise e op s).blk = s.blk := by
  unfold raise; split <;> rfl
@[simp] theorem raise_irbuf (e : ErrCode) (op : Byte) (s : AnyNum.State S W) : (raise e op s).irbuf = s.irbuf := by
  unfold raise; split <;> rfl
@[simp] theorem raise_dly (e : ErrCode) (op : Byte) (s : AnyNum.State S W) : (raise e op s).dly = s.dly := by
  unfold raise; split <;> rfl
@[simp] theorem raise_rev (e : ErrCode) (op : Byte) (s : AnyNum.State S W) : (raise e op s).rev = s.rev := by
  unfold raise; split <;> rfl
@[simp] theorem raise_ks (e : ErrCode) (op : Byte) (s : AnyNum.State S W) : (raise e op s).ks = s.ks := by
  unfold raise; split <;> rfl
@[simp] theorem raise_vib (e : ErrCode) (op : Byte) (s : AnyNum.State S W) : (raise e op s).vib = s.vib := by
  unfold raise; split <;> rfl
@[simp] theorem raise_caps (e : ErrCode) (op : Byte) (s : AnyNum.State S W) : (raise e op s).caps = s.caps := by
  unfold raise; split <;> rfl
@[simp] theorem raise_epoch (e : ErrCode) (op : Byte) (s : AnyNum.State S W) : (raise e op s).epoch = s.epoch := by
  unfold raise; split <;> rfl
@[simp] theorem raise_draws (e : ErrCode) (op : Byte) (s : AnyNum.State S W) : (raise e op s).draws = s.draws := by
  unfold raise; split <;> rfl
@[simp] theorem raise_host (e : ErrCode) (op : Byte) (s : AnyNum.State S W) : (raise e op s).host = s.host := by
  unfold raise; split <;> rfl
@[simp] theorem raise_fault (e : ErrCode) (op : Byte) (s : AnyNum.State S W) : (raise e op s).fault = true := by
  unfold raise; split <;> simp_all

end Sys2Proof.Machine
end

