-- ==== Sys2Proof/Laws/Commit.lean ====
section
/-! SUPPORT. Everything performing a command can do, said once: `exec` always commits or faults (`exec_cases`), and each
command that succeeds has the one effect its inversion lemma names. -/

namespace Sys2Proof.Machine

variable {S W : Type} {N : Num S W}

theorem exec_eq_commit (i : Instr) (s : State) : exec i s = .next (commit i.opcode (performed ref64 i s) s) := by
  rw [exec_eq_execOver]; rfl

/-- A command that is performed either faults, and nothing of it is committed, or completes. -/
theorem exec_cases {i : Instr} {s t : State} (h : exec i s = .next t) :
    (∃ e, performed ref64 i s = .error e ∧ t = raise e i.opcode s) ∨ (∃ u, performed ref64 i s = .ok u ∧ t = complete u) := by
  rw [exec_eq_commit] at h
  cases h
  cases hp : performed ref64 i s with
  | error e => exact .inl ⟨e, rfl, rfl⟩
  | ok u => exact .inr ⟨u, rfl, rfl⟩

theorem exec_of_ok {i : Instr} {s u : State} (h : performed ref64 i s = .ok u) : exec i s = .next (complete u) := by
  rw [exec_eq_commit, h]; rfl

theorem exec_of_error {i : Instr} {s : State} {e : ErrCode} (h : performed ref64 i s = .error e) :
    exec i s = .next (raise e i.opcode s) := by
  rw [exec_eq_commit, h]; rfl

/-- Fault entry with no fault set (60_exceptions.md R283). -/
theorem raise_eq (e : ErrCode) (op : Byte) (s : State) (h : s.fault = false) :
    raise e op s =
      { s with pending := none, fault := true, errCode := e, errOp := op, ipend := s.ipend ||| 2#2 } := by
  simp [raise, h]

theorem blockSize_ok {s : AnyNum.State S W} {B : Nat} (h : blockSize s = .ok B) :
    B = s.params.bsize.toNat ∧ 1 ≤ B ∧ B ≤ s.caps.maxB := by
  unfold blockSize at h
  split at h
  · cases h
  · cases h; refine ⟨rfl, ?_, ?_⟩ <;> omega

theorem blockSize_error {s : AnyNum.State S W} {e : ErrCode} (h : blockSize s = .error e) :
    e = .bsize ∧ (s.params.bsize.toNat = 0 ∨ s.caps.maxB < s.params.bsize.toNat) := by
  unfold blockSize at h
  split at h
  · cases h; exact ⟨rfl, by assumption⟩
  · cases h

theorem blockSize_legal {s : AnyNum.State S W} (h1 : s.params.bsize.toNat ≠ 0) (h2 : s.params.bsize.toNat ≤ s.caps.maxB) :
    blockSize s = .ok s.params.bsize.toNat := by
  unfold blockSize; rw [if_neg]; omega

theorem blockSize_illegal {s : AnyNum.State S W} (h : s.params.bsize.toNat = 0 ∨ s.caps.maxB < s.params.bsize.toNat) :
    blockSize s = .error .bsize := by
  unfold blockSize; rw [if_pos h]

theorem dlyInit_ok {s u : AnyNum.State S W} (h : dlyInit N s = .ok u) :
    ∃ n, dlyLength N s.caps.maxDly s.params.dlyTime s.params.rate = .ok n ∧
      u = { s with dly := {
        valid := true, n := n, idx := 0, buf := Memory.ofList 0 (List.replicate n (N.whole 0)) } } := by
  unfold dlyInit at h
  split at h
  · cases h
  · cases h; exact ⟨_, by assumption, rfl⟩

theorem dlyApply_ok [Inhabited S] {s u : AnyNum.State S W} (h : dlyApply N s = .ok u) :
    ∃ B, blockSize s = .ok B ∧ s.dly.valid = true ∧
      u = outputBlock (dlyRun N s B).1 { s with dly := { s.dly with idx := (dlyRun N s B).2.idx, buf := (dlyRun N s B).2.buf } } := by
  unfold dlyApply at h
  split at h
  · cases h
  · split at h
    · cases h
    · cases h; exact ⟨_, by assumption, by simp_all, rfl⟩

theorem dstApply_ok [Inhabited S] {m : DstMode} {s u : AnyNum.State S W} (h : dstApply N m s = .ok u) :
    ∃ B, blockSize s = .ok B ∧
      u = outputBlock (dstBlock N m s.params.dstAmount s.params.dstMix (inputBlock s B)) s := by
  unfold dstApply at h
  split at h
  · cases h
  · cases h; exact ⟨_, by assumption, rfl⟩

theorem revInit_ok [Inhabited S] {s u : AnyNum.State S W} (h : revInit N s = .ok u) :
    ∃ B, blockSize s = .ok B ∧ 1 ≤ s.params.revIrlen.toNat ∧ s.params.revIrlen.toNat ≤ s.caps.maxIR ∧
      revUsable N (impulseResponse s s.params.revIrlen.toNat) = true ∧
      u = { s with rev := {
        valid := true
        p := s.params.revIrlen.toNat
        b := B
        l := s.params.revIrlen.toNat - 1 + B
        h := Memory.ofList 0 (List.ofFn (revSpectrum N (impulseResponse s s.params.revIrlen.toNat)
          (s.params.revIrlen.toNat - 1 + B)))
        hist := Memory.ofList 0 (List.replicate (s.params.revIrlen.toNat - 1 + B) (N.whole 0)) } } := by
  unfold revInit at h
  split at h
  · cases h
  · dsimp only at h
    split at h
    · cases h
    · split at h
      · cases h
      · cases h
        exact ⟨_, by assumption, by omega, by omega, by simp_all, rfl⟩

theorem revApply_ok [Inhabited S] {s u : AnyNum.State S W} (h : revApply N s = .ok u) :
    ∃ B, blockSize s = .ok B ∧ s.rev.valid = true ∧ s.rev.b = B ∧ s.rev.l + 1 = s.rev.p + B ∧
      u = outputBlock (revRun N s B).1 { s with rev := { s.rev with hist := Memory.ofList 0 (List.ofFn (revRun N s B).2) } } := by
  unfold revApply at h
  split at h
  · cases h
  · split at h
    · cases h
    · split at h
      · cases h
      · cases h
        exact ⟨_, by assumption, by simp_all, by omega, by omega, rfl⟩

theorem ksPluck_ok [Inhabited S] {s u : AnyNum.State S W} (h : ksPluck N s = .ok u) :
    1 ≤ s.params.ksLen.toNat ∧ s.params.ksLen.toNat ≤ s.caps.maxKs ∧
      u = { s with
        draws := s.draws + s.params.ksLen.toNat
        ks := {
          valid := true
          n := s.params.ksLen.toNat
          head := 0
          buf := Memory.ofList 0 (noiseDraws N s.draws s.params.ksLen.toNat) } } := by
  unfold ksPluck at h
  dsimp only at h
  split at h
  · cases h
  · cases h; exact ⟨by omega, by omega, rfl⟩

theorem ksGen_ok [Inhabited S] {s u : AnyNum.State S W} (h : ksGen N s = .ok u) :
    ∃ B, blockSize s = .ok B ∧ s.ks.valid = true ∧
      u = outputBlock (ksRun N s B).1 { s with ks := { s.ks with head := (ksRun N s B).2.head, buf := (ksRun N s B).2.buf } } := by
  unfold ksGen at h
  split at h
  · cases h
  · split at h
    · cases h
    · cases h; exact ⟨_, by assumption, by simp_all, rfl⟩

theorem vibInit_ok {s u : AnyNum.State S W} (h : vibInit N s = .ok u) :
    ∃ n, vibLength N s.caps.maxVib s.params.vibWidth s.params.rate = .ok n ∧
      u = { s with
        vibneg := false
        vib := {
          valid := true
          n := n
          r := N.whole 0
          w := n / 2
          i1 := 0
          buf := Memory.ofList 0 (List.replicate n (N.whole 0)) } } := by
  unfold vibInit at h
  split at h
  · cases h
  · cases h; exact ⟨_, by assumption, rfl⟩

theorem vibApply_ok [Inhabited S] {s u : AnyNum.State S W} (h : vibApply N s = .ok u) :
    ∃ B r, blockSize s = .ok B ∧ s.vib.valid = true ∧ vibRun N s B = .ok r ∧
      u = outputBlock r.1 { s with
        vibneg := r.2.neg
        vib := { s.vib with r := r.2.r, w := r.2.w, i1 := r.2.i1, buf := r.2.buf } } := by
  unfold vibApply at h
  split at h
  · cases h
  · split at h
    · cases h
    · split at h
      · cases h
      · cases h; exact ⟨_, _, by assumption, by simp_all, by assumption, rfl⟩

/-! The other direction: when each command ends well, and with what. -/

theorem dlyInit_of {s : AnyNum.State S W} {n : Nat}
    (h : dlyLength N s.caps.maxDly s.params.dlyTime s.params.rate = .ok n) :
    dlyInit N s = .ok { s with dly := {
      valid := true, n := n, idx := 0, buf := Memory.ofList 0 (List.replicate n (N.whole 0)) } } := by
  simp [dlyInit, h]

theorem dlyApply_of [Inhabited S] {s : AnyNum.State S W} {B : Nat} (h : blockSize s = .ok B) (hv : s.dly.valid = true) :
    dlyApply N s = .ok (outputBlock (dlyRun N s B).1
      { s with dly := { s.dly with idx := (dlyRun N s B).2.idx, buf := (dlyRun N s B).2.buf } }) := by
  simp [dlyApply, h, hv]

theorem dstApply_of [Inhabited S] {m : DstMode} {s : AnyNum.State S W} {B : Nat} (h : blockSize s = .ok B) :
    dstApply N m s = .ok (outputBlock (dstBlock N m s.params.dstAmount s.params.dstMix (inputBlock s B)) s) := by
  simp [dstApply, h]

theorem revInit_of [Inhabited S] {s : AnyNum.State S W} {B : Nat} (h : blockSize s = .ok B) (h1 : 1 ≤ s.params.revIrlen.toNat)
    (h2 : s.params.revIrlen.toNat ≤ s.caps.maxIR)
    (hu : revUsable N (impulseResponse s s.params.revIrlen.toNat) = true) :
    revInit N s = .ok { s with rev := {
      valid := true
      p := s.params.revIrlen.toNat
      b := B
      l := s.params.revIrlen.toNat - 1 + B
      h := Memory.ofList 0 (List.ofFn (revSpectrum N (impulseResponse s s.params.revIrlen.toNat)
        (s.params.revIrlen.toNat - 1 + B)))
      hist := Memory.ofList 0 (List.replicate (s.params.revIrlen.toNat - 1 + B) (N.whole 0)) } } := by
  unfold revInit
  rw [h]
  dsimp only
  rw [if_neg (by omega), if_neg (by simp [hu])]

theorem revApply_of [Inhabited S] {s : AnyNum.State S W} {B : Nat} (h : blockSize s = .ok B) (hv : s.rev.valid = true) (hb : s.rev.b = B)
    (hl : s.rev.l + 1 = s.rev.p + B) :
    revApply N s = .ok (outputBlock (revRun N s B).1
      { s with rev := { s.rev with hist := Memory.ofList 0 (List.ofFn (revRun N s B).2) } }) := by
  unfold revApply
  rw [h]
  dsimp only
  rw [if_neg (by simp [hv]), if_neg (by omega)]

theorem ksPluck_of [Inhabited S] {s : AnyNum.State S W} (h1 : 1 ≤ s.params.ksLen.toNat) (h2 : s.params.ksLen.toNat ≤ s.caps.maxKs) :
    ksPluck N s = .ok { s with
      draws := s.draws + s.params.ksLen.toNat
      ks := {
        valid := true
        n := s.params.ksLen.toNat
        head := 0
        buf := Memory.ofList 0 (noiseDraws N s.draws s.params.ksLen.toNat) } } := by
  unfold ksPluck
  dsimp only
  rw [if_neg (by omega)]

theorem ksGen_of [Inhabited S] {s : AnyNum.State S W} {B : Nat} (h : blockSize s = .ok B) (hv : s.ks.valid = true) :
    ksGen N s = .ok (outputBlock (ksRun N s B).1
      { s with ks := { s.ks with head := (ksRun N s B).2.head, buf := (ksRun N s B).2.buf } }) := by
  simp [ksGen, h, hv]

theorem vibInit_of {s : AnyNum.State S W} {n : Nat}
    (h : vibLength N s.caps.maxVib s.params.vibWidth s.params.rate = .ok n) :
    vibInit N s = .ok { s with
      vibneg := false
      vib := {
        valid := true
        n := n
        r := N.whole 0
        w := n / 2
        i1 := 0
        buf := Memory.ofList 0 (List.replicate n (N.whole 0)) } } := by
  simp [vibInit, h]

theorem vibApply_of [Inhabited S] {s : AnyNum.State S W} {B : Nat} {r : List S × VibLoop S} (h : blockSize s = .ok B)
    (hv : s.vib.valid = true) (hr : vibRun N s B = .ok r) :
    vibApply N s = .ok (outputBlock r.1 { s with
      vibneg := r.2.neg
      vib := { s.vib with r := r.2.r, w := r.2.w, i1 := r.2.i1, buf := r.2.buf } }) := by
  simp [vibApply, h, hv, hr]

/-- A pluck draws one value per cell (44_karplus_strong.md R230). -/
@[simp] theorem length_noiseDraws [Inhabited S] (n : Nat) : ∀ k, (noiseDraws N k n).length = n := by
  induction n with
  | zero => intro k; rfl
  | succ n ih => intro k; simp [noiseDraws, ih]

/-- A vibrato block faults in one way only (45_vibrato.md R256). -/
theorem vibRun_error [Inhabited S] {s : AnyNum.State S W} {B : Nat} {e : ErrCode} (h : vibRun N s B = .error e) : e = .vibIdx := by
  refine loopE_error _ (fun e => e = .vibIdx) ?_ _ _ _ _ h
  intro n c x e he
  unfold vibSample at he
  dsimp only at he
  split at he
  · cases he; rfl
  · cases he

@[simp] theorem length_dlyRun [Inhabited S] (s : AnyNum.State S W) (B : Nat) : (dlyRun N s B).1.length = B := by
  simp [dlyRun, dlyBlock, inputBlock]

@[simp] theorem length_ksRun [Inhabited S] (s : AnyNum.State S W) (B : Nat) : (ksRun N s B).1.length = B := by
  simp [ksRun, ksBlock]

theorem length_vibRun [Inhabited S] {s : AnyNum.State S W} {B : Nat} {r : List S × VibLoop S} (h : vibRun N s B = .ok r) :
    r.1.length = B := by
  have := length_loopE _ _ _ _ _ h
  simpa [inputBlock] using this

@[simp] theorem length_revOutput {S : Type} {L : Nat} (y : Fin L → S × S) (B : Nat) : (revOutput y B).length = L - (L - B) := by
  simp [revOutput]

theorem length_revRun [Inhabited S] (s : AnyNum.State S W) (B : Nat) (h : B ≤ s.rev.l) : (revRun N s B).1.length = B := by
  simp only [revRun, revBlock, length_revOutput]; omega

@[simp] theorem length_dstBlock (N : Num S W) (m : DstMode) (a mix : S) (x : List S) :
    (dstBlock N m a mix x).length = x.length := by simp [dstBlock]

@[simp] theorem length_inputBlock [Inhabited S] (s : AnyNum.State S W) (B : Nat) : (inputBlock s B).length = B := by simp [inputBlock]

/-- `x[k] = BLK[k]` (40_commands.md R145). -/
theorem getElem_inputBlock [Inhabited S] (s : AnyNum.State S W) (B k : Nat) (h : k < (inputBlock s B).length) : (inputBlock s B)[k] = s.blkAt k := by
  simp [inputBlock, Memory.getElem_readList, AnyNum.State.blkAt]

/-- Writing a block writes the cells from 0 on and no other (40_commands.md R145). -/
theorem blkAt_outputBlock [Inhabited S] (out : List S) (s : AnyNum.State S W) (k : Nat) :
    (outputBlock out s).blkAt k = if h : k < out.length then out[k] else s.blkAt k := by
  simp [AnyNum.State.blkAt, outputBlock, Memory.read_writeList]
  rfl

/-- A command that ends well writes only the block and the state of its own unit (10_state.md R30, R31, R51). -/
theorem performed_keeps [Inhabited S] {i : Instr} {s u : AnyNum.State S W} (h : performed N i s = .ok u) :
    u.pending = s.pending ∧ u.fault = s.fault ∧ u.errCode = s.errCode ∧ u.errOp = s.errOp ∧ u.ipend = s.ipend ∧
    u.cmdcnt = s.cmdcnt ∧ u.params = s.params ∧ u.ien = s.ien ∧ u.caps = s.caps ∧ u.epoch = s.epoch ∧ u.host = s.host ∧
    u.irbuf = s.irbuf ∧ (i ≠ .ksPluck → u.draws = s.draws) ∧ (i ≠ .vibInit → i ≠ .vibApply → u.vibneg = s.vibneg) ∧
    (i ≠ .dlyInit → i ≠ .dlyApply → u.dly = s.dly) ∧ (i ≠ .revInit → i ≠ .revApply → u.rev = s.rev) ∧
    (i ≠ .ksPluck → i ≠ .ksGen → u.ks = s.ks) ∧ (i ≠ .vibInit → i ≠ .vibApply → u.vib = s.vib) := by
  cases i <;> simp only [performed] at h
  · cases h; simp
  · obtain ⟨n, -, rfl⟩ := dlyInit_ok h; simp
  · obtain ⟨B, -, -, rfl⟩ := dlyApply_ok h; simp
  · obtain ⟨B, -, rfl⟩ := dstApply_ok h; simp
  · obtain ⟨B, -, -, -, -, rfl⟩ := revInit_ok h; simp
  · obtain ⟨B, -, -, -, -, rfl⟩ := revApply_ok h; simp
  · obtain ⟨-, -, rfl⟩ := ksPluck_ok h; simp
  · obtain ⟨B, -, -, rfl⟩ := ksGen_ok h; simp
  · obtain ⟨n, -, rfl⟩ := vibInit_ok h; simp
  · obtain ⟨B, r, -, -, -, rfl⟩ := vibApply_ok h; simp

/-- Fault entry writes the pending command and the fault fields only (60_exceptions.md R283). -/
theorem raise_keeps (e : ErrCode) (op : Byte) (s : AnyNum.State S W) :
    (raise e op s).params = s.params ∧ (raise e op s).ien = s.ien ∧ (raise e op s).caps = s.caps ∧
    (raise e op s).epoch = s.epoch ∧ (raise e op s).host = s.host ∧ (raise e op s).irbuf = s.irbuf ∧
    (raise e op s).draws = s.draws ∧ (raise e op s).vibneg = s.vibneg ∧ (raise e op s).dly = s.dly ∧
    (raise e op s).rev = s.rev ∧ (raise e op s).ks = s.ks ∧ (raise e op s).vib = s.vib ∧ (raise e op s).blk = s.blk ∧
    (raise e op s).cmdcnt = s.cmdcnt ∧ (raise e op s).pending = none := by
  unfold raise; split <;> simp

end Sys2Proof.Machine
end

