-- ==== Sys2Proof/Laws/Decode.lean ====
section
/-! SUPPORT. What a decoded word says of its fields, and that a word is its three fields. -/

namespace Sys2Proof

/-- 30_encoding.md R110: a word is `rsv ++ arg ++ op`. -/
theorem cmd_eq_fields (c : Cmd) : c = rsvField c ++ (argField c ++ opField c) := by
  apply BitVec.eq_of_getLsbD_eq
  intro i hi
  simp only [rsvField, argField, opField, BitVec.getLsbD_append, BitVec.getLsbD_extractLsb']
  by_cases h : i < 8
  · have : i < 16 := by omega
    simp [h, this]
  · by_cases h2 : i < 16
    · have h3 : i - 8 < 8 := by omega
      have h4 : 8 + (i - 8) = i := by omega
      simp [h, h2, h3, h4]
    · have h3 : i - 16 < 16 := by omega
      have h4 : 16 + (i - 16) = i := by omega
      simp [h2, h3, h4]

@[simp] theorem opField_encode (i : Instr) : opField (encode i) = i.opcode := by
  unfold opField encode
  rw [BitVec.extractLsb'_append_eq_of_add_le (by decide), BitVec.extractLsb'_append_eq_of_add_le (by decide)]
  simp

@[simp] theorem argField_encode (i : Instr) : argField (encode i) = i.argument := by
  unfold argField encode
  rw [BitVec.extractLsb'_append_eq_of_add_le (by decide), BitVec.extractLsb'_append_eq_of_le (by decide)]
  simp

@[simp] theorem rsvField_encode (i : Instr) : rsvField (encode i) = 0#16 := by
  unfold rsvField encode
  rw [BitVec.extractLsb'_append_eq_of_le (by decide)]
  simp

/-- 30_encoding.md R113: a mode number is the code of the mode it names. -/
@[simp] theorem code_decodeMode (m : Byte) : (decodeMode m).code = m := by
  unfold decodeMode
  repeat' split
  all_goals simp_all [DstMode.code]

theorem wellFormed_decodeMode : ∀ m : Byte, (decodeMode m).wellFormed = true := by decide +kernel

/-- A row without an operand is found by its opcode (30_encoding.md R112). -/
theorem decodePlain_some {op : Byte} {i : Instr} (h : decodePlain op = some i) :
    i.opcode = op ∧ i.argument = 0#8 ∧ i.wellFormed = true := by
  unfold decodePlain at h
  repeat' split at h
  all_goals cases h
  all_goals subst_vars; exact ⟨rfl, rfl, rfl⟩

/-- What a word that decodes looks like (30_encoding.md R112, R113). -/
theorem decode_ok {c : Cmd} {i : Instr} (h : decode c = .ok i) :
    rsvField c = 0#16 ∧ opField c = i.opcode ∧ argField c = i.argument ∧ i.wellFormed = true := by
  unfold decode at h
  split at h
  · cases h
  · rename_i hr
    split at h
    · rename_i ho
      cases h
      exact ⟨by simpa using hr, ho, by simp [Instr.argument], by simp [Instr.wellFormed, wellFormed_decodeMode]⟩
    · split at h
      · cases h
      · rename_i j hj
        split at h
        · rename_i ha
          cases h
          obtain ⟨h1, h2, h3⟩ := decodePlain_some hj
          exact ⟨by simpa using hr, h1.symm, by rw [ha, h2], h3⟩
        · cases h

end Sys2Proof
end

