-- ==== Sys2Proof/Laws/PerInstr.lean ====
section
/-! SUPPORT. What holds of every command as syntax, one lemma per command: the fields of its word (30_encoding.md R110). -/

namespace Sys2Proof.Laws.EncodedFields

/-- The word of a command has zeros in `rsv`, its argument in `arg` and its opcode in `op`, and is the only such word. -/
def Statement (i : Instr) : Prop :=
  (rsvField (encode i) = 0#16 ∧ argField (encode i) = i.argument ∧ opField (encode i) = i.opcode) ∧
  ∀ c : Cmd, rsvField c = 0#16 → argField c = i.argument → opField c = i.opcode → c = encode i

theorem every (i : Instr) : Statement i := by
  refine ⟨⟨rsvField_encode i, argField_encode i, opField_encode i⟩, ?_⟩
  intro c h1 h2 h3
  rw [cmd_eq_fields c, h1, h2, h3]
  rfl

theorem nop : Statement .nop := every .nop
theorem dlyInit : Statement .dlyInit := every .dlyInit
theorem dlyApply : Statement .dlyApply := every .dlyApply
theorem dstApply (mode : DstMode) : Statement (.dstApply mode) := every (.dstApply mode)
theorem revInit : Statement .revInit := every .revInit
theorem revApply : Statement .revApply := every .revApply
theorem ksPluck : Statement .ksPluck := every .ksPluck
theorem ksGen : Statement .ksGen := every .ksGen
theorem vibInit : Statement .vibInit := every .vibInit
theorem vibApply : Statement .vibApply := every .vibApply

end Sys2Proof.Laws.EncodedFields
end

