-- ==== Sys2Proof/Laws/Ref64.lean ====
section
/-! SUPPORT. The operations of `REF64` on finite samples, in whole numbers: comparison is comparison of values, integers
and the literals are exact, products and sums are monotone. -/

namespace Sys2Proof.Machine

@[simp] theorem ref64_add : ref64.add = Binary64.add := rfl
@[simp] theorem ref64_sub : ref64.sub = Binary64.sub := rfl
@[simp] theorem ref64_mul : ref64.mul = Binary64.mul := rfl
@[simp] theorem ref64_div : ref64.div = Binary64.div := rfl
@[simp] theorem ref64_neg : ref64.neg = Binary64.neg := rfl
@[simp] theorem ref64_abs : ref64.abs = Binary64.abs := rfl
@[simp] theorem ref64_lt : ref64.lt = Binary64.lt := rfl
@[simp] theorem ref64_le : ref64.le = Binary64.le := rfl
@[simp] theorem ref64_eq : ref64.eq = Binary64.eq := rfl
@[simp] theorem ref64_isfin : ref64.isfin = Binary64.isFinite := rfl
@[simp] theorem ref64_ofint : ref64.ofint = Binary64.ofint := rfl
@[simp] theorem ref64_ifloor : ref64.ifloor = Binary64.ifloor := rfl
@[simp] theorem ref64_iceil : ref64.iceil = Binary64.iceil := rfl
@[simp] theorem ref64_itrunc : ref64.itrunc = Binary64.itrunc := rfl
@[simp] theorem ref64_rint : ref64.rint = Binary64.rint := rfl
@[simp] theorem ref64_lit : ref64.lit = Binary64.lit := rfl

end Sys2Proof.Machine

namespace Sys2Proof.Machine.Binary64

/-- A whole literal is the integer. -/
theorem lit_one (z : Int) : lit z 1 = ofint z := by simp only [lit, ofint]

theorem shift_pow {e : Nat} (h : 52 ≤ e) (h' : e ≤ 1074) : ∃ k, 52 ≤ k ∧ k ≤ 1074 ∧ 1 <<< e = 2 ^ k :=
  ⟨e, h, h', Nat.one_shiftLeft e⟩

/-- 1 is a power of two units. -/
theorem one_pow : ∃ e, 52 ≤ e ∧ e ≤ 1074 ∧ one = 2 ^ e := shift_pow (by decide) le_rfl

theorem one_pos : 0 < one := by
  obtain ⟨e, -, -, h⟩ := one_pow
  rw [h]; exact Nat.two_pow_pos e

theorem le_iff {x y : Sample} (hx : isFinite x = true) (hy : isFinite y = true) :
    le x y = true ↔ value x ≤ value y := by
  simp [le, not_isNaN_of_isFinite hx, not_isNaN_of_isFinite hy, key_le_iff hx hy]

theorem lt_iff {x y : Sample} (hx : isFinite x = true) (hy : isFinite y = true) :
    lt x y = true ↔ value x < value y := by
  have := key_le_iff hy hx
  simp [lt, not_isNaN_of_isFinite hx, not_isNaN_of_isFinite hy]
  omega

theorem eq_iff {x y : Sample} (hx : isFinite x = true) (hy : isFinite y = true) :
    eq x y = true ↔ value x = value y := by
  have h1 := key_le_iff hy hx
  have h2 := key_le_iff hx hy
  simp [eq, not_isNaN_of_isFinite hx, not_isNaN_of_isFinite hy]
  omega

/-- A magnitude in terms of its significand (00_scope.md R7: the fraction, the exponent). -/
theorem magUnits_significand {shift sig : Nat} (h1 : expUnit ≤ sig) (h2 : sig < 2 * expUnit) :
    magUnits (shift * expUnit + sig) = sig * 2 ^ shift := by
  have e : 0 < expUnit := by decide
  have hd : (shift * expUnit + sig) / expUnit = shift + 1 := by
    rw [Nat.add_comm, Nat.add_mul_div_right _ _ e, Nat.add_comm]
    congr 1
    exact Nat.div_eq_of_lt_le (by omega) (by omega)
  have hm : (shift * expUnit + sig) % expUnit = sig - expUnit := by
    rw [Nat.add_comm, Nat.add_mul_mod_self_right, Nat.mod_eq_sub_mod h1, Nat.mod_eq_of_lt (by omega)]
  rw [magUnits_large (Nat.le_add_left_of_le h1), hd, hm, Nat.add_sub_cancel, Nat.add_sub_cancel' h1]

/-- A whole number with at most 53 significant bits is its own rounding, short of overflow. -/
theorem magUnits_roundMag {n k : Nat} (hk : n = k * 2 ^ (Nat.log2 n - 52)) (hf : roundMag n 1 < infMag) :
    magUnits (roundMag n 1) = n := by
  have hge := significand_ge (num := n) (den := 1) Nat.one_pos
  have hlt : Nat.log2 n - 52 = 0 ∨ 0 < Nat.log2 n - 52 := Nat.eq_zero_or_pos _
  have hlog : n < 2 ^ (Nat.log2 n + 1) := Nat.lt_log2_self
  have hne : nearestEven n (2 ^ (Nat.log2 n - 52)) = k := by
    have := nearestEven_mul k (2 ^ (Nat.log2 n - 52)) (Nat.two_pow_pos _)
    rwa [← hk] at this
  rw [roundMag_eq, Nat.div_one, Nat.one_mul, hne] at hf ⊢
  rw [Nat.div_one, Nat.one_mul, hne] at hge
  have hk2 : k < 2 * expUnit := by
    have h1 : 2 ^ (Nat.log2 n + 1) ≤ 2 * expUnit * 2 ^ (Nat.log2 n - 52) := by
      rw [show 2 * expUnit = 2 ^ 53 by rfl, ← Nat.pow_add]
      exact Nat.pow_le_pow_right (by norm_num) (by omega)
    by_contra hc
    have h2 : 2 * expUnit * 2 ^ (Nat.log2 n - 52) ≤ k * 2 ^ (Nat.log2 n - 52) := Nat.mul_le_mul_right _ (Nat.not_lt.mp hc)
    omega
  have hmin : min infMag ((Nat.log2 n - 52) * expUnit + k) = (Nat.log2 n - 52) * expUnit + k := by omega
  rw [hmin]
  rcases hlt with h0 | hpos
  · rw [h0] at hk ⊢
    rw [Nat.pow_zero, Nat.mul_one] at hk
    rw [Nat.zero_mul, Nat.zero_add]
    by_cases hs : k < expUnit
    · rw [magUnits_small hs, hk]
    · have := magUnits_significand (shift := 0) (Nat.not_lt.mp hs) hk2
      rw [Nat.zero_mul, Nat.zero_add, Nat.pow_zero, Nat.mul_one] at this
      rw [this, hk]
  · rw [magUnits_significand (hge hpos) hk2, ← hk]

/-- Far below the largest finite sample nothing overflows. -/
theorem roundMag_finite {num den : Nat} (hd : 0 < den) (h : Nat.log2 (num / den) ≤ 2000) : roundMag num den < infMag := by
  have h1 := significand_le (num := num) hd
  have h2 : (Nat.log2 (num / den) - 52) * expUnit ≤ 1948 * expUnit := Nat.mul_le_mul_right _ (by omega)
  have h3 : infMag = 2047 * expUnit := rfl
  have h4 : 0 < expUnit := by decide
  rw [roundMag_eq]
  omega

theorem log2_mul_pow {a : Nat} (ha : a ≠ 0) (e : Nat) : Nat.log2 (a * 2 ^ e) = Nat.log2 a + e := by
  have hp : 0 < 2 ^ e := Nat.two_pow_pos e
  have hne : a * 2 ^ e ≠ 0 := Nat.mul_ne_zero ha hp.ne'
  apply Nat.le_antisymm
  · have : Nat.log2 (a * 2 ^ e) < Nat.log2 a + e + 1 := by
      rw [Nat.log2_lt hne, show Nat.log2 a + e + 1 = (Nat.log2 a + 1) + e by omega, Nat.pow_add]
      exact Nat.mul_lt_mul_of_pos_right Nat.lt_log2_self hp
    omega
  · rw [Nat.le_log2 hne, Nat.pow_add]
    exact Nat.mul_le_mul_right _ (Nat.log2_self_le ha)

/-- A whole number of ones below 2^53 is represented. -/
theorem roundMag_whole {a : Nat} (h : a < 9007199254740992) :
    roundMag (a * one) 1 < infMag ∧ magUnits (roundMag (a * one) 1) = a * one := by
  rcases Nat.eq_zero_or_pos a with rfl | ha
  · rw [Nat.zero_mul, roundMag_zero]; exact ⟨by decide, rfl⟩
  · obtain ⟨e, he, he', h1⟩ := one_pow
    have hl : Nat.log2 a < 53 := (Nat.log2_lt ha.ne').mpr (lt_of_lt_of_eq h (by norm_num))
    have hlog : Nat.log2 (a * one) = Nat.log2 a + e := by rw [h1, log2_mul_pow ha.ne']
    have hf : roundMag (a * one) 1 < infMag := roundMag_finite Nat.one_pos (by rw [Nat.div_one, hlog]; omega)
    refine ⟨hf, magUnits_roundMag (k := a * 2 ^ (e - (Nat.log2 a + e - 52))) ?_ hf⟩
    have h2 : e - (Nat.log2 a + e - 52) + (Nat.log2 a + e - 52) = e := by omega
    rw [hlog, h1, Nat.mul_assoc, ← Nat.pow_add, h2]

theorem magnitude_ofint (z : Int) : magnitude (ofint z) = roundMag (z.natAbs * one) 1 := by simp [ofint]

theorem negative_ofint (z : Int) : negative (ofint z) = decide (z < 0) := by simp [ofint]

/-- Integers below 2^53 are exact (00_scope.md R7). -/
theorem isFinite_ofint {z : Int} (h : z.natAbs < 9007199254740992) : isFinite (ofint z) = true := by
  rw [isFinite_iff, magnitude_ofint]; exact (roundMag_whole h).1

theorem value_ofint {z : Int} (h : z.natAbs < 9007199254740992) : value (ofint z) = z * (one : Int) := by
  unfold value units
  rw [magnitude_ofint, negative_ofint, (roundMag_whole h).2]
  push_cast
  by_cases hz : z < 0
  · rw [if_pos (by simpa using hz), abs_of_neg hz]; ring
  · rw [if_neg (by simpa using hz), abs_of_nonneg (by omega)]

/-- A rounding of a finite result and its value. -/
theorem value_round (neg : Bool) (num den : Nat) :
    value (round neg num den) = if neg then -(magUnits (roundMag num den) : Int) else magUnits (roundMag num den) := by
  unfold value units; rw [magnitude_round, negative_round]

theorem isFinite_round (neg : Bool) (num den : Nat) : isFinite (round neg num den) = true ↔ roundMag num den < infMag := by
  rw [isFinite_iff, magnitude_round]

/-- The floor of a finite sample lies below it, by less than 1. -/
theorem ifloor_le {x : Sample} (h : isFinite x = true) : ifloor x * (one : Int) ≤ value x := by
  rw [ifloor, if_pos h]; exact Int.ediv_mul_le _ (by have := one_pos; omega)

theorem lt_ifloor_succ {x : Sample} (h : isFinite x = true) : value x < (ifloor x + 1) * (one : Int) := by
  rw [ifloor, if_pos h]; exact Int.lt_ediv_add_one_mul_self _ (by have := one_pos; omega)

theorem ifloor_ofint {z : Int} (h : z.natAbs < 9007199254740992) : ifloor (ofint z) = z := by
  rw [ifloor, if_pos (isFinite_ofint h), value_ofint h, Int.mul_ediv_cancel _ (by have := one_pos; omega)]

theorem iceil_ofint {z : Int} (h : z.natAbs < 9007199254740992) : iceil (ofint z) = z := by
  rw [iceil, if_pos (isFinite_ofint h), value_ofint h, ← Int.neg_mul, Int.mul_ediv_cancel _ (by have := one_pos; omega)]
  omega

theorem itrunc_ofint {z : Int} (h : z.natAbs < 9007199254740992) : itrunc (ofint z) = z := by
  have hu : units (ofint z) = z.natAbs * one := by rw [units, magnitude_ofint, (roundMag_whole h).2]
  rw [itrunc, if_pos (isFinite_ofint h), negative_ofint, hu, Nat.mul_div_cancel _ one_pos]
  by_cases hz : z < 0
  · rw [if_pos (by simpa using hz)]; omega
  · rw [if_neg (by simpa using hz)]; omega

/-- A sum of finite samples below an integer rounds to at most it, and the same from below. -/
theorem value_add_bounds {x y : Sample} (hx : isFinite x = true) (hy : isFinite y = true) {lo hi : Int}
    (hlo : lo.natAbs < 9007199254740992) (hhi : hi.natAbs < 9007199254740992) (h1 : lo * (one : Int) ≤ value x + value y)
    (h2 : value x + value y ≤ hi * (one : Int)) :
    isFinite (add x y) = true ∧ lo * (one : Int) ≤ value (add x y) ∧ value (add x y) ≤ hi * (one : Int) := by
  have nx := not_isNaN_of_isFinite hx
  have ny := not_isNaN_of_isFinite hy
  have ix := not_isInf_of_isFinite hx
  have iy := not_isInf_of_isFinite hy
  have o := one_pos
  unfold add addAs
  rw [nx, ny, ix, iy]
  simp only [Bool.or_self, Bool.false_eq_true, if_false]
  by_cases hv : value x + value y = 0
  · rw [if_pos hv]
    have hm : magnitude (pack (negative x && negative y) 0) = 0 := magnitude_pack (by decide)
    have hz : value (pack (negative x && negative y) 0) = 0 := by unfold value units; rw [hm]; simp
    rw [hz]
    exact ⟨by rw [isFinite_iff, hm]; decide, by omega, by omega⟩
  · rw [if_neg hv]
    have a := roundMag_whole hlo
    have b := roundMag_whole hhi
    rw [isFinite_round, value_round]
    by_cases hneg : value x + value y < 0
    · rw [if_pos (by simpa using hneg)]
      have hl0 : lo < 0 := by
        by_contra hc
        have := Int.mul_nonneg (Int.not_lt.mp hc) (show (0 : Int) ≤ one by omega)
        omega
      have h3 : roundMag (value x + value y).natAbs 1 ≤ roundMag (lo.natAbs * one) 1 := by
        apply roundMag_mono Nat.one_pos
        have : ((lo.natAbs * one : Nat) : Int) = -(lo * one) := by push_cast; rw [abs_of_neg hl0]; ring
        omega
      have h4 := magUnits_mono h3 a.1.le
      rw [a.2] at h4
      have h5 : ((lo.natAbs * one : Nat) : Int) = -(lo * one) := by push_cast; rw [abs_of_neg hl0]; ring
      refine ⟨by omega, by omega, ?_⟩
      by_cases hh : 0 ≤ hi
      · have := Int.mul_nonneg hh (show (0 : Int) ≤ one by omega)
        omega
      · have h6 : ((hi.natAbs * one : Nat) : Int) = -(hi * one) := by push_cast; rw [abs_of_neg (by omega)]; ring
        have h7 : roundMag (hi.natAbs * one) 1 ≤ roundMag (value x + value y).natAbs 1 :=
          roundMag_mono Nat.one_pos (by omega)
        have h8 := magUnits_mono h7 (roundMag_le_inf _ _)
        rw [b.2] at h8
        omega
    · rw [if_neg (by simpa using hneg)]
      have hh0 : 0 ≤ hi := by
        by_contra hc
        have := Int.mul_neg_of_neg_of_pos (Int.not_le.mp hc) (show (0 : Int) < one by omega)
        omega
      have h5 : ((hi.natAbs * one : Nat) : Int) = hi * one := by push_cast; rw [abs_of_nonneg hh0]
      have h3 : roundMag (value x + value y).natAbs 1 ≤ roundMag (hi.natAbs * one) 1 :=
        roundMag_mono Nat.one_pos (by omega)
      have h4 := magUnits_mono h3 b.1.le
      rw [b.2] at h4
      refine ⟨by omega, ?_, by omega⟩
      by_cases hl : lo < 0
      · have := Int.mul_neg_of_neg_of_pos hl (show (0 : Int) < one by omega)
        omega
      · have h6 : ((lo.natAbs * one : Nat) : Int) = lo * one := by push_cast; rw [abs_of_nonneg (by omega)]
        have h7 : roundMag (lo.natAbs * one) 1 ≤ roundMag (value x + value y).natAbs 1 :=
          roundMag_mono Nat.one_pos (by omega)
        have h8 := magUnits_mono h7 (roundMag_le_inf _ _)
        rw [a.2] at h8
        omega

/-- A product with a factor of at most 1 is at most the other factor. -/
theorem magnitude_mul_le {x y : Sample} (hx : isFinite x = true) (hy : isFinite y = true) (h : units y ≤ one) :
    magnitude (mul x y) ≤ magnitude x := by
  have nx := not_isNaN_of_isFinite hx
  have ny := not_isNaN_of_isFinite hy
  have ix := not_isInf_of_isFinite hx
  have iy := not_isInf_of_isFinite hy
  unfold mul
  rw [nx, ny, ix, iy]
  simp only [Bool.or_self, Bool.false_eq_true, if_false, magnitude_round]
  exact roundMag_le one_pos ((isFinite_iff x).mp hx).le (Nat.mul_le_mul_left _ h)

theorem isFinite_of_isZero {x : Sample} (h : isZero x = true) : isFinite x = true := by
  simp only [isZero, decide_eq_true_eq] at h
  rw [isFinite_iff, h]; decide

theorem value_of_isZero {x : Sample} (h : isZero x = true) : value x = 0 := by
  simp only [isZero, decide_eq_true_eq] at h
  simp [value, units, h]

theorem units_of_isZero {x : Sample} (h : isZero x = true) : units x = 0 := by
  simp only [isZero, decide_eq_true_eq] at h
  simp [units, h]

/-- A zero times a finite sample is a zero. -/
theorem isZero_mul_left {x y : Sample} (hx : isZero x = true) (hy : isFinite y = true) : isZero (mul x y) = true := by
  have fx := isFinite_of_isZero hx
  unfold mul
  rw [not_isNaN_of_isFinite fx, not_isNaN_of_isFinite hy, not_isInf_of_isFinite fx, not_isInf_of_isFinite hy,
    units_of_isZero hx]
  simp [isZero]

/-- A finite sample times a zero is a zero. -/
theorem isZero_mul_right {x y : Sample} (hx : isFinite x = true) (hy : isZero y = true) : isZero (mul x y) = true := by
  have fy := isFinite_of_isZero hy
  unfold mul
  rw [not_isNaN_of_isFinite fy, not_isNaN_of_isFinite hx, not_isInf_of_isFinite fy, not_isInf_of_isFinite hx,
    units_of_isZero hy]
  simp [isZero]

/-- A sum whose value is zero is a zero. -/
theorem isZero_add {x y : Sample} (hx : isFinite x = true) (hy : isFinite y = true) (h : value x + value y = 0) :
    isZero (add x y) = true := by
  unfold add addAs
  rw [not_isNaN_of_isFinite hx, not_isNaN_of_isFinite hy, not_isInf_of_isFinite hx, not_isInf_of_isFinite hy]
  simp only [Bool.or_self, Bool.false_eq_true, if_false, h, if_true]
  unfold isZero
  rw [magnitude_pack (by decide)]
  rfl

/-- `x - y` on finite samples is `x + (-y)`. -/
theorem sub_eq_add_flip {x y : Sample} (hx : isFinite x = true) (hy : isFinite y = true) : sub x y = add x (flip y) := by
  have m : magnitude (flip y) = magnitude y := magnitude_pack (magnitude_lt y)
  have n : isNaN (flip y) = isNaN y := by simp [isNaN, m]
  have f : isInf (flip y) = isInf y := by simp [isInf, m]
  unfold sub add addAs
  rw [n, f, not_isNaN_of_isFinite hx, not_isNaN_of_isFinite hy, not_isInf_of_isFinite hx, not_isInf_of_isFinite hy]
  simp

theorem value_flip (x : Sample) : value (flip x) = -value x := by
  have m : magnitude (flip x) = magnitude x := magnitude_pack (magnitude_lt x)
  have n : negative (flip x) = !negative x := negative_pack (magnitude_lt x)
  unfold value units
  rw [m, n]
  cases negative x <;> simp

theorem isFinite_flip (x : Sample) : isFinite (flip x) = isFinite x := by
  have m : magnitude (flip x) = magnitude x := magnitude_pack (magnitude_lt x)
  simp [isFinite, m]

theorem value_pack {neg : Bool} {m : Nat} (h : m < 0x8000000000000000) :
    value (pack neg m) = if neg then -(magUnits m : Int) else magUnits m := by
  unfold value units; rw [magnitude_pack h, negative_pack h]

/-- A sum whose exact value is the value of a finite sample is exact. -/
theorem value_add_exact {x y z : Sample} (hx : isFinite x = true) (hy : isFinite y = true) (hz : isFinite z = true)
    (h : value x + value y = value z) : isFinite (add x y) = true ∧ value (add x y) = value z := by
  unfold add addAs
  rw [not_isNaN_of_isFinite hx, not_isNaN_of_isFinite hy, not_isInf_of_isFinite hx, not_isInf_of_isFinite hy]
  simp only [Bool.or_self, Bool.false_eq_true, if_false]
  rw [h]
  have hm := (isFinite_iff z).mp hz
  by_cases h0 : value z = 0
  · rw [if_pos h0, h0]
    generalize (negative x && negative y) = b
    refine ⟨?_, ?_⟩
    · rw [isFinite_iff, magnitude_pack (by decide)]; decide
    · rw [value_pack (by decide)]; cases b <;> rfl
  · have hn : (value z).natAbs = magUnits (magnitude z) := by
      unfold value units; split <;> omega
    rw [if_neg h0, isFinite_round, value_round, hn, roundMag_magUnits hm.le]
    refine ⟨hm, ?_⟩
    unfold value units at h0 ⊢
    generalize magUnits (magnitude z) = u at *
    cases negative z
    · simp only [Bool.false_eq_true, if_false] at h0 ⊢
      rw [if_neg (by simp)]
    · simp only [if_true] at h0 ⊢
      rw [if_pos (by simp; omega)]

end Sys2Proof.Machine.Binary64

namespace Sys2Proof.Machine

/-- What must be a zero is one of the two. -/
theorem zeroOf_cases (x : Sample) : zeroOf x = 0x0000000000000000#64 ∨ zeroOf x = 0x8000000000000000#64 := by
  unfold zeroOf
  split
  · rename_i h
    have hm : Binary64.magnitude x = 0 := by simpa [Binary64.isZero] using h
    have hx := Binary64.pack_eta x
    rw [hm] at hx
    rw [← hx]
    cases Binary64.negative x
    · exact .inl (by decide)
    · exact .inr (by decide)
  · exact .inl (by decide +kernel)

/-- Law N5 of 00_scope.md R9: at a zero, a zero of either sign. -/
theorem lawfulUnit_of_zero (f : Sample → Sample) {x : Sample} (h : Binary64.isZero x = true) :
    lawfulUnit f x = 0x0000000000000000#64 ∨ lawfulUnit f x = 0x8000000000000000#64 := by
  rw [lawfulUnit, if_pos (Binary64.isFinite_of_isZero h), if_pos h]
  exact zeroOf_cases _

theorem sin_of_zero {x : Sample} (h : Binary64.isZero x = true) :
    ref64.sin x = 0x0000000000000000#64 ∨ ref64.sin x = 0x8000000000000000#64 := lawfulUnit_of_zero _ h

theorem tanh_of_zero {x : Sample} (h : Binary64.isZero x = true) :
    ref64.tanh x = 0x0000000000000000#64 ∨ ref64.tanh x = 0x8000000000000000#64 := lawfulUnit_of_zero _ h

end Sys2Proof.Machine
end

