-- ==== Sys2Proof/Laws/Rounding.lean ====
section
/-! SUPPORT. What one rounding can do (00_scope.md R7): the result is nearest, ties to even, and finite exactly below the
overflow threshold; which numbers of units are represented. -/

namespace Sys2Proof.Machine.Binary64

/-- The nearest whole number is nearest, and of two that are equally near the even one. -/
theorem nearestEven_nearest (n d : Nat) (hd : 0 < d) (k : Int) : |(nearestEven n d : Int) * d - n| ≤ |k * d - n| ∧
    (|(nearestEven n d : Int) * d - n| = |k * d - n| → k ≠ nearestEven n d → nearestEven n d % 2 = 0) := by
  have e := Nat.div_add_mod n d
  have hr := Nat.mod_lt n hd
  have hne : nearestEven n d =
      if 2 * (n % d) < d then n / d else if d < 2 * (n % d) then n / d + 1 else n / d + n / d % 2 := rfl
  generalize n / d = q at *
  generalize n % d = r at *
  have en : (n : Int) = d * q + r := by exact_mod_cast e.symm
  have hdi : (0 : Int) < d := by exact_mod_cast hd
  have hk : k ≤ q - 1 ∨ k = q ∨ k = q + 1 ∨ q + 2 ≤ k := by omega
  have lin : ∀ a : Int, a * d - n = (a - q) * d - r := fun a => by rw [en]; ring
  have below : k ≤ q - 1 → (k - q) * (d : Int) ≤ -d := fun h => by nlinarith
  have above : (q : Int) + 2 ≤ k → 2 * (d : Int) ≤ (k - q) * d := fun h => by nlinarith
  have c0 : ((q : Int) - q) * d = 0 := by ring
  have c1 : ((q : Int) + 1 - q) * d = d := by ring
  have hp : q % 2 = 0 ∨ q % 2 = 1 := by omega
  rw [lin, lin, Int.abs_eq_natAbs, Int.abs_eq_natAbs, hne]
  split_ifs
  · rw [c0]
    rcases hk with h | rfl | rfl | h
    · have := below h; omega
    · omega
    · omega
    · have := above h; omega
  · simp only [Nat.cast_add, Nat.cast_one, c1]
    rcases hk with h | rfl | rfl | h
    · have := below h; omega
    · omega
    · omega
    · have := above h; omega
  · have h2 : 2 * r = d := by omega
    rcases hp with hp | hp <;> simp only [hp, Nat.add_zero, Nat.cast_add, Nat.cast_one, c0, c1, implies_true, and_true] <;>
      rcases hk with h | rfl | rfl | h <;>
      first | (have := below h; omega) | (have := above h; omega) | omega

/-- The nearest whole number is at most a half away, and exactly a half only if it is even. -/
theorem nearestEven_error (n d : Nat) (hd : 0 < d) :
    2 * |(n : Int) - nearestEven n d * d| ≤ d ∧ (2 * |(n : Int) - nearestEven n d * d| = d → nearestEven n d % 2 = 0) := by
  have e := Nat.div_add_mod n d
  have hr := Nat.mod_lt n hd
  have hne : nearestEven n d =
      if 2 * (n % d) < d then n / d else if d < 2 * (n % d) then n / d + 1 else n / d + n / d % 2 := rfl
  generalize n / d = q at *
  generalize n % d = r at *
  have en : (n : Int) = q * d + r := by rw [← e]; push_cast; ring
  have down : (n : Int) - q * d = r := by rw [en]; ring
  have up : (n : Int) - (q + 1) * d = r - d := by rw [en]; ring
  rw [hne]
  split_ifs
  · rw [down, abs_of_nonneg (by omega)]
    constructor <;> omega
  · rw [Nat.cast_add, Nat.cast_one, up, abs_of_neg (by omega)]
    constructor <;> omega
  · rcases Nat.mod_two_eq_zero_or_one q with h | h
    · rw [h, Nat.add_zero, down, abs_of_nonneg (by omega)]
      constructor <;> omega
    · rw [h, Nat.cast_add, Nat.cast_one, up, abs_of_neg (by omega)]
      constructor <;> omega

/-- A magnitude in terms of its significand, at the end of its binade too. -/
theorem magUnits_binade (shift sig : Nat) (h1 : expUnit ≤ sig ∨ shift = 0) (h2 : sig ≤ 2 * expUnit) :
    magUnits (shift * expUnit + sig) = sig * 2 ^ shift := by
  rcases Nat.lt_or_eq_of_le h2 with h | h
  · rcases h1 with h1 | h1
    · exact magUnits_significand h1 h
    · subst h1
      by_cases hs : sig < expUnit
      · rw [Nat.zero_mul, Nat.zero_add, magUnits_small hs]; simp
      · exact magUnits_significand (Nat.not_lt.mp hs) h
  · have := magUnits_significand (shift := shift + 1) (sig := expUnit) le_rfl (by decide)
    rw [h, show shift * expUnit + 2 * expUnit = (shift + 1) * expUnit + expUnit by ring, this]
    ring

/-- Above 2^(52+s) units every represented number is a multiple of 2^s units. -/
theorem magUnits_grid (m s : Nat) (h : 2 ^ (52 + s) ≤ magUnits m) : ∃ k, magUnits m = k * 2 ^ s := by
  by_cases hs : m < expUnit
  · rw [magUnits_small hs] at h ⊢
    rcases Nat.eq_zero_or_pos s with rfl | h0
    · exact ⟨m, by simp⟩
    · exfalso
      have : expUnit = 2 ^ 52 := rfl
      have : 2^52 ≤ 2 ^ (52+s) := Nat.pow_le_pow_right (by norm_num) (by omega)
      omega
  · rw [magUnits_large (Nat.not_lt.mp hs)] at h ⊢
    have hf : m % expUnit < expUnit := Nat.mod_lt _ (by decide)
    have : s ≤ m / expUnit - 1 := by
      by_contra hc
      have h1 : (expUnit + m % expUnit) * 2 ^ (m / expUnit - 1) < 2 ^ 53 * 2 ^ (m / expUnit - 1) :=
        Nat.mul_lt_mul_of_pos_right (by have : (2:Nat)^53 = 2 * expUnit := rfl; omega) (by positivity)
      have h2 : 2 ^ 53 * 2 ^ (m / expUnit - 1) ≤ 2 ^ (52 + s) := by
        rw [← Nat.pow_add]; exact Nat.pow_le_pow_right (by norm_num) (by omega)
      omega
    refine ⟨(expUnit + m % expUnit) * 2 ^ (m / expUnit - 1 - s), ?_⟩
    rw [Nat.mul_assoc, ← Nat.pow_add]; congr 2; omega

/-- A rounding is finite exactly below the overflow threshold, 2^54 - 1 times 2^2044 units. -/
theorem roundMag_finite_iff {num den : Nat} (hd : 0 < den) :
    roundMag num den < infMag ↔ num < (0x3FFFFFFFFFFFFF <<< 2044) * den := by
  have hT1 : roundMag (0x3FFFFFFFFFFFFF <<< 2044) 1 = infMag := by decide +kernel
  obtain ⟨e, he⟩ : ∃ e, e = 2044 := ⟨_, rfl⟩
  rw [← he] at hT1 ⊢
  obtain ⟨P, hT, h1, h2⟩ : ∃ P : Nat, (∀ a : Nat, a <<< e = a * P) ∧ 2 ^ (e + 1) = 2 * P ∧ 2 ^ (e + 54) = 2 ^ 54 * P :=
    ⟨2 ^ e, fun a => Nat.shiftLeft_eq a e, by rw [Nat.pow_succ, Nat.mul_comm], by rw [Nat.add_comm, Nat.pow_add]⟩
  rw [hT] at hT1 ⊢
  constructor
  · intro h
    by_contra hc
    have := roundMag_mono hd (Nat.not_lt.mp hc)
    have h2 := roundMag_scale (0x3FFFFFFFFFFFFF*P) 1 den hd
    rw [Nat.one_mul] at h2
    rw [h2, hT1] at this; omega
  · intro h
    by_contra hc
    have hle := significand_le (num := num) hd
    obtain ⟨s, hs⟩ : ∃ s, s = Nat.log2 (num / den) - 52 := ⟨_, rfl⟩
    have near := (nearestEven_nearest num (den * 2 ^ s) (by positivity) ((2^53-1 : Nat) : Int)).1
    rw [roundMag_eq, ← hs] at hc
    rw [← hs] at hle
    have hi : infMag = 2047 * expUnit := rfl
    have hx52 : expUnit = 4503599627370496 := rfl
    obtain ⟨q, hq⟩ : ∃ q, q = nearestEven num (den * 2 ^ s) := ⟨_, rfl⟩
    rw [← hq] at hc hle near
    have hs1 : e + 1 ≤ s := by
      by_contra hh
      clear h1 h2 hT hT1 near h
      have : s * expUnit ≤ 2044 * expUnit := Nat.mul_le_mul_right _ (by omega)
      omega
    have hx : num / den ≠ 0 := by clear h1 h2 hT hT1 near h; intro h; rw [h] at hs; simp at hs; omega
    have hlog : e + 54 ≤ Nat.log2 (num/den) ∨ e + 1 = s := by clear h1 h2 hT hT1 near h; omega
    have hl : 2 ^ Nat.log2 (num / den) ≤ num / den := Nat.log2_self_le hx
    rcases hlog with h3 | h3
    · have h4 : 2 ^ (e + 54) * den ≤ num := by
        calc 2 ^ (e + 54) * den ≤ 2 ^ Nat.log2 (num / den) * den := Nat.mul_le_mul_right _ (Nat.pow_le_pow_right (by norm_num) h3)
          _ ≤ num / den * den := Nat.mul_le_mul_right _ hl
          _ ≤ num := Nat.div_mul_le_self _ _
      rw [h2] at h4
      have : 0x3FFFFFFFFFFFFF * P * den ≤ 2^54 * P * den := Nat.mul_le_mul_right _ (Nat.mul_le_mul_right _ (by norm_num))
      exact absurd (Nat.lt_of_lt_of_le h (this.trans h4)) (Nat.lt_irrefl _)
    · rw [← h3, h1] at near
      have hq2 : q = 2^53 := by
        rw [← h3, hi, he] at hc
        clear h1 h2 hT hT1 near h
        omega
      rw [hq2] at near
      have e5 : 0x3FFFFFFFFFFFFF * P * den = 0x3FFFFFFFFFFFFF * (P*den) := by ring
      have e6 : ((den * (2 * P) : Nat) : Int) = 2 * ((P * den : Nat):Int) := by push_cast; ring
      rw [e6] at near
      rw [e5] at h
      generalize P * den = A at *
      simp only [Int.abs_eq_natAbs] at near
      clear h1 h2 hT hT1
      omega

/-- A finite rounding is the represented number nearest the exact result, of two that are equally near the even one. -/
theorem roundMag_nearest (num den : Nat) (hd : 0 < den) (hf : roundMag num den < infMag) (mz : Nat) :
    |(magUnits (roundMag num den) : Int) * den - num| ≤ |(magUnits mz : Int) * den - num| ∧
    (|(magUnits (roundMag num den) : Int) * den - num| = |(magUnits mz : Int) * den - num| →
      magUnits mz ≠ magUnits (roundMag num den) → roundMag num den % 2 = 0) := by
  obtain ⟨s, hs⟩ : ∃ s, s = Nat.log2 (num / den) - 52 := ⟨_, rfl⟩
  obtain ⟨q, hq⟩ : ∃ q, q = nearestEven num (den * 2 ^ s) := ⟨_, rfl⟩
  have hge := significand_ge (num := num) hd
  have hle := significand_le (num := num) hd
  have hm : roundMag num den = s * expUnit + q := by
    rw [roundMag_eq, ← hs, ← hq] at hf ⊢; omega
  rw [← hs, ← hq] at hge hle
  have hu : magUnits (roundMag num den) = q * 2 ^ s := by
    rw [hm]; exact magUnits_binade s q (by rcases Nat.eq_zero_or_pos s with h | h; exact .inr h; exact .inl (hge h)) hle
  have near := nearestEven_nearest num (den * 2 ^ s) (by positivity)
  rw [← hq] at near
  have hpar : roundMag num den % 2 = q % 2 := by
    rw [hm, show expUnit = 2 * (2^51) by rfl, ← Nat.mul_assoc, Nat.mul_comm s 2, Nat.mul_assoc, Nat.mul_add_mod]
  have e1 : (magUnits (roundMag num den) : Int) * den = (q:Int) * ((den * 2 ^ s : Nat) : Int) := by
    rw [hu]; push_cast; ring
  rw [e1, hpar, hu]
  by_cases hb : 2 ^ (52 + s) ≤ magUnits mz ∨ s = 0
  · obtain ⟨k, hk⟩ : ∃ k, magUnits mz = k * 2 ^ s := by
      rcases hb with hb | hb
      · exact magUnits_grid mz s hb
      · subst hb; exact ⟨magUnits mz, by simp⟩
    have e2 : (magUnits mz : Int) * den = (k:Int) * ((den * 2 ^ s : Nat) : Int) := by rw [hk]; push_cast; ring
    rw [e2]
    refine ⟨(near k).1, fun h1 h2 => (near k).2 h1 ?_⟩
    rintro h; apply h2; rw [hk]; congr 1; exact_mod_cast h
  · push Not at hb
    obtain ⟨hb1, hb2⟩ := hb
    have h52 := near (2^52 : Nat)
    have hx : num / den ≠ 0 := by intro h; rw [h] at hs; simp at hs; omega
    have h1 : 2 ^ Nat.log2 (num / den) ≤ num / den := Nat.log2_self_le hx
    have h2 : 2 ^ (52 + s) * den ≤ num := by
      calc 2 ^ (52+s) * den = 2 ^ Nat.log2 (num / den) * den := by congr 2; omega
        _ ≤ num / den * den := Nat.mul_le_mul_right _ h1
        _ ≤ num := Nat.div_mul_le_self _ _
    have h3 : magUnits mz * den < 2 ^ (52 + s) * den := Nat.mul_lt_mul_of_pos_right hb1 hd
    have e3 : (((2^52 : Nat) : Int)) * ((den * 2 ^ s : Nat) : Int) = ((2 ^ (52+s) * den : Nat) : Int) := by push_cast; ring
    rw [e3] at h52
    have e4 : (magUnits mz : Int) * den = ((magUnits mz * den : Nat) : Int) := by push_cast; ring
    rw [e4]
    rw [Int.abs_eq_natAbs, Int.abs_eq_natAbs] at *
    generalize magUnits mz * den = A at *
    generalize 2 ^ (52 + s) * den = B at *
    omega

/-- The whole number nearest a finite sample is represented. -/
theorem roundMag_nearest_whole (x : Sample) (hx : isFinite x = true) :
    roundMag (nearestEven (units x) one * one) 1 < infMag ∧ magUnits (roundMag (nearestEven (units x) one * one) 1) = nearestEven (units x) one * one := by
  by_cases h : nearestEven (units x) one < 9007199254740992
  · exact roundMag_whole h
  · have hm := (isFinite_iff x).1 hx
    obtain ⟨e, h1, h2, he⟩ := one_pow
    -- units x ≥ (2^53 - 1) * one, so it is a multiple of one
    have hge : 2 ^ 52 * one ≤ units x := by
      by_contra hc
      have := nearestEven_le (d := one) (k := 2^52) one_pos (n := units x) (by omega)
      omega
    have hdvd : ∃ k, units x = k * one := by
      unfold units at hge ⊢
      have hl : expUnit ≤ magnitude x := by
        by_contra hc
        rw [magUnits_small (by omega)] at hge
        have : 1 ≤ one := one_pos
        have : 2^52 * 1 ≤ 2^52 * one := Nat.mul_le_mul_left _ this
        have : expUnit = 2^52 := rfl
        omega
      rw [magUnits_large hl] at hge ⊢
      have hmd : magnitude x % expUnit < expUnit := Nat.mod_lt _ (by decide)
      have hpe : expUnit = 2 ^ 52 := rfl
      generalize magnitude x / expUnit - 1 = s at *
      have hs : e ≤ s := by
        by_contra hc
        have : 2 ^ s * 2 ≤ 2 ^ e := by rw [← pow_succ]; exact Nat.pow_le_pow_right (by norm_num) (by omega)
        have h5 : (expUnit + magnitude x % expUnit) * 2 ^ s < 2 * expUnit * 2 ^ s := Nat.mul_lt_mul_of_pos_right (by omega) (by positivity)
        have : 2 * expUnit * 2 ^ s = 2 ^ 52 * (2 ^ s * 2) := by rw [hpe, Nat.mul_comm 2, Nat.mul_assoc, Nat.mul_comm 2]
        have : 2 ^ 52 * (2 ^ s * 2) ≤ 2 ^ 52 * 2 ^ e := Nat.mul_le_mul_left _ (by assumption)
        rw [← he] at this
        omega
      obtain ⟨t, rfl⟩ := Nat.exists_eq_add_of_le hs
      exact ⟨(expUnit + magnitude x % expUnit) * 2 ^ t, by rw [he, pow_add]; ring⟩
    obtain ⟨k, hk⟩ := hdvd
    have : nearestEven (units x) one * one = units x := by rw [hk, nearestEven_mul _ _ one_pos]
    rw [this]
    unfold units
    rw [roundMag_magUnits hm.le]
    exact ⟨hm, rfl⟩

/-- Half a represented number is represented unless it underflows. -/
theorem magUnits_half {m : Nat} (hm : m < infMag) (h : 2 ^ 53 ≤ magUnits m ∨ magUnits m % 2 = 0) : ∃ m' < infMag, 2 * magUnits m' = magUnits m := by
  have he : expUnit = 2^52 := rfl
  by_cases hs : m < 2 * expUnit
  · have hu : magUnits m = m := by
      by_cases h1 : m < expUnit
      · exact magUnits_small h1
      · have := magUnits_significand (shift := 0) (Nat.not_lt.mp h1) hs; simpa using this
    have : m % 2 = 0 := by
      rcases h with h | h
      · rw [hu] at h; omega
      · rwa [hu] at h
    refine ⟨m / 2, by omega, ?_⟩
    rw [magUnits_small (by omega), hu]; omega
  · refine ⟨m - expUnit, by omega, ?_⟩
    have e1 : m = (m / expUnit - 1 - 1 + 1) * expUnit + (expUnit + m % expUnit) := by
      have h1 := Nat.div_add_mod m expUnit
      have h2 : 2 ≤ m / expUnit := by rw [Nat.le_div_iff_mul_le (by decide)]; omega
      have h3 : (m / expUnit - 1 - 1 + 1) = m / expUnit - 1 := by omega
      rw [h3]
      have h4 : expUnit * (m / expUnit) = (m / expUnit - 1) * expUnit + expUnit := by
        rw [Nat.mul_comm]; nth_rewrite 1 [show m / expUnit = (m / expUnit - 1) + 1 by omega]; ring
      omega
    have hmd : m % expUnit < expUnit := Nat.mod_lt _ (by decide)
    generalize m / expUnit - 1 - 1 = s at *
    obtain ⟨g, hgd⟩ : ∃ g, g = expUnit + m % expUnit := ⟨_, rfl⟩
    have hg : expUnit ≤ g ∧ g < 2 * expUnit := by omega
    rw [← hgd] at e1
    rw [e1, magUnits_significand hg.1 hg.2]
    have : (s + 1) * expUnit + g - expUnit = s * expUnit + g := by
      have : (s+1) * expUnit = s * expUnit + expUnit := by ring
      omega
    rw [this, magUnits_significand hg.1 hg.2, pow_succ]; ring

/-- A number of at most 53 significant bits, short of overflow, is represented. -/
theorem magUnits_of_significand (k s : Nat) (hk : k < 2 ^ 53) (hs : s ≤ 1900) : ∃ m < infMag, magUnits m = k * 2 ^ s := by
  rcases Nat.eq_zero_or_pos k with rfl | hp
  · exact ⟨0, by decide, by simp⟩
  have hl : Nat.log2 k < 53 := (Nat.log2_lt hp.ne').mpr hk
  have hlog := log2_mul_pow hp.ne' s
  have hf : roundMag (k * 2 ^ s) 1 < infMag := roundMag_finite Nat.one_pos (by rw [Nat.div_one, hlog]; omega)
  refine ⟨_, hf, magUnits_roundMag (k := k * 2 ^ (s - (Nat.log2 k + s - 52))) ?_ hf⟩
  rw [hlog, Nat.mul_assoc, ← Nat.pow_add]; congr 2; omega

/-- The fraction of a represented number is represented. -/
theorem magUnits_fraction {x : Sample} (hx : isFinite x = true) : ∃ m < infMag, magUnits m = units x % one := by
  obtain ⟨e, h1, h2, he⟩ := one_pow
  have hm := (isFinite_iff x).1 hx
  obtain ⟨k, s, hk, hu⟩ : ∃ k s, k < 2 ^ 53 ∧ units x = k * 2 ^ s := by
    unfold units
    by_cases h : magnitude x < expUnit
    · exact ⟨magnitude x, 0, by have : expUnit = 2^52 := rfl; omega, by rw [magUnits_small h]; simp⟩
    · have hmd : magnitude x % expUnit < expUnit := Nat.mod_lt _ (by decide)
      have : expUnit = 2^52 := rfl
      exact ⟨_, _, by omega, magUnits_large (Nat.not_lt.mp h)⟩
  rw [hu, he]
  by_cases hs : s ≤ e
  · obtain ⟨t, rfl⟩ := Nat.exists_eq_add_of_le hs
    have : k * 2 ^ s % 2 ^ (s + t) = (k % 2 ^ t) * 2 ^ s := by
      rw [pow_add, Nat.mul_comm (2 ^ s), Nat.mul_mod_mul_right]
    rw [this]
    exact magUnits_of_significand _ _ (Nat.lt_of_le_of_lt (Nat.mod_le _ _) hk) (by omega)
  · obtain ⟨t, rfl⟩ := Nat.exists_eq_add_of_le (Nat.le_of_not_le hs)
    exact ⟨0, by decide, by rw [pow_add, Nat.mul_comm (2^e), ← Nat.mul_assoc]; simp⟩

/-- A product whose exact magnitude is represented is exact. -/
theorem value_mul_exact {x y : Sample} (hx : isFinite x = true) (hy : isFinite y = true) {m : Nat} (hm : m < infMag)
    (h : units x * units y = magUnits m * one) :
    isFinite (mul x y) = true ∧ value (mul x y) = if negative x != negative y then -(magUnits m : Int) else magUnits m := by
  have e : mul x y = round (negative x != negative y) (units x * units y) one := by
    unfold mul
    rw [not_isNaN_of_isFinite hx, not_isNaN_of_isFinite hy, not_isInf_of_isFinite hx, not_isInf_of_isFinite hy]
    simp
  rw [e, isFinite_round, value_round, h, roundMag_exact one_pos hm.le]
  exact ⟨hm, rfl⟩

end Sys2Proof.Machine.Binary64
end

