-- ==== Sys2Proof/Tests/Slice0.lean ====
section
/-! SUPPORT. The model's own tests. Expected values come from the spec: the worked examples of the command rules and the
vectors of 95_test_vectors.md. Each is one step on a small state. After them, for every statement with hypotheses, a state
and operands that meet them. -/

open Sys2Proof Sys2Proof.Machine Sys2Proof.Claims

namespace Sys2Proof.Tests

set_option Elab.async false

/-- The outcome is a next state with the property. -/
def after (o : Host.Outcome State Fault Refusal) (p : State → Bool) : Bool :=
  match o with
  | .next t => p t
  | .fault _ => false
  | .refused _ => false

/-- The first `n` cells of the block. -/
def block (n : Nat) (s : State) : List Sample := inputBlock s n

/-- A block of samples, with `BSIZE` its length. -/
def withBlock (x : List Sample) (s : State) : State :=
  { s with params := { s.params with bsize := BitVec.ofNat 32 x.length }, blk := Memory.ofList 0 x }

/-! Well-formedness and decoding. -/

/-- 30_encoding.md R113: `unknown 2` would be a second name of `hard`. -/
theorem test_illFormedMode : (Instr.dstApply (.unknown 2#8)).wellFormed = false := by decide

theorem test_wellFormedMode : (Instr.dstApply (.unknown 5#8)).wellFormed = true := by decide

/-- 95_test_vectors.md V-ENC-1 to V-ENC-3. -/
theorem test_decodeNop : decode (commandOf 0x0000000000000000#64) = .ok .nop := by decide +kernel
theorem test_decodeDlyInit : decode (commandOf 0x0000000000000010#64) = .ok .dlyInit := by decide +kernel
theorem test_decodeDlyApply : decode (commandOf 0x0000000000000011#64) = .ok .dlyApply := by decide +kernel

/-- V-ENC-4 to V-ENC-9: the modes. -/
theorem test_decodeIdentity : decode (commandOf 0x0000000000000020#64) = .ok (.dstApply (.unknown 0#8)) := by decide +kernel
theorem test_decodeSoft : decode (commandOf 0x0000000000000120#64) = .ok (.dstApply .soft) := by decide +kernel
theorem test_decodeHard : decode (commandOf 0x0000000000000220#64) = .ok (.dstApply .hard) := by decide +kernel
theorem test_decodeSine : decode (commandOf 0x0000000000000320#64) = .ok (.dstApply .sine) := by decide +kernel
theorem test_decodeBitcrush : decode (commandOf 0x0000000000000420#64) = .ok (.dstApply .bitcrush) := by decide +kernel
theorem test_decodeMode255 : decode (commandOf 0x000000000000FF20#64) = .ok (.dstApply (.unknown 255#8)) := by decide +kernel

/-- The other rows of V-ENC. -/
theorem test_decodeRevInit : decode (commandOf 0x0000000000000030#64) = .ok .revInit := by decide +kernel
theorem test_decodeRevApply : decode (commandOf 0x0000000000000031#64) = .ok .revApply := by decide +kernel
theorem test_decodeKsPluck : decode (commandOf 0x0000000000000040#64) = .ok .ksPluck := by decide +kernel
theorem test_decodeKsGen : decode (commandOf 0x0000000000000041#64) = .ok .ksGen := by decide +kernel
theorem test_decodeVibInit : decode (commandOf 0x0000000000000050#64) = .ok .vibInit := by decide +kernel
theorem test_decodeVibApply : decode (commandOf 0x0000000000000051#64) = .ok .vibApply := by decide +kernel

/-- The bits above 31 of the bus word are no part of the command (20_memory.md R87). -/
theorem test_decodeIgnoresHighHalf : decode (commandOf 0xDEADBEEF00000010#64) = .ok .dlyInit := by decide +kernel

/-- 30_encoding.md R114, the three conditions. -/
theorem test_illegalReserved : decode 0x00010000#32 = .error .reservedBits := by decide +kernel
theorem test_illegalOpcode : decode 0x00000021#32 = .error .unknownOpcode := by decide +kernel
theorem test_illegalArgument : decode 0x00000130#32 = .error .argument := by decide +kernel

/-- The table's numbering and the fetch (log entry 9). -/
theorem test_tableWord : decodeTableWord 32 0x00000420 = some (.dstApply .bitcrush) := by decide +kernel

theorem test_fetchWord :
    after (step (State.reset.withFetchWord 32 0x00000000)) (fun t => decide (t.cmdcnt = 1#32 ∧ t.pending = none)) = true := by
  decide +kernel

/-! One step of each command. -/

/-- 40_commands.md R146, the example. -/
theorem test_nop :
    after (exec .nop State.reset)
      (fun t => decide (regValue ref64 t .cmdcnt = 1#64 ∧ regValue ref64 t .status = 0#64 ∧ regValue ref64 t .ipend = 1#64)) = true := by
  decide +kernel

/-- 41_delay.md R160, the example: 0.003 at 1000. -/
def dlyReady (time rate : Sample) : State :=
  { State.reset with params := { State.reset.params with dlyTime := time, rate := rate } }

theorem test_dlyInit :
    after (exec .dlyInit (dlyReady 0x3F689374BC6A7EFA#64 0x408F400000000000#64))
      (fun t => decide (t.dly.n = 3 ∧ t.dly.idx = 0 ∧ t.dly.valid = true ∧ t.dly.buf = [(0, 0#64), (1, 0#64), (2, 0#64)])) =
      true := by
  decide +kernel

/-- 41_delay.md R160: `0.29 * 100` gives 28, not 29. -/
theorem test_dlyInitFloor :
    after (exec .dlyInit (dlyReady 0x3FD28F5C28F5C28F#64 0x4059000000000000#64)) (fun t => decide (t.dly.n = 28)) = true := by
  decide +kernel

/-- A delay line of 3 zeros, feedback and mix 0.5. -/
def dlyLineState : State :=
  { State.reset with
    params := { State.reset.params with dlyFb := 0x3FE0000000000000#64, dlyMix := 0x3FE0000000000000#64 }
    dly := { valid := true, n := 3, idx := 0, buf := [(0, 0#64), (1, 0#64), (2, 0#64)] } }

/-- 41_delay.md R161, the example. -/
theorem test_dlyApply :
    after (exec .dlyApply (withBlock [0x3FF0000000000000#64, 0#64, 0#64, 0#64] dlyLineState))
      (fun t => decide (block 4 t = [0x3FE0000000000000#64, 0#64, 0#64, 0x3FE0000000000000#64] ∧ t.dly.idx = 1 ∧
        t.dly.buf = [(0, 0x3FE0000000000000#64), (1, 0#64), (2, 0#64)])) = true := by
  decide +kernel

/-- 42_distortion.md R180, the example: `hard`, amount 0.5, mix 1. -/
def dstState (amount : Sample) : State :=
  { State.reset with params := { State.reset.params with dstAmount := amount, dstMix := 0x3FF0000000000000#64 } }

theorem test_dstHard :
    after (exec (.dstApply .hard) (withBlock
        [0#64, 0x3FD0000000000000#64, 0xBFE0000000000000#64, 0x3FF0000000000000#64, 0xBFF0000000000000#64, 0x3FD3333333333333#64]
        (dstState 0x3FE0000000000000#64)))
      (fun t => decide (block 6 t =
        [0#64, 0x3FE0000000000000#64, 0xBFEFAE147AE147AE#64, 0x3FEFAE147AE147AE#64, 0xBFEFAE147AE147AE#64, 0x3FE3333333333333#64])) =
      true := by
  decide +kernel

/-- 42_distortion.md R184: ties to even at two levels, `0.25 * 2 = 0.5` rounds to 0 and `0.75 * 2 = 1.5` to 2. -/
theorem test_dstBitcrush :
    after (exec (.dstApply .bitcrush) (withBlock [0x3FD0000000000000#64, 0x3FE8000000000000#64] (dstState 0x3FF0000000000000#64)))
      (fun t => decide (block 2 t = [0#64, 0x3FE999999999999A#64])) = true := by
  decide +kernel

/-- `IRBUF = [4, 2, 1]`, `BSIZE = 2` (43_reverb.md R200). -/
def irState (ir : List Sample) : State :=
  { State.reset with
    params := { State.reset.params with bsize := 2#32, revIrlen := BitVec.ofNat 32 ir.length }
    irbuf := Memory.ofList 0 ir }

/-- 43_reverb.md R200, the example: the lengths, the history. -/
theorem test_revInit :
    after (exec .revInit (irState [0x4010000000000000#64, 0x4000000000000000#64, 0x3FF0000000000000#64]))
      (fun t => decide (t.rev.valid = true ∧ t.rev.p = 3 ∧ t.rev.b = 2 ∧ t.rev.l = 4 ∧
        t.rev.hist = [(0, 0#64), (1, 0#64), (2, 0#64), (3, 0#64)])) = true := by
  decide +kernel

/-- 43_reverb.md R200: an all-zero impulse response. -/
theorem test_revInitZeroPeak :
    after (exec .revInit (irState [0#64, 0x8000000000000000#64])) (fun t => decide (errWord t = 0x3030#32 ∧ t.fault = true)) =
      true := by
  decide +kernel

/-- A valid REV state of `P = 3`, `B = 2` with `H` zero. -/
def revState (hist : List Sample) : State :=
  { irState [0x3FF0000000000000#64, 0#64, 0#64] with
    rev := {
      valid := true, p := 3, b := 2, l := 4
      h := Memory.ofList 0 (List.replicate 4 (0#64, 0#64))
      hist := Memory.ofList 0 hist } }

/-- 43_reverb.md R201, the example's second block: `hist' = [1, 0, 0, 1]`. -/
theorem test_revApplyShift :
    after (exec .revApply (withBlock [0#64, 0x3FF0000000000000#64] (revState [0#64, 0#64, 0x3FF0000000000000#64, 0#64])))
      (fun t => decide (t.rev.hist =
        [(0, 0x3FF0000000000000#64), (1, 0#64), (2, 0#64), (3, 0x3FF0000000000000#64)])) = true := by
  decide +kernel

/-- `KS_LEN`. -/
def ksLenState (n : Nat) : State :=
  { State.reset with params := { State.reset.params with ksLen := BitVec.ofNat 32 n } }

/-- 44_karplus_strong.md R230: three draws. -/
theorem test_ksPluck :
    after (exec .ksPluck (ksLenState 3))
      (fun t => decide (t.ks.valid = true ∧ t.ks.n = 3 ∧ t.ks.head = 0 ∧ t.draws = 3 ∧ t.ks.buf.map Prod.fst = [0, 1, 2])) =
      true := by
  decide +kernel

/-- 44_karplus_strong.md R230: above the capacity. -/
theorem test_ksPluckTooLong :
    after (exec .ksPluck (ksLenState 4097)) (fun t => decide (errWord t = 0x4040#32 ∧ t.ks.valid = false)) = true := by
  decide +kernel

/-- 44_karplus_strong.md R231, the example: `[1/2, -1/4, 1]`, `K = 1/2`. -/
def ksRing (ring : List Sample) : State :=
  { State.reset with
    params := { State.reset.params with
      bsize := 5#32, ksLen := BitVec.ofNat 32 ring.length, ksDecay := 0x3FE0000000000000#64 }
    ks := { valid := true, n := ring.length, head := 0, buf := Memory.ofList 0 ring } }

theorem test_ksGen :
    after (exec .ksGen (ksRing [0x3FE0000000000000#64, 0xBFD0000000000000#64, 0x3FF0000000000000#64]))
      (fun t => decide (block 5 t = [0x3FE0000000000000#64, 0xBFD0000000000000#64, 0x3FF0000000000000#64,
          0x3FB0000000000000#64, 0x3FC8000000000000#64] ∧ t.ks.head = 2 ∧
        t.ks.buf = [(0, 0x3FB0000000000000#64), (1, 0x3FBD000000000000#64), (2, 0x3FD1000000000000#64)])) = true := by
  decide +kernel

/-- 44_karplus_strong.md R234: one cell decays by `K/2`. -/
theorem test_ksGenOneCell :
    after (exec .ksGen (ksRing [0x3FF0000000000000#64]))
      (fun t => decide ((block 5 t).take 3 = [0x3FF0000000000000#64, 0x3FD0000000000000#64, 0x3FB0000000000000#64])) = true := by
  decide +kernel

/-- `VIB_WIDTH` at a rate of 1000. -/
def vibWidthState (width : Sample) : State :=
  { State.reset with params := { State.reset.params with vibWidth := width, rate := 0x408F400000000000#64 } }

/-- 45_vibrato.md R252, the example: 0.002 gives 4 cells, `w = 2`. -/
theorem test_vibInit :
    after (exec .vibInit (vibWidthState 0x3F60624DD2F1A9FC#64))
      (fun t => decide (t.vib.n = 4 ∧ t.vib.w = 2 ∧ t.vib.i1 = 0 ∧ t.vib.r = 0#64 ∧ t.vib.valid = true)) = true := by
  decide +kernel

/-- 45_vibrato.md R252: 0.0015 gives 3 cells, `w = 1`. -/
theorem test_vibInitOdd :
    after (exec .vibInit (vibWidthState 0x3F589374BC6A7EFA#64)) (fun t => decide (t.vib.n = 3 ∧ t.vib.w = 1)) = true := by
  decide +kernel

/-- A VIB state of 4 cells at a given read index, `f0 = 0`, `Wd = 2`. -/
def vibState (r : Sample) (cells : List Sample) : State :=
  { vibWidthState 0x3F60624DD2F1A9FC#64 with
    vib := { valid := true, n := 4, r := r, w := 2, i1 := 0, buf := Memory.ofList 0 cells } }

/-- Six samples, 100 to 600. -/
def six : List Sample :=
  [0x4059000000000000#64, 0x4069000000000000#64, 0x4072C00000000000#64, 0x4079000000000000#64, 0x407F400000000000#64,
    0x4082C00000000000#64]

/-- `REF64` with a zero of a given sign for the sine. With `f0 = 0` every phase is 0, where law N5 allows both zeros. -/
def zeroSine (z : Sample) : Machine.Num Sample Word := { ref64 with sin := fun _ => z }

/-- 45_vibrato.md R253, the example. -/
theorem test_vibApply :
    after (execOver (zeroSine 0x0000000000000000#64) .vibApply (withBlock six (vibState 0#64 [0#64, 0#64, 0#64, 0#64])))
      (fun t => decide (block 6 t = [0#64, 0#64, 0x4059000000000000#64, 0x4069000000000000#64, 0x4072C00000000000#64,
          0x4079000000000000#64] ∧ t.vib.w = 0 ∧ t.vib.i1 = 2 ∧ t.vib.r = 0x4000000000000000#64 ∧ t.vibneg = false ∧
        t.vib.buf = [(0, 0x4072C00000000000#64), (1, 0x4079000000000000#64), (2, 0x407F400000000000#64),
          (3, 0x4082C00000000000#64)])) = true := by
  decide +kernel

/-- 45_vibrato.md R254, R255: at `r = -1/2` the cells are the last and the first, half each, and the flag is set:
`100/2 + 300/2 = 200`. -/
theorem test_vibApplyNegative :
    after (execOver (zeroSine 0x8000000000000000#64) .vibApply (withBlock [0#64]
        (vibState 0xBFE0000000000000#64 [0x4059000000000000#64, 0#64, 0#64, 0x4072C00000000000#64])))
      (fun t => decide (block 1 t = [0x4069000000000000#64] ∧ t.vibneg = true)) = true := by
  decide +kernel

/-- 20_memory.md R91: a register access while busy faults, and the pending command is lost. -/
theorem test_busyFault :
    after (.next (memWrite ref64 Reg.bsize.address 4#64 { State.reset with pending := some 0#32 }))
      (fun t => decide (errWord t = 0xFF02#32 ∧ t.pending = none ∧ t.ipend = 2#2)) = true := by
  decide +kernel

/-! Witnesses: for every statement with hypotheses, a state and operands that meet them all. -/

/-- A state of reset with a command pending and the engine's turn next. -/
def pendingState (c : Cmd) : State :=
  { State.reset with pending := some c, host := { script := [.wait], returned := [] } }

/-- A block size. -/
def sized (b : Nat) (s : State) : State := { s with params := { s.params with bsize := BitVec.ofNat 32 b } }

/-- A state of reset whose host will do one operation. -/
def hostState (op : BusOp Word) : State := { State.reset with host := { script := [op], returned := [] } }

theorem wit_DecodeMatchesRow :
    decode 0x0000FF20#32 = .ok (.dstApply (.unknown 255#8)) ∧
      0x0000FF20#32 &&& (row (.dstApply .soft)).2 = (row (.dstApply .soft)).1 := by decide +kernel

theorem wit_IllegalWordsFault :
    (pendingState 0x00000012#32).pending = some 0x00000012#32 ∧ (pendingState 0x00000012#32).fault = false ∧
      engineTurn (pendingState 0x00000012#32) [] ∧ decode 0x00000012#32 = .error .unknownOpcode ∧ quiet State.reset := by
  decide +kernel

theorem wit_DecodeEncodeInverse :
    (Instr.dstApply (.unknown 255#8)).wellFormed = true ∧ decode 0x0000FF20#32 = .ok (.dstApply (.unknown 255#8)) := by
  decide +kernel

theorem wit_ModeFieldMeaning : (0#8 = 0#8 ∨ 5 ≤ (0#8 : Byte).toNat) ∧ (5#8 = 0#8 ∨ 5 ≤ (5#8 : Byte).toNat) ∧
    ¬ (4#8 = 0#8 ∨ 5 ≤ (4#8 : Byte).toNat) := by decide +kernel

theorem wit_StepPerformsCommand :
    (pendingState 0x00000420#32).pending = some 0x00000420#32 ∧ (pendingState 0x00000420#32).fault = false ∧
      engineTurn (pendingState 0x00000420#32) [] ∧ decode 0x00000420#32 = .ok (.dstApply .bitcrush) ∧
      engineTurn State.reset [] ∧ decode (BitVec.ofNat 32 0x420) = .ok (.dstApply .bitcrush) ∧ 0x420 < 4294967296 := by
  decide +kernel

theorem wit_StepPerformsBusOperation :
    (hostState (.rd 0#24)).host.script = .rd 0#24 :: [] ∧ (hostState (.wr 4#24 1#64)).host.script = .wr 4#24 1#64 :: [] ∧
      (hostState .rst).host.script = .rst :: [] ∧ (hostState .wait).host.script = .wait :: [] ∧
      (hostState .wait).pending = none ∧ State.reset.host.script = [] := by decide +kernel

/-- A command that completes and one that faults; also the witness of `FaultsArePrecise`, `CommandsKeepHostData`,
`UnitsAreIsolated` and `CommandsWriteOnlyTheBlock`. -/
theorem wit_CommandBookkeeping :
    State.reset.fault = false ∧ (∃ t, exec .nop State.reset = .next t ∧ t.fault = false) ∧
      ∃ t, exec .dlyInit State.reset = .next t ∧ t.fault = true :=
  ⟨rfl, ⟨_, rfl, by decide +kernel⟩, ⟨_, rfl, by decide +kernel⟩⟩

/-- A unit untouched by the command, and a cell outside the block. -/
theorem wit_CommandsWriteOnlyTheBlock :
    ∃ t, exec .ksGen (ksRing [0x3FF0000000000000#64]) = .next t ∧ t.fault = false ∧ t.blk.length = 5 ∧
      blockLen (ksRing [0x3FF0000000000000#64]) ≤ 5 :=
  ⟨_, rfl, by decide +kernel, by decide +kernel, by decide +kernel⟩

theorem wit_FaultCodesAndPriority :
    (usesBlock .ksGen = true ∧ ¬ blockLegal State.reset) ∧ (usesBlock .ksGen = true ∧ ¬ blockLegal (sized 4097 State.reset)) ∧
      (blockLegal (sized 4096 State.reset) ∧ unitReady .ksGen (sized 4096 State.reset) = false) ∧
      (blockLegal (sized 1 State.reset) ∧ unitReady .ksGen (sized 1 State.reset) = false) := by decide +kernel

theorem wit_DlyInitResult :
    (ref64.isfin (dlyProduct (dlyReady 0x3FF0000000000000#64 0x3FF0000000000000#64)) = true ∧
      0 < ref64.ifloor (dlyProduct (dlyReady 0x3FF0000000000000#64 0x3FF0000000000000#64)) ∧
      ref64.ifloor (dlyProduct (dlyReady 0x3FF0000000000000#64 0x3FF0000000000000#64)) ≤ 1048576) ∧
    ref64.ifloor (dlyProduct (dlyReady 0x4130000000000000#64 0x3FF0000000000000#64)) = 1048576 ∧
    ref64.ifloor (dlyProduct (dlyReady 0x4130000100000000#64 0x3FF0000000000000#64)) = 1048577 ∧
    ref64.ifloor (dlyProduct State.reset) = 0 ∧
    ref64.isfin (dlyProduct (dlyReady 0x7FF0000000000000#64 0x3FF0000000000000#64)) = false := by decide +kernel

theorem wit_DlyApplyResult : blockLegal (sized 4 dlyLineState) ∧ (sized 4 dlyLineState).dly.valid = true := by decide +kernel

theorem wit_DstApplyResult : blockLegal (sized 1 State.reset) ∧ blockLegal (sized 4096 State.reset) := by decide +kernel

theorem wit_DstOutputBound :
    blockLegal (withBlock [0x3FF0000000000000#64] (dstState 0x3FF0000000000000#64)) ∧
      ∃ t, exec (.dstApply .hard) (withBlock [0x3FF0000000000000#64] (dstState 0x3FF0000000000000#64)) = .next t ∧
        Binary64.isNaN (t.blkAt 0) = false :=
  ⟨by decide +kernel, _, rfl, by decide +kernel⟩

/-- Amount 2: the phase factor is finite, the step is 4. -/
theorem wit_DstZeroInZeroOut :
    Binary64.isZero 0x8000000000000000#64 = true ∧ ref64.isfin 0x4000000000000000#64 = true ∧
      ref64.isfin (ref64.mul ref64.pi 0x4000000000000000#64) = true ∧
      ref64.isfin (crushLevels ref64 0x4000000000000000#64) = true ∧
      Binary64.isZero (crushLevels ref64 0x4000000000000000#64) = false := by decide +kernel

/-- The bound itself, and just past it; an infinite amount. -/
theorem wit_DstHardUnity :
    ref64.le (ref64.lit 1 1) 0x7FF0000000000000#64 = true ∧
      ref64.le (ref64.abs 0xBFEFAE147AE147AE#64) (ref64.lit 99 100) = true ∧
      ref64.lt (ref64.lit 99 100) (ref64.abs 0xBFEFAE147AE147AF#64) = true ∧
      ref64.le (ref64.abs 0xBFF0000000000000#64) (ref64.lit 1 1) = true := by decide +kernel

/-- A usable impulse response; none; one that is all zeros. -/
theorem wit_RevInitResult :
    (blockLegal (irState [0x4010000000000000#64]) ∧ irUsable (irState [0x4010000000000000#64])) ∧
      (blockLegal (irState []) ∧ ¬ irUsable (irState []) ∧ (irState []).fault = false) ∧
      ¬ irUsable (irState [0x8000000000000000#64]) := by decide +kernel

theorem wit_RevApplyResult :
    (blockLegal (revState []) ∧ (revState []).rev.valid = true ∧ (revState []).rev.b = blockLen (revState []) ∧
      (revState []).rev.l + 1 = (revState []).rev.p + blockLen (revState []) ∧ 1 ≤ (revState []).rev.p) ∧
    (blockLegal (sized 3 (revState [])) ∧ (sized 3 (revState [])).rev.valid = true ∧
      (sized 3 (revState [])).rev.b ≠ blockLen (sized 3 (revState []))) := by decide +kernel

/-- An exact record over the rationals, with transforms that are right for lengths 1 and 2. -/
def exactRat : Machine.Num ℚ (BusDatum ℚ) where
  lit n d := n / d
  ofint z := z
  pi := 3
  add := (· + ·)
  sub := (· - ·)
  mul := (· * ·)
  div := (· / ·)
  neg x := -x
  abs x := |x|
  lt x y := decide (x < y)
  le x y := decide (x ≤ y)
  eq x y := decide (x = y)
  isfin _ := true
  ifloor x := ⌊x⌋
  iceil x := ⌈x⌉
  itrunc := truncate
  rint x := nearestInteger x
  tanh _ := 0
  sin _ := 0
  pow2 x := 2 ^ ⌊x⌋
  dft _ v k := (∑ m, v m * (-1) ^ (m.val * k.val), 0)
  idft L y n := ((∑ k, (y k).1 * (-1) ^ (k.val * n.val)) / L, 0)
  enc := .sample
  dec := BusDatum.toSample
  encInt := .integer
  decInt := BusDatum.toInteger

theorem exactRat_laws : exactRat.Laws id 0 where
  sumWithZero _ _ := by simp [exactRat, Num.whole]
  productWithZero _ _ := by simp [exactRat, Num.whole, Num.isZero]
  productWithOne _ _ := by simp [exactRat, Num.whole]
  oneMinus := by simp [exactRat, Num.whole, Num.isZero]
  ofZero := by simp [exactRat, Num.whole, Num.isZero, nearestInteger]
  unitBound _ _ := by simp [exactRat, Num.whole]
  powers k _ _ := by simp [exactRat]
  half _ _ _ := by simp [exactRat]; ring
  transformOfZeros L v h k := by
    have h0 : ∀ i, v i = 0 := fun i => by simpa [exactRat, Num.whole, Num.isZero] using h i
    simp [exactRat, Num.whole, Num.isZero, h0]
  inverseOfZeros L y h n := by
    have h0 : ∀ i, (y i).1 = 0 := fun i => by simpa [exactRat, Num.whole, Num.isZero] using (h i).1
    simp [exactRat, Num.whole, Num.isZero, h0]
  complexZero a b h1 h2 _ _ := by
    simp only [exactRat, Num.whole, Num.isZero, Int.cast_zero, zero_div, decide_eq_true_eq] at h1 h2
    simp [exactRat, Num.whole, Num.isZero, Num.cmul, h1, h2]
  integers z _ := by simp [exactRat, truncate]

theorem exactRat_exact : exactRat.Exact where
  literals := ⟨fun _ _ => rfl, fun _ => rfl⟩
  arithmetic _ _ := ⟨rfl, rfl, rfl, rfl⟩
  signs _ := ⟨rfl, rfl, rfl⟩
  order _ _ := ⟨rfl, rfl, rfl⟩
  rounding _ := ⟨rfl, rfl, rfl, rfl⟩
  powers k := by simp [exactRat]
  bus _ := rfl
  laws := exactRat_laws

theorem exactRat_convolution : exactRat.ConvolutionLaw 2 := by
  intro v h n
  fin_cases n <;> simp [exactRat, Num.cmul, Fin.sum_univ_two] <;> ring

/-- Two taps, blocks of one sample. -/
theorem wit_RevLinearConvolution :
    exactRat.Exact ∧ 1 ≤ ([4, 2] : List ℚ).length ∧ 1 ≤ 1 ∧ exactRat.ConvolutionLaw (([4, 2] : List ℚ).length - 1 + 1) :=
  ⟨exactRat_exact, by decide, le_rfl, exactRat_convolution⟩

/-- Also the witness of the delay's plain form. -/
theorem wit_KsStringBounded :
    exactRat.Exact ∧ |(1 : ℚ)| ≤ 1 ∧ (0 : Nat) < 2 ∧
      ∀ i < 2, |Memory.read (fun _ => (0 : ℚ)) [(0, 1), (1, -1)] i| ≤ 1 := by
  refine ⟨exactRat_exact, by norm_num, by norm_num, ?_⟩
  intro i hi
  interval_cases i <;> simp [Memory.read, Memory.find]

theorem wit_DlyPlainDelay : exactRat.Exact ∧ 1 ≤ 1 := ⟨exactRat_exact, le_rfl⟩

/-- Two blocks of one negative zero on a history of two samples. -/
theorem wit_RevSilence :
    1 ≤ 1 ∧ 1 ≤ 2 ∧ (∀ _ : Fin 2, ref64.isfin (0x3FF0000000000000#64, 0#64).1 = true ∧ ref64.isfin 0#64 = true) ∧
      Binary64.isZero 0x8000000000000000#64 = true ∧ 2 ≤ 2 * 1 := by decide +kernel

/-- The state after `VIB.INIT` with 4 cells, blocks of 6 samples. -/
def vibExample : State := withBlock six (vibState 0#64 [0#64, 0#64, 0#64, 0#64])

/-- A valid VIB state and a block of six samples meet the invariant. -/
theorem vibStateInv : MachineInv vibExample where
  caps := by decide
  blk := ⟨rfl, by decide +kernel⟩
  irbuf := ⟨rfl, by decide +kernel⟩
  dly := ⟨rfl, (by intro h; cases h), fun _ => rfl⟩
  rev := ⟨rfl, rfl, (by intro h; cases h), fun _ => rfl⟩
  ks := ⟨rfl, (by intro h; cases h), fun _ => rfl⟩
  vib := ⟨by decide +kernel, by decide +kernel, (by intro h; cases h)⟩
  faults := ⟨(by intro h; cases h), by decide, fun _ => ⟨rfl, rfl⟩, by intro h; cases h⟩

/-- A state the length guard has (unreachably) faulted meets the invariant, and stays so. -/
theorem wit_RevGuardNeverFails :
    MachineInv (faulted .revLen 0x31#8 State.reset) ∧
      ∃ t, exec .revApply (faulted .revLen 0x31#8 State.reset) = .next t ∧ t.errCode = .revLen :=
  ⟨{  caps := by decide
      blk := ⟨rfl, by decide +kernel⟩
      irbuf := ⟨rfl, by decide +kernel⟩
      dly := ⟨rfl, (by intro h; cases h), fun _ => rfl⟩
      rev := ⟨rfl, rfl, (by intro h; cases h), fun _ => rfl⟩
      ks := ⟨rfl, (by intro h; cases h), fun _ => rfl⟩
      vib := ⟨rfl, (by intro h; cases h), fun _ => rfl⟩
      faults := ⟨fun _ => rfl, by decide, (by intro h; cases h), fun _ => by decide⟩ },
    _, rfl, by decide +kernel⟩

theorem wit_KsPluckResult :
    (1 ≤ (ksLenState 1).params.ksLen.toNat ∧ (ksLenState 4096).params.ksLen.toNat ≤ (ksLenState 4096).caps.maxKs) ∧
      (ksLenState 0).params.ksLen.toNat = 0 ∧ (ksLenState 4097).caps.maxKs < (ksLenState 4097).params.ksLen.toNat := by
  decide +kernel

theorem wit_KsGenResult :
    blockLegal (ksRing [0x3FF0000000000000#64]) ∧ (ksRing [0x3FF0000000000000#64]).ks.valid = true ∧
      (ksRing [0x3FF0000000000000#64]).ks.head < (ksRing [0x3FF0000000000000#64]).ks.n := by decide +kernel

/-- The example's width; each way to fault: rate 0, a negative product, one too large, one not finite. -/
theorem wit_VibInitResult :
    (ref64.eq (vibWidthState 0#64).params.rate (ref64.lit 0 1) = false ∧ ref64.isfin (vibProduct (vibWidthState 0#64)) = true ∧
      ref64.lt (vibProduct (vibWidthState 0#64)) (ref64.lit 0 1) = false ∧
      ref64.ifloor (vibProduct (vibWidthState 0#64)) + 2 ≤ 4096) ∧
    ref64.eq State.reset.params.rate (ref64.lit 0 1) = true ∧
    ref64.lt (vibProduct (vibWidthState 0x8000000000000001#64)) (ref64.lit 0 1) = true ∧
    4096 < ref64.ifloor (vibProduct (vibWidthState 0x4020000000000000#64)) + 2 ∧
    ref64.isfin (vibProduct (vibWidthState 0x7FF0000000000000#64)) = false := by decide +kernel

/-- Also the witness of `VibPureDelay`. -/
theorem wit_VibApplyResult : blockLegal vibExample ∧ vibExample.vib.valid = true ∧ vibFinite vibExample := by
  refine ⟨by decide +kernel, by decide +kernel, fun k hk => ?_⟩
  have h6 : k < 6 := hk
  have phase : ∀ k : Nat, k < 6 → Binary64.isZero (ref64.div (ref64.mul (ref64.mul (ref64.mul (ref64.lit 2 1) ref64.pi)
      vibExample.params.vibF0) (ref64.ofint k)) vibExample.params.rate) = true := by decide +kernel
  have zero : ∀ k < 6, ref64.isfin (ref64.add (ref64.ofint (vibBase vibExample (k + 1)))
      (ref64.mul (vibProduct vibExample) 0x0000000000000000#64)) = true := by decide +kernel
  have negZero : ∀ k < 6, ref64.isfin (ref64.add (ref64.ofint (vibBase vibExample (k + 1)))
      (ref64.mul (vibProduct vibExample) 0x8000000000000000#64)) = true := by decide +kernel
  unfold vibRaw
  rcases sin_of_zero (phase k h6) with h | h
  · rw [h]; exact zero k h6
  · rw [h]; exact negZero k h6

/-- A width that is not finite makes every read index not finite. -/
theorem wit_VibApplyFault :
    ¬ vibFinite (sized 1 { vibState 0#64 [] with params := { State.reset.params with vibWidth := 0x7FF8000000000000#64 } }) := by
  intro h
  have h0 := h 0 (by decide +kernel)
  have nanMul : ∀ x y : Sample, Binary64.isNaN x = true → Binary64.isNaN (Binary64.mul x y) = true := by
    intro x y hx; simp [Binary64.mul, hx]
  have nanAdd : ∀ x y : Sample, Binary64.isNaN y = true → Binary64.isFinite (Binary64.add x y) = false := by
    intro x y hy
    have : Binary64.isNaN (Binary64.add x y) = true := by simp [Binary64.add, Binary64.addAs, hy]
    rw [Bool.eq_false_iff]
    intro hf
    rw [Binary64.not_isNaN_of_isFinite hf] at this
    cases this
  have h1 : ref64.isfin (vibRaw (sized 1 { vibState 0#64 [] with
      params := { State.reset.params with vibWidth := 0x7FF8000000000000#64 } }) 0) = false := by
    unfold vibRaw vibProduct
    simp only [ref64_add, ref64_mul, ref64_isfin]
    exact nanAdd _ _ (nanMul _ _ (nanMul _ _ (by decide +kernel)))
  rw [h1] at h0
  cases h0

theorem wit_VibOutputIsInteger :
    Binary64.isNaN 0x7FF8000000000000#64 = true ∧ Binary64.isNaN 0x7FF0000000000000#64 = false ∧
      ref64.lt 0xC0E0000020000000#64 (ref64.lit (-32768) 1) = true ∧ ref64.lt (ref64.lit 32767 1) 0x7FF0000000000000#64 = true ∧
      ref64.le (ref64.lit (-32768) 1) 0xC0E0000000000000#64 = true ∧ ref64.le 0x40DFFFC000000000#64 (ref64.lit 32767 1) = true := by
  decide +kernel

theorem wit_VibPureDelay :
    (2 ≤ vibExample.vib.n ∧ vibExample.vib.n ≤ 1048576 ∧ vibExample.vib.i1 < vibExample.vib.n ∧
      vibExample.vib.w = (vibExample.vib.i1 + vibExample.vib.n / 2) % vibExample.vib.n ∧
      vibExample.vib.r = ref64.ofint vibExample.vib.i1 ∧ vibExample.params.vibF0 = ref64.lit 0 1 ∧
      ref64.isfin (vibProduct vibExample) = true ∧ ref64.eq vibExample.params.rate (ref64.lit 0 1) = false ∧
      (∀ i < vibExample.vib.n, ref64.isfin (vibExample.vibAt i) = true) ∧
      ∀ k < blockLen vibExample, ref64.isfin (vibExample.blkAt k) = true) ∧ ∃ t, exec .vibApply vibExample = .next t :=
  ⟨by decide +kernel, _, rfl⟩

/-- A read in each case: a register, the last cell of a window, a unit's window, busy, unmapped; the first address past a
window and the first past the windows; the fault state. -/
theorem wit_HostRead :
    (quiet State.reset ∧ (0x03, 0#64) ∈ registerImages State.reset) ∧ (faulted .addr 0xFF#8 State.reset).fault = true ∧
      (0x03, 0xFF03#64) ∈ registerImages (faulted .addr 0xFF#8 State.reset) ∧ 0x07 ∈ busyOffsets ∧
      4095 < State.reset.caps.maxB ∧ mapped State.reset 0x100FFF ∧ ¬ mapped State.reset 0x101000 ∧
      ¬ mapped State.reset 0x300000 ∧ mapped dlyLineState 0x300002 ∧ ¬ mapped dlyLineState 0x300003 ∧
      mapped (revState []) 0x500007 ∧ ¬ mapped (revState []) 0x500008 ∧ ¬ mapped State.reset 0x66 ∧
      ¬ mapped State.reset 0x800000 ∧
      ((pendingState 0#32).fault = false ∧ (pendingState 0#32).pending ≠ none ∧ 0x100000 ∉ busyOffsets) := by
  decide +kernel

theorem wit_HostWriteRefused :
    place State.reset 0x800000#24 ≠ .reg .ctrl ∧ (faulted .addr 0xFF#8 State.reset).fault = true ∧
      (pendingState 0#32).fault = false ∧ (pendingState 0#32).pending ≠ none ∧ quiet State.reset ∧
      place State.reset 0x800000#24 = .unmapped ∧ (∃ r ∈ readOnlyRegs, place State.reset Reg.status.address = .reg r) ∧
      0x300000 ≤ (0x300000#24 : Addr).toNat ∧ (0x7FFFFF#24 : Addr).toNat < 0x800000 := by decide +kernel

/-- Also for `CellWrite` and `InterruptRegisterWrites`: reset is idle; the last cells. -/
theorem wit_ParameterWrite :
    quiet State.reset ∧ 4095 < State.reset.caps.maxB ∧ 262143 < State.reset.caps.maxIR ∧ 262143 < 1048576 := by decide +kernel

/-- A register, the ends of a window, and the boundary of the two parts of `REVH`. -/
theorem wit_RegisterMap :
    place State.reset 0x65#24 = .reg .vibI1 ∧ place State.reset 0x100FFF#24 = .blk 4095 ∧
      place State.reset 0x101000#24 = .unmapped ∧ place (revState []) 0x500007#24 = .revH 7 ∧
      place (revState []) 0x500008#24 = .unmapped ∧ place dlyLineState 0x300002#24 = .dlyBuf 2 := by decide +kernel

/-- A faulted block keeps what it has under a dropped write, and leaves by a reset. -/
theorem wit_FaultIsAbsorbing :
    (∃ t, step (faulted .addr 0xFF#8 (hostState (.wr Reg.bsize.address 4#64))) = .next t ∧ t.fault = true) ∧
      ∃ t, step (faulted .addr 0xFF#8 (hostState .rst)) = .next t ∧ t.fault = false :=
  ⟨⟨_, rfl, by decide +kernel⟩, ⟨_, rfl, by decide +kernel⟩⟩

theorem wit_ResetEffect :
    (1#64 : Word).getLsbD 0 = true ∧ (hostState .rst).host.script = .rst :: [] ∧
      (hostState (.wr 0x06#24 1#64)).host.script = .wr 0x06#24 1#64 :: [] ∧ (2#64 : Word).getLsbD 0 = false := by
  decide +kernel

/-- A step that counts, a reset, and one of neither kind. -/
theorem wit_CommandCounter :
    (performs (pendingState 0#32) ∧ ∃ t, step (pendingState 0#32) = .next t ∧ t.fault = false ∧ t.cmdcnt = 1#32) ∧
      (resets (hostState .rst) ∧ ∃ t, step (hostState .rst) = .next t ∧ t.epoch = 1) ∧
      ((¬ performs State.reset ∧ ¬ resets State.reset) ∧ ∃ t, step State.reset = .next t) :=
  ⟨⟨⟨by decide, rfl, [], .inl rfl⟩, _, rfl, by decide +kernel, by decide +kernel⟩, ⟨⟨[], .inl rfl⟩, _, rfl, by decide +kernel⟩,
    ⟨fun h => h.1 rfl, by rintro ⟨_, h | ⟨_, h, _⟩⟩ <;> cases h⟩, _, rfl⟩

/-- Also for `ReadIndexBoundKept` and `FinitePhaseNeverFaults`. -/
theorem wit_InvariantKept :
    ∃ s : State, MachineInv s ∧ s.vib.valid = true ∧ readIndexBounded s ∧ vibPhasesFinite s ∧ s.fault = false ∧
      (∃ t, step s = .next t) ∧ ∃ t, exec .vibApply s = .next t :=
  ⟨_, vibStateInv, by decide +kernel, by decide +kernel, by decide +kernel, rfl, ⟨_, rfl⟩, ⟨_, rfl⟩⟩

/-- 1 and 3, whose quotient is rounded; a sum that is a tie; the largest finite sample, whose double overflows. -/
theorem wit_ArithmeticIsNearest :
    ref64.isfin 0x3FF0000000000000#64 = true ∧ ref64.isfin 0x4008000000000000#64 = true ∧
      units64 0x4008000000000000#64 ≠ 0 ∧ ref64.add 0x3FF0000000000000#64 0x3CA0000000000000#64 = 0x3FF0000000000000#64 ∧
      ref64.isfin 0x7FEFFFFFFFFFFFFF#64 = true ∧
      overflow64 ≤ units64 0x7FEFFFFFFFFFFFFF#64 + units64 0x7FEFFFFFFFFFFFFF#64 := by decide +kernel

/-- Also for the laws of the transcendentals and the transforms: the largest finite sample, the ends of `pow2`'s range. -/
theorem wit_Laws :
    ref64.isfin 0x7FEFFFFFFFFFFFFF#64 = true ∧ 2 ^ 53 ≤ |units64 0x0020000000000000#64| ∧ (1 ≤ 16 ∧ 16 ≤ 16) ∧ Binary64.isZero 0x8000000000000000#64 = true ∧
      |(-1048576 : Int)| ≤ 1048576 := by decide +kernel

theorem wit_LawOfFractions :
    (ref64.isfin 0x8000000000000000#64 = true ∧ ref64.le (ref64.lit 0 1) 0x8000000000000000#64 = true ∧
      ref64.le (ref64.abs 0x8000000000000000#64) (ref64.lit 2097152 1) = true) ∧
    (ref64.isfin 0xC140000000000000#64 = true ∧ ref64.le (ref64.abs 0xC140000000000000#64) (ref64.lit 2097152 1) = true) := by
  decide +kernel

/-- 2.5 and -3.5, ties; an infinity. -/
theorem wit_RoundingToIntegers :
    ref64.rint 0x4004000000000000#64 = 0x4000000000000000#64 ∧ ref64.rint 0xC00C000000000000#64 = 0xC010000000000000#64 ∧
      ref64.isfin 0xC00C000000000000#64 = true ∧ ref64.isfin 0x7FF0000000000000#64 = false ∧
      Binary64.isNaN 0x7FF0000000000000#64 = false := by decide +kernel

/-- A NaN; both zeros; an infinity. -/
theorem wit_ComparisonsAndSigns :
    Binary64.isNaN 0x7FF8000000000000#64 = true ∧ ref64.isfin 0x8000000000000000#64 = true ∧
      ref64.eq 0x8000000000000000#64 0#64 = true ∧ Binary64.isNaN 0xFFF0000000000000#64 = false := by decide +kernel

end Sys2Proof.Tests
end

/-! Proofs of the statements on 00_scope.md R7 and R9: first what one rounding of an exact result says, for every
operation of `REF64` at once. -/

namespace Sys2Proof.Machine.Binary64

/-- `r` is `num / den` units rounded once (00_scope.md R7). A zero result has either sign. -/
def RoundingOf (r : Sample) (num : Int) (den : Nat) : Prop :=
  ∃ neg : Bool, r = round neg num.natAbs den ∧ if neg then num ≤ 0 else 0 ≤ num

theorem natAbs_value (x : Sample) : (value x).natAbs = units x := by
  unfold value
  split <;> omega

theorem abs_value (x : Sample) : |value x| = units x := by
  rw [Int.abs_eq_natAbs, natAbs_value]

theorem roundingOf_of_sign (num : Int) (den : Nat) : RoundingOf (round (decide (num < 0)) num.natAbs den) num den :=
  ⟨_, rfl, by
    by_cases h : num < 0
    · simpa [h] using h.le
    · simpa [h] using not_lt.mp h⟩

/-- A rounding with the sign IEEE 754 gives a product or a quotient: negative where the operands' signs differ. -/
theorem roundingOf_of_signs (x y : Sample) {num : Int} {n den : Nat} (habs : num.natAbs = n)
    (hsame : negative x = negative y → 0 ≤ num) (hdiff : negative x ≠ negative y → num ≤ 0) :
    RoundingOf (round (negative x != negative y) n den) num den := by
  refine ⟨_, by rw [habs], ?_⟩
  by_cases h : negative x = negative y
  · simpa [h] using hsame h
  · simpa [h] using hdiff h

theorem value_nonneg_of_not_negative {x : Sample} (h : negative x = false) : 0 ≤ value x := by
  simp [value, h]

theorem value_nonpos_of_negative {x : Sample} (h : negative x = true) : value x ≤ 0 := by
  simp [value, h]

theorem value_mul_nonneg {x y : Sample} (h : negative x = negative y) : 0 ≤ value x * value y := by
  cases hy : negative y with
  | false => exact mul_nonneg (value_nonneg_of_not_negative (h.trans hy)) (value_nonneg_of_not_negative hy)
  | true => exact mul_nonneg_of_nonpos_of_nonpos (value_nonpos_of_negative (h.trans hy)) (value_nonpos_of_negative hy)

theorem value_mul_nonpos {x y : Sample} (h : negative x ≠ negative y) : value x * value y ≤ 0 := by
  cases hy : negative y with
  | false =>
    have hx : negative x = true := by simpa [hy] using h
    exact mul_nonpos_of_nonpos_of_nonneg (value_nonpos_of_negative hx) (value_nonneg_of_not_negative hy)
  | true =>
    have hx : negative x = false := by simpa [hy] using h
    exact mul_nonpos_of_nonneg_of_nonpos (value_nonneg_of_not_negative hx) (value_nonpos_of_negative hy)

theorem roundingOf_add {x y : Sample} (hx : isFinite x = true) (hy : isFinite y = true) :
    RoundingOf (add x y) (value x + value y) 1 := by
  unfold add addAs
  rw [not_isNaN_of_isFinite hx, not_isNaN_of_isFinite hy, not_isInf_of_isFinite hx, not_isInf_of_isFinite hy]
  simp only [Bool.or_self, Bool.false_eq_true, if_false]
  split
  · rename_i h
    exact ⟨_, by rw [h, round, Int.natAbs_zero, roundMag_zero], by simp [h]⟩
  · exact roundingOf_of_sign _ _

theorem roundingOf_sub {x y : Sample} (hx : isFinite x = true) (hy : isFinite y = true) :
    RoundingOf (sub x y) (value x - value y) 1 := by
  have := roundingOf_add hx ((isFinite_flip y).trans hy)
  rwa [value_flip, ← sub_eq_add_neg, ← sub_eq_add_flip hx hy] at this

theorem roundingOf_mul {x y : Sample} (hx : isFinite x = true) (hy : isFinite y = true) :
    RoundingOf (mul x y) (value x * value y) one := by
  unfold mul
  rw [not_isNaN_of_isFinite hx, not_isNaN_of_isFinite hy, not_isInf_of_isFinite hx, not_isInf_of_isFinite hy]
  exact roundingOf_of_signs x y (by rw [Int.natAbs_mul, natAbs_value, natAbs_value]) value_mul_nonneg value_mul_nonpos

theorem isZero_iff_units {x : Sample} (hx : isFinite x = true) : isZero x = true ↔ units x = 0 := by
  have := magUnits_le_iff (m' := 0) ((isFinite_iff x).mp hx).le (Nat.zero_le _)
  simpa [isZero, units] using this.symm

theorem isZero_iff_value {x : Sample} (hx : isFinite x = true) : isZero x = true ↔ value x = 0 := by
  rw [isZero_iff_units hx, ← natAbs_value, Int.natAbs_eq_zero]

theorem roundingOf_div {x y : Sample} (hx : isFinite x = true) (hy : isFinite y = true) (h : value y ≠ 0) :
    RoundingOf (div x y) (value x * (one : Int) * (value y).sign) (units y) := by
  have hz : isZero y = false := by rw [Bool.eq_false_iff, Ne, isZero_iff_value hy]; exact h
  have hsign : value x * (one : Int) * (value y).sign * (value y).natAbs = value x * value y * one := by
    rw [mul_assoc, Int.sign_mul_natAbs]; ring
  have hpos : (0 : Int) < (value y).natAbs := by omega
  have hone : (0 : Int) ≤ one := Int.natCast_nonneg _
  unfold div
  rw [not_isNaN_of_isFinite hx, not_isNaN_of_isFinite hy, not_isInf_of_isFinite hx, not_isInf_of_isFinite hy, hz]
  refine roundingOf_of_signs x y ?_ (fun hs => ?_) (fun hs => ?_)
  · rw [Int.natAbs_mul, Int.natAbs_mul, natAbs_value, Int.natAbs_natCast, Int.natAbs_sign_of_ne_zero h, mul_one]
  · exact nonneg_of_mul_nonneg_left (hsign ▸ mul_nonneg (value_mul_nonneg hs) hone) hpos
  · exact nonpos_of_mul_nonpos_left (hsign ▸ mul_nonpos_of_nonpos_of_nonneg (value_mul_nonpos hs) hone) hpos

theorem roundingOf_lit (n : Int) (d : Nat) : RoundingOf (lit n d) (n * (one : Int)) d := by
  have hone : (0 : Int) ≤ one := Int.natCast_nonneg _
  refine ⟨decide (n < 0), by rw [lit, Int.natAbs_mul, Int.natAbs_natCast], ?_⟩
  by_cases h : n < 0
  · simpa [h] using mul_nonpos_of_nonpos_of_nonneg h.le hone
  · simpa [h] using mul_nonneg (not_lt.mp h) hone

theorem roundingOf_ofint (z : Int) : RoundingOf (ofint z) (z * (one : Int)) 1 := by
  rw [← lit_one]; exact roundingOf_lit z 1

/-- An exact result that is represented is the result. -/
theorem RoundingOf.exact {r z : Sample} {num : Int} {den : Nat} (h : RoundingOf r num den) (hd : 0 < den)
    (hz : isFinite z = true) (heq : num = value z * den) : isFinite r = true ∧ value r = value z := by
  obtain ⟨neg, rfl, hsign⟩ := h
  have habs : num.natAbs = magUnits (magnitude z) * den := by
    rw [heq, Int.natAbs_mul, natAbs_value, Int.natAbs_natCast, units]
  have hround : roundMag num.natAbs den = magnitude z := by
    rw [habs, roundMag_exact hd ((isFinite_iff z).mp hz).le]
  refine ⟨by rw [isFinite_round, hround]; exact (isFinite_iff z).mp hz, ?_⟩
  have hden : (den : Int) ≠ 0 := by omega
  have hcast : (num.natAbs : Int) = magUnits (magnitude z) * den := by rw [habs]; push_cast; rfl
  rw [value_round, hround]
  apply mul_right_cancel₀ hden
  rw [← heq]
  cases neg with
  | false => simp only [Bool.false_eq_true, if_false] at hsign ⊢; omega
  | true => simp only [if_true, neg_mul] at hsign ⊢; omega

end Sys2Proof.Machine.Binary64

namespace Sys2Proof.Machine.Binary64

/-! Bits of a sample: bit 63 is the sign, the bits below it are the magnitude. -/

theorem getLsbD_sign (x : Sample) : x.getLsbD 63 = negative x := by
  rw [← BitVec.msb_eq_getLsbD_last x, BitVec.msb_eq_decide]; rfl

theorem getLsbD_magnitude (x : Sample) {b : Nat} (hb : b < 63) : x.getLsbD b = (magnitude x).testBit b := by
  rw [magnitude, show 0x8000000000000000 = 2 ^ 63 from rfl, Nat.testBit_mod_two_pow, BitVec.getLsbD]
  simp [hb]

/-! The result is the nearest one, ties to even, and infinite from the overflow threshold on. -/

/-- `roundMag_nearest` against a number of either sign. -/
theorem roundMag_nearest_signed (n den : Nat) (hd : 0 < den) (hf : roundMag n den < infMag) {m : Nat} {w : Int}
    (hw : w.natAbs = magUnits m) :
    |(magUnits (roundMag n den) : Int) * den - n| ≤ |w * den - n| ∧
    (|(magUnits (roundMag n den) : Int) * den - n| = |w * den - n| → w ≠ magUnits (roundMag n den) →
      roundMag n den % 2 = 0) := by
  by_cases h : 0 ≤ w
  · obtain ⟨hle, htie⟩ := roundMag_nearest n den hd hf m
    have hwm : w = magUnits m := by omega
    rw [hwm]
    exact ⟨hle, fun he hne => htie he (by exact_mod_cast hne)⟩
  · have hzero := (roundMag_nearest n den hd hf 0).1
    have hfar : w * (den : Int) < 0 := Int.mul_neg_of_neg_of_pos (by omega) (by omega)
    have hlt : |(magUnits (roundMag n den) : Int) * den - n| < |w * den - n| := by
      refine lt_of_le_of_lt hzero ?_
      rw [magUnits_zero, Int.abs_eq_natAbs, Int.abs_eq_natAbs]
      omega
    exact ⟨hlt.le, fun he => absurd he hlt.ne⟩

theorem RoundingOf.nearest {r : Sample} {num : Int} {den : Nat} (h : RoundingOf r num den) (hd : 0 < den)
    (hf : isFinite r = true) (z : Sample) :
    |value r * den - num| ≤ |value z * den - num| ∧
    (|value r * den - num| = |value z * den - num| → value z ≠ value r → magnitude r % 2 = 0) := by
  obtain ⟨neg, rfl, hsign⟩ := h
  rw [isFinite_round] at hf
  rw [value_round, magnitude_round]
  cases neg with
  | false =>
    have hnum : (num.natAbs : Int) = num := by simpa using hsign
    simpa [hnum] using roundMag_nearest_signed num.natAbs den hd hf (natAbs_value z)
  | true =>
    have hnum : (num.natAbs : Int) = -num := by simpa using hsign
    have near := roundMag_nearest_signed num.natAbs den hd hf ((Int.natAbs_neg _).trans (natAbs_value z))
    have hflip : ∀ a : Int, |-a * den - -num| = |a * den - num| := fun a => by rw [← abs_neg]; congr 1; ring
    have hflip' : ∀ a : Int, |-a * den - num| = |a * den - -num| := fun a => by rw [← abs_neg]; congr 1; ring
    rw [hnum, hflip] at near
    simp only [if_true, hflip']
    exact ⟨near.1, fun he hne => near.2 he (fun hw => hne (by rw [← hw, neg_neg]))⟩

theorem RoundingOf.magnitude_eq {r : Sample} {num : Int} {den : Nat} (h : RoundingOf r num den) :
    magnitude r = roundMag num.natAbs den := by
  obtain ⟨neg, rfl, -⟩ := h
  exact magnitude_round _ _ _

theorem overflow64_pos : 0 < Claims.overflow64 := by decide +kernel

theorem RoundingOf.isFinite_iff_lt_overflow {r : Sample} {num : Int} {den : Nat} (h : RoundingOf r num den) (hd : 0 < den) :
    isFinite r = true ↔ |num| < Claims.overflow64 * den := by
  rw [isFinite_iff, h.magnitude_eq, roundMag_finite_iff hd, Int.abs_eq_natAbs, Claims.overflow64]
  exact_mod_cast Iff.rfl

theorem RoundingOf.eq_infinity {r : Sample} {num : Int} {den : Nat} (h : RoundingOf r num den) (hd : 0 < den)
    (hover : Claims.overflow64 * den ≤ |num|) : r = pack (decide (num < 0)) infMag := by
  have hden : (0 : Int) < Claims.overflow64 * den := mul_pos overflow64_pos (by omega)
  have hinf : magnitude r = infMag := by
    have hnot : ¬ magnitude r < infMag := by
      rw [← isFinite_iff, h.isFinite_iff_lt_overflow hd]; exact not_lt.mpr hover
    have := roundMag_le_inf num.natAbs den
    rw [h.magnitude_eq] at hnot ⊢
    omega
  obtain ⟨neg, hr, hsign⟩ := h
  rw [← pack_eta r, hinf, hr, negative_round]
  congr 1
  cases neg with
  | false =>
    have hnum : 0 ≤ num := by simpa using hsign
    exact (decide_eq_false (not_lt.mpr hnum)).symm
  | true =>
    have hnum : num ≤ 0 := by simpa using hsign
    have hne : num ≠ 0 := abs_pos.mp (hden.trans_le hover)
    exact (decide_eq_true (lt_of_le_of_ne hnum hne)).symm

theorem RoundingOf.rounded {r : Sample} {num : Int} {den : Nat} (h : RoundingOf r num den) (hd : 0 < den) :
    Claims.rounded r num den := by
  unfold Claims.rounded
  have hpos : (0 : Int) < Claims.overflow64 * den := mul_pos overflow64_pos (by omega)
  have hinf := h.eq_infinity hd
  have hfin := h.isFinite_iff_lt_overflow hd
  generalize Claims.overflow64 * (den : Int) = t at *
  refine ⟨fun hlt => ?_, fun hle => ?_, fun hle => ?_⟩
  · have hr := hfin.mpr hlt
    refine ⟨hr, fun z _ => ⟨(h.nearest hd hr z).1, fun he hne => ?_⟩⟩
    have heven := (h.nearest hd hr z).2 he hne
    rw [getLsbD_magnitude r (by decide), Nat.testBit_zero, heven]
    rfl
  · rw [hinf (hle.trans (le_abs_self num)), decide_eq_false (by omega)]
    rfl
  · rw [hinf (le_trans (by omega) (neg_le_abs num)), decide_eq_true (by omega)]
    rfl

end Sys2Proof.Machine.Binary64

namespace Sys2Proof.Machine

open Sys2Proof.Claims

/-- Settles O51: every operation is one rounding of its exact result, and one rounding is nearest. -/
theorem arithmeticIsNearest : Obligations.ArithmeticIsNearest := by
  unfold Obligations.ArithmeticIsNearest
  refine ⟨fun x y hx hy => ⟨?_, ?_, ?_, fun h => ?_⟩, fun n d hd => ?_, fun z => ?_⟩
  · exact (Binary64.roundingOf_add hx hy).rounded Nat.one_pos
  · exact (Binary64.roundingOf_sub hx hy).rounded Nat.one_pos
  · exact (Binary64.roundingOf_mul hx hy).rounded Binary64.one_pos
  · have hpos : 0 < Binary64.units y := by rw [← Binary64.natAbs_value]; exact Int.natAbs_pos.mpr h
    rw [show |units64 y| = (Binary64.units y : Int) from Binary64.abs_value y]
    exact (Binary64.roundingOf_div hx hy h).rounded hpos
  · exact (Binary64.roundingOf_lit n d).rounded hd
  · exact (Binary64.roundingOf_ofint z).rounded Nat.one_pos

end Sys2Proof.Machine

namespace Sys2Proof.Machine.Binary64

/-! Zero, one and a half (00_scope.md R9, laws N1 to N4 and N8). -/

theorem isFinite_whole {z : Int} (h : z.natAbs < 9007199254740992) : isFinite (lit z 1) = true := by
  rw [lit_one]; exact isFinite_ofint h

theorem value_whole {z : Int} (h : z.natAbs < 9007199254740992) : value (lit z 1) = z * (one : Int) := by
  rw [lit_one]; exact value_ofint h

theorem isFinite_lit_zero : isFinite (lit 0 1) = true := isFinite_whole (by decide)

@[simp] theorem value_lit_zero : value (lit 0 1) = 0 := by rw [value_whole (by decide), zero_mul]

theorem isFinite_lit_one : isFinite (lit 1 1) = true := isFinite_whole (by decide)

@[simp] theorem value_lit_one : value (lit 1 1) = (one : Int) := by rw [value_whole (by decide), one_mul]

theorem isFinite_lit_half : isFinite (lit 1 2) = true := by decide +kernel

theorem two_mul_value_lit_half : 2 * value (lit 1 2) = (one : Int) := by decide +kernel

theorem eq_of_value_eq {x y : Sample} (hx : isFinite x = true) (hy : isFinite y = true) (h : value x = value y) :
    eq x y = true := (eq_iff hx hy).mpr h

theorem eq_refl_of_isFinite {x : Sample} (hx : isFinite x = true) : eq x x = true := eq_of_value_eq hx hx rfl

/-- An operation whose exact result is represented answers a sample equal to it. -/
theorem RoundingOf.eq {r z : Sample} {num : Int} {den : Nat} (h : RoundingOf r num den) (hd : 0 < den)
    (hz : isFinite z = true) (heq : num = value z * den) : eq r z = true :=
  have ⟨hr, hv⟩ := h.exact hd hz heq
  eq_of_value_eq hr hz hv

theorem zero_add_eq {x : Sample} (hx : isFinite x = true) : eq (add (lit 0 1) x) x = true :=
  (roundingOf_add isFinite_lit_zero hx).eq Nat.one_pos hx (by simp)

theorem add_zero_eq {x : Sample} (hx : isFinite x = true) : eq (add x (lit 0 1)) x = true :=
  (roundingOf_add hx isFinite_lit_zero).eq Nat.one_pos hx (by simp)

theorem sub_zero_eq {x : Sample} (hx : isFinite x = true) : eq (sub x (lit 0 1)) x = true :=
  (roundingOf_sub hx isFinite_lit_zero).eq Nat.one_pos hx (by simp)

theorem zero_mul_eq {x : Sample} (hx : isFinite x = true) : eq (mul (lit 0 1) x) (lit 0 1) = true :=
  (roundingOf_mul isFinite_lit_zero hx).eq one_pos isFinite_lit_zero (by simp)

theorem mul_zero_eq {x : Sample} (hx : isFinite x = true) : eq (mul x (lit 0 1)) (lit 0 1) = true :=
  (roundingOf_mul hx isFinite_lit_zero).eq one_pos isFinite_lit_zero (by simp)

theorem one_mul_eq {x : Sample} (hx : isFinite x = true) : eq (mul (lit 1 1) x) x = true :=
  (roundingOf_mul isFinite_lit_one hx).eq one_pos hx (by rw [value_lit_one, mul_comm])

theorem mul_one_eq {x : Sample} (hx : isFinite x = true) : eq (mul x (lit 1 1)) x = true :=
  (roundingOf_mul hx isFinite_lit_one).eq one_pos hx (by rw [value_lit_one])

theorem div_one_eq {x : Sample} (hx : isFinite x = true) : eq (div x (lit 1 1)) x = true := by
  have hpos : (0 : Int) < one := by exact_mod_cast one_pos
  have hunits : units (lit 1 1) = one := by rw [← natAbs_value, value_lit_one, Int.natAbs_natCast]
  refine (roundingOf_div hx isFinite_lit_one (by rw [value_lit_one]; exact hpos.ne')).eq (hunits ▸ one_pos) hx ?_
  rw [value_lit_one, hunits, Int.sign_eq_one_of_pos hpos, mul_one]

theorem one_sub_one_eq : eq (sub (lit 1 1) (lit 1 1)) (lit 0 1) = true :=
  (roundingOf_sub isFinite_lit_one isFinite_lit_one).eq Nat.one_pos isFinite_lit_zero (by simp)

/-- A half of a sample is exact where it is represented: from 2^-1021 on, and below it where the last bit is 0. -/
theorem two_mul_value_half {x : Sample} (hx : isFinite x = true) (h : 2 ^ 53 ≤ |value x| ∨ value x % 2 = 0) :
    2 * value (mul (lit 1 2) x) = value x := by
  have hunits : 2 ^ 53 ≤ units x ∨ units x % 2 = 0 := by
    have := natAbs_value x
    rw [abs_value] at h
    omega
  obtain ⟨m, hm, hhalf⟩ := magUnits_half ((isFinite_iff x).mp hx) hunits
  have hlt : m < 0x8000000000000000 := hm.trans (by decide)
  have hfin : isFinite (pack (negative x) m) = true := by rw [isFinite_iff, magnitude_pack hlt]; exact hm
  have htwice : value x = 2 * value (pack (negative x) m) := by
    rw [value_pack hlt, value, units, ← hhalf]
    split <;> push_cast <;> ring
  have hexact : value (lit 1 2) * value x = value (pack (negative x) m) * (one : Int) := by
    rw [htwice, ← two_mul_value_lit_half]; ring
  rw [((roundingOf_mul isFinite_lit_half hx).exact one_pos hfin hexact).2, htwice]

/-! Negation and absolute value (00_scope.md R6). -/

theorem neg_of_not_isNaN {x : Sample} (hx : isNaN x = false) : neg x = flip x := by
  rw [neg, hx]
  rfl

theorem abs_of_not_isNaN {x : Sample} (hx : isNaN x = false) : abs x = pack false (magnitude x) := by
  rw [abs, hx]
  rfl

theorem value_pack_magnitude (x : Sample) : value (pack false (magnitude x)) = |value x| := by
  rw [value_pack (magnitude_lt x), abs_value]
  rfl

theorem isFinite_pack_magnitude (s : Bool) {x : Sample} (hx : isFinite x = true) :
    isFinite (pack s (magnitude x)) = true := by
  rw [isFinite_iff, magnitude_pack (magnitude_lt x)]
  exact (isFinite_iff x).mp hx

/-! Integers and fractions (laws N10 and N11). -/

theorem abs_value_le_of_le_whole {x : Sample} (hx : isFinite x = true) {k : Int} (hk : k.natAbs < 9007199254740992)
    (h : le (abs x) (lit k 1) = true) : |value x| ≤ k * (one : Int) := by
  rwa [abs_of_not_isNaN (not_isNaN_of_isFinite hx), le_iff (isFinite_pack_magnitude false hx) (isFinite_whole hk),
    value_whole hk, value_pack_magnitude] at h

/-- The difference of a finite sample and its floor lies in [0, 1), before it is rounded. -/
theorem value_sub_floor_bounds {x : Sample} (hx : isFinite x = true) :
    0 ≤ value x - ifloor x * (one : Int) ∧ value x - ifloor x * (one : Int) < one := by
  have hle := ifloor_le hx
  have hlt := lt_ifloor_succ hx
  rw [add_mul, one_mul] at hlt
  constructor <;> linarith

theorem abs_ifloor_le {x : Sample} (hx : isFinite x = true) {k : Int} (h : |value x| ≤ k * (one : Int)) :
    |ifloor x| ≤ k := by
  obtain ⟨hlo, hhi⟩ := abs_le.mp h
  have hpos : (0 : Int) < one := by exact_mod_cast one_pos
  have hup : ifloor x ≤ k := le_of_mul_le_mul_right ((ifloor_le hx).trans hhi) hpos
  have hdown : -k < ifloor x + 1 :=
    lt_of_mul_lt_mul_right (by rw [neg_mul]; exact hlo.trans_lt (lt_ifloor_succ hx)) hpos.le
  exact abs_le.mpr ⟨Int.le_of_lt_add_one hdown, hup⟩

/-- The computed difference from the floor is in [0, 1]. -/
theorem fraction_bounds {x : Sample} (hx : isFinite x = true) (hf : (ifloor x).natAbs < 9007199254740992) :
    0 ≤ value (sub x (ofint (ifloor x))) ∧ value (sub x (ofint (ifloor x))) ≤ (one : Int) := by
  have hfin := isFinite_ofint hf
  obtain ⟨hlo, hhi⟩ := value_sub_floor_bounds hx
  have hsum : value x + value (flip (ofint (ifloor x))) = value x - ifloor x * (one : Int) := by
    rw [value_flip, value_ofint hf, sub_eq_add_neg]
  have hb := value_add_bounds hx ((isFinite_flip _).trans hfin) (lo := 0) (hi := 1) (by decide) (by decide)
    (by rw [hsum, zero_mul]; exact hlo) (by rw [hsum, one_mul]; exact hhi.le)
  rw [← sub_eq_add_flip hx hfin, zero_mul, one_mul] at hb
  exact hb.2

/-- From 0 on the difference from the floor is represented, so it is exact. -/
theorem fraction_exact {x : Sample} (hx : isFinite x = true) (hf : (ifloor x).natAbs < 9007199254740992)
    (hpos : 0 ≤ value x) : value (sub x (ofint (ifloor x))) = value x - ifloor x * (one : Int) := by
  obtain ⟨m, hm, hmod⟩ := magUnits_fraction hx
  have hlt : m < 0x8000000000000000 := hm.trans (by decide)
  have hfin : isFinite (pack false m) = true := by rw [isFinite_iff, magnitude_pack hlt]; exact hm
  have hunits : value x = units x := by rw [← abs_value, abs_of_nonneg hpos]
  have hfrac : value x - ifloor x * (one : Int) = value (pack false m) := by
    rw [value_pack hlt, ifloor, if_pos hx, hunits, hmod, mul_comm, ← Int.emod_def]
    exact (Int.natCast_mod _ _).symm
  have hround := roundingOf_sub hx (isFinite_ofint hf)
  rw [value_ofint hf] at hround
  rw [(hround.exact Nat.one_pos hfin (by rw [hfrac, Nat.cast_one, mul_one])).2, hfrac]

end Sys2Proof.Machine.Binary64

namespace Sys2Proof.Machine

open Sys2Proof.Claims

/-- Settles O52: each exact result is represented, so one rounding keeps it. -/
theorem lawsOfZeroAndOne : Obligations.LawsOfZeroAndOne := by
  unfold Obligations.LawsOfZeroAndOne
  simp only [ref64_isfin, ref64_eq, ref64_add, ref64_sub, ref64_mul, ref64_div, ref64_lit]
  refine ⟨fun x hx => ?_, Binary64.one_sub_one_eq, Binary64.sub_zero_eq Binary64.isFinite_lit_one⟩
  exact ⟨Binary64.zero_add_eq hx, Binary64.add_zero_eq hx, Binary64.sub_zero_eq hx, Binary64.zero_mul_eq hx,
    Binary64.mul_zero_eq hx, Binary64.one_mul_eq hx, Binary64.mul_one_eq hx, Binary64.div_one_eq hx,
    Binary64.two_mul_value_half hx⟩

/-- Settles O55: an integer below 2^53 is represented. -/
theorem lawOfIntegers : Obligations.LawOfIntegers := by
  unfold Obligations.LawOfIntegers
  intro z hz
  have hsmall : z.natAbs < 9007199254740992 := by rw [Int.abs_eq_natAbs] at hz; omega
  exact ⟨Binary64.value_ofint hsmall, Binary64.isFinite_ofint hsmall, Binary64.ifloor_ofint hsmall,
    Binary64.iceil_ofint hsmall, Binary64.itrunc_ofint hsmall⟩

/-- Settles O56: the rounded difference keeps the bounds of the exact one, and from 0 on it is the exact one. -/
theorem lawOfFractions : Obligations.LawOfFractions := by
  unfold Obligations.LawOfFractions
  simp only [ref64_isfin, ref64_le, ref64_abs, ref64_lit, ref64_sub, ref64_ofint, ref64_ifloor]
  refine ⟨fun x hx hsize => ?_, by decide +kernel⟩
  have hfloor := Binary64.abs_ifloor_le hx (Binary64.abs_value_le_of_le_whole hx (by decide) hsize)
  have hf : (Binary64.ifloor x).natAbs < 9007199254740992 := by rw [Int.abs_eq_natAbs] at hfloor; omega
  obtain ⟨hlo, hhi⟩ := Binary64.fraction_bounds hx hf
  refine ⟨hlo, hhi, fun hnonneg => ?_⟩
  have hpos : 0 ≤ Binary64.value x := by
    rw [← Binary64.value_lit_zero]
    exact (Binary64.le_iff Binary64.isFinite_lit_zero hx).mp hnonneg
  have hexact := Binary64.fraction_exact hx hf hpos
  exact ⟨hexact, hexact.trans_lt (Binary64.value_sub_floor_bounds hx).2⟩

end Sys2Proof.Machine

namespace Sys2Proof.Machine.Binary64

/-! Rounding to integers (00_scope.md R6, R7). -/

/-- The ceiling of a finite sample lies above it, by less than 1. -/
theorem iceil_bounds {x : Sample} (hx : isFinite x = true) :
    (iceil x - 1) * (one : Int) < value x ∧ value x ≤ iceil x * (one : Int) := by
  have hpos : (0 : Int) < one := by exact_mod_cast one_pos
  have hle : -value x / (one : Int) * one ≤ -value x := Int.ediv_mul_le _ hpos.ne'
  have hlt : -value x < (-value x / (one : Int) + 1) * one := Int.lt_ediv_add_one_mul_self _ hpos
  rw [iceil, if_pos hx]
  constructor <;> linarith

/-- Truncation of a finite sample is the floor from 0 on, and the ceiling below. -/
theorem itrunc_eq {x : Sample} (hx : isFinite x = true) :
    itrunc x = if 0 ≤ value x then ifloor x else iceil x := by
  rw [itrunc, ifloor, iceil, if_pos hx, if_pos hx, if_pos hx]
  cases hneg : negative x with
  | false =>
    rw [if_neg Bool.false_ne_true, if_pos (value_nonneg_of_not_negative hneg), value, hneg, if_neg Bool.false_ne_true]
    exact Int.natCast_div _ _
  | true =>
    have hv : value x = -(units x : Int) := by rw [value, hneg, if_pos rfl]
    rw [if_pos rfl, hv, neg_neg, Int.natCast_div]
    split
    · rename_i h
      have hzero : units x = 0 := by omega
      rw [hzero]; simp
    · rfl

/-- `rint` of a finite sample keeps its sign. -/
theorem rint_of_isFinite {x : Sample} (hx : isFinite x = true) :
    rint x = round (negative x) (nearestEven (units x) one * one) 1 := by
  rw [rint, not_isNaN_of_isFinite hx, not_isInf_of_isFinite hx]
  rfl

theorem isFinite_rint {x : Sample} (hx : isFinite x = true) : isFinite (rint x) = true := by
  rw [rint_of_isFinite hx, isFinite_round]
  exact (roundMag_nearest_whole x hx).1

theorem negative_rint {x : Sample} (hx : isFinite x = true) : negative (rint x) = negative x := by
  rw [rint_of_isFinite hx, negative_round]

/-- `rint` of a finite sample is an integer at most a half away, the even one of two. -/
theorem value_rint {x : Sample} (hx : isFinite x = true) :
    ∃ z : Int, value (rint x) = z * (one : Int) ∧ 2 * |value x - z * (one : Int)| ≤ one ∧
      (2 * |value x - z * (one : Int)| = one → z % 2 = 0) := by
  obtain ⟨herr, htie⟩ := nearestEven_error (units x) one one_pos
  have hval : value (rint x) =
      if negative x then -((nearestEven (units x) one * one : Nat) : Int) else (nearestEven (units x) one * one : Nat) := by
    rw [rint_of_isFinite hx, value_round, (roundMag_nearest_whole x hx).2]
  generalize nearestEven (units x) one = q at *
  cases hneg : negative x with
  | false =>
    refine ⟨q, by simp [hval, hneg], ?_⟩
    rw [value, hneg, if_neg Bool.false_ne_true]
    exact ⟨herr, fun h => by have := htie h; omega⟩
  | true =>
    refine ⟨-q, by simp [hval, hneg], ?_⟩
    have hflip : -(units x : Int) - -q * (one : Int) = -((units x : Int) - q * one) := by ring
    rw [value, hneg, if_pos rfl, hflip, abs_neg]
    exact ⟨herr, fun h => by have := htie h; omega⟩

/-- A sample is finite, an infinity or a NaN. -/
theorem isInf_of_not {x : Sample} (hfin : isFinite x = false) (hnan : isNaN x = false) : isInf x = true := by
  simp only [isFinite, isNaN, isInf, decide_eq_false_iff_not, decide_eq_true_eq] at *
  omega

theorem rint_of_isInf {x : Sample} (hnan : isNaN x = false) (hinf : isInf x = true) : rint x = x := by
  rw [rint, hnan, hinf]
  rfl

/-! Comparisons and signs (00_scope.md R6). -/

theorem lt_of_isNaN {x y : Sample} (h : isNaN x = true ∨ isNaN y = true) : lt x y = false := by
  rcases h with h | h <;> simp [lt, h]

theorem le_of_isNaN {x y : Sample} (h : isNaN x = true ∨ isNaN y = true) : le x y = false := by
  rcases h with h | h <;> simp [le, h]

theorem eq_of_isNaN {x y : Sample} (h : isNaN x = true ∨ isNaN y = true) : eq x y = false := by
  rcases h with h | h <;> simp [eq, h]

section

variable {x y : Sample} (hx : isNaN x = false) (hy : isNaN y = false)

include hx hy

theorem lt_iff_key : lt x y = true ↔ key x < key y := by simp [lt, hx, hy]

theorem le_iff_key : le x y = true ↔ key x ≤ key y := by simp [le, hx, hy]

theorem eq_iff_key : eq x y = true ↔ key x = key y := by simp [eq, hx, hy]

/-- The order of the samples that are no NaN is total. -/
theorem lt_iff_not_le : lt x y = true ↔ le y x = false := by
  rw [lt_iff_key hx hy, ← Bool.not_eq_true, le_iff_key hy hx, not_le]

theorem eq_iff_le_le : eq x y = true ↔ le x y = true ∧ le y x = true := by
  rw [eq_iff_key hx hy, le_iff_key hx hy, le_iff_key hy hx, le_antisymm_iff]

end

theorem abs_key (x : Sample) : |key x| = magnitude x := by
  unfold key
  split <;> simp

theorem abs_key_le_infMag {x : Sample} (hx : isNaN x = false) : |key x| ≤ infMag := by
  rw [abs_key]
  simpa [isNaN] using hx

theorem abs_key_lt_infMag {x : Sample} (hx : isFinite x = true) : |key x| < infMag := by
  rw [abs_key]
  exact_mod_cast (isFinite_iff x).mp hx

theorem key_infinity : key 0x7FF0000000000000#64 = infMag := by decide +kernel

theorem key_neg_infinity : key 0xFFF0000000000000#64 = -infMag := by decide +kernel

theorem isNaN_infinity : isNaN 0x7FF0000000000000#64 = false := by decide +kernel

theorem isNaN_neg_infinity : isNaN 0xFFF0000000000000#64 = false := by decide +kernel

/-- The infinities are the ends of the order. -/
theorem le_infinity {x : Sample} (hx : isNaN x = false) :
    le x 0x7FF0000000000000#64 = true ∧ le 0xFFF0000000000000#64 x = true := by
  obtain ⟨hlo, hhi⟩ := abs_le.mp (abs_key_le_infMag hx)
  rw [le_iff_key hx isNaN_infinity, le_iff_key isNaN_neg_infinity hx, key_infinity, key_neg_infinity]
  exact ⟨hhi, hlo⟩

theorem lt_infinity {x : Sample} (hx : isFinite x = true) :
    lt x 0x7FF0000000000000#64 = true ∧ lt 0xFFF0000000000000#64 x = true := by
  have hnan := not_isNaN_of_isFinite hx
  obtain ⟨hlo, hhi⟩ := abs_lt.mp (abs_key_lt_infMag hx)
  rw [lt_iff_key hnan isNaN_infinity, lt_iff_key isNaN_neg_infinity hnan, key_infinity, key_neg_infinity]
  exact ⟨hhi, hlo⟩

theorem getLsbD_pack_sign {s : Bool} {m : Nat} (hm : m < 0x8000000000000000) : (pack s m).getLsbD 63 = s := by
  rw [getLsbD_sign, negative_pack hm]

/-- The bits below the sign do not depend on it. -/
theorem getLsbD_pack_magnitude (s : Bool) (x : Sample) {b : Nat} (hb : b < 63) :
    (pack s (magnitude x)).getLsbD b = x.getLsbD b := by
  rw [getLsbD_magnitude _ hb, getLsbD_magnitude _ hb, magnitude_pack (magnitude_lt x)]

end Sys2Proof.Machine.Binary64

namespace Sys2Proof.Machine

open Sys2Proof.Claims

/-- Settles O57: `rint` rounds the units to the nearest whole number, which is represented. -/
theorem roundingToIntegers : Obligations.RoundingToIntegers := by
  unfold Obligations.RoundingToIntegers
  simp only [ref64_isfin, ref64_ifloor, ref64_iceil, ref64_itrunc, ref64_rint]
  refine ⟨fun x hx => ?_, fun x hfin hnan => Binary64.rint_of_isInf hnan (Binary64.isInf_of_not hfin hnan)⟩
  exact ⟨⟨Binary64.ifloor_le hx, Binary64.lt_ifloor_succ hx⟩, Binary64.iceil_bounds hx, Binary64.itrunc_eq hx,
    Binary64.isFinite_rint hx, by rw [Binary64.getLsbD_sign, Binary64.getLsbD_sign, Binary64.negative_rint hx],
    Binary64.value_rint hx⟩

/-- Settles O58: a comparison compares the keys, which grow with the numbers and end at the infinities. -/
theorem comparisonsAndSigns : Obligations.ComparisonsAndSigns := by
  unfold Obligations.ComparisonsAndSigns
  simp only [ref64_isfin, ref64_lt, ref64_le, ref64_eq, ref64_neg, ref64_abs]
  refine ⟨fun x y h => ?_, fun x y hx hy => ?_, fun x y hx hy => ?_, fun x hx => ?_⟩
  · exact ⟨Binary64.lt_of_isNaN h, Binary64.le_of_isNaN h, Binary64.eq_of_isNaN h⟩
  · exact ⟨Binary64.lt_iff hx hy, Binary64.le_iff hx hy, Binary64.eq_iff hx hy⟩
  · obtain ⟨hhi, hlo⟩ := Binary64.le_infinity hx
    exact ⟨hhi, hlo, Binary64.lt_infinity, Binary64.lt_iff_not_le hx hy, Binary64.eq_iff_le_le hx hy⟩
  · rw [Binary64.neg_of_not_isNaN hx, Binary64.abs_of_not_isNaN hx]
    have hm := Binary64.magnitude_lt x
    refine ⟨?_, Binary64.getLsbD_pack_sign hm, fun b hb => ⟨?_, ?_⟩, Binary64.value_flip x,
      Binary64.value_pack_magnitude x⟩
    · rw [Binary64.getLsbD_sign x]; exact Binary64.getLsbD_pack_sign hm
    · exact Binary64.getLsbD_pack_magnitude _ x hb
    · exact Binary64.getLsbD_pack_magnitude _ x hb

end Sys2Proof.Machine

namespace Sys2Proof.Machine.Binary64

theorem isNaN_pack_magnitude (s : Bool) (x : Sample) : isNaN (pack s (magnitude x)) = isNaN x := by
  rw [isNaN, isNaN, magnitude_pack (magnitude_lt x)]

theorem not_isNaN_of_le {x y : Sample} (h : le x y = true) : isNaN x = false := by
  by_contra hx
  rw [le_of_isNaN (.inl (by simpa using hx))] at h
  cases h

/-- The zeros are the samples that are equal to 0. -/
theorem isZero_eq_eq_lit_zero (x : Sample) : eq x (lit 0 1) = isZero x := by
  have hkey : key (lit 0 1) = 0 := by decide +kernel
  have hnan : isNaN (lit 0 1) = false := not_isNaN_of_isFinite isFinite_lit_zero
  rw [Bool.eq_iff_iff]
  by_cases hx : isNaN x = true
  · have : isZero x = false := by
      simp only [isNaN, isZero, decide_eq_true_eq, decide_eq_false_iff_not] at *
      omega
    simp [eq_of_isNaN (.inl hx), this]
  · rw [eq_iff_key (by simpa using hx) hnan, hkey, ← abs_eq_zero, abs_key, isZero, decide_eq_true_eq]
    exact Int.natCast_eq_zero

theorem isZero_sub {x y : Sample} (hx : isFinite x = true) (hy : isFinite y = true) (h : value x = value y) :
    isZero (sub x y) = true := by
  rw [sub_eq_add_flip hx hy]
  exact isZero_add hx ((isFinite_flip y).trans hy) (by rw [value_flip, h, add_neg_cancel])

theorem isZero_sub_zeros {x y : Sample} (hx : isZero x = true) (hy : isZero y = true) : isZero (sub x y) = true :=
  isZero_sub (isFinite_of_isZero hx) (isFinite_of_isZero hy) (by rw [value_of_isZero hx, value_of_isZero hy])

theorem isZero_add_zeros {x y : Sample} (hx : isZero x = true) (hy : isZero y = true) : isZero (add x y) = true :=
  isZero_add (isFinite_of_isZero hx) (isFinite_of_isZero hy) (by rw [value_of_isZero hx, value_of_isZero hy, add_zero])

end Sys2Proof.Machine.Binary64

namespace Sys2Proof.Machine

open Sys2Proof.Claims

/-! The functions of the configuration, held to laws N5 to N7 and N9 of 00_scope.md R9. -/

theorem isZero_zeroOf (x : Sample) : Binary64.isZero (zeroOf x) = true := by
  rcases zeroOf_cases x with h | h <;> rw [h] <;> decide

theorem isZero_lawfulUnit (f : Sample → Sample) {x : Sample} (hx : Binary64.isZero x = true) :
    Binary64.isZero (lawfulUnit f x) = true := by
  rcases lawfulUnit_of_zero f hx with h | h <;> rw [h] <;> decide

theorem abs_le_one_of_isZero {x : Sample} (hx : Binary64.isZero x = true) :
    Binary64.le (Binary64.abs x) (Binary64.lit 1 1) = true := by
  have hm : Binary64.magnitude x = 0 := by simpa [Binary64.isZero] using hx
  rw [Binary64.abs_of_not_isNaN (Binary64.not_isNaN_of_isFinite (Binary64.isFinite_of_isZero hx)), hm]
  decide +kernel

/-- Law N6: what is configured above 1 in size is replaced. -/
theorem abs_lawfulUnit_le_one (f : Sample → Sample) {x : Sample} (hx : Binary64.isFinite x = true) :
    Binary64.le (Binary64.abs (lawfulUnit f x)) (Binary64.lit 1 1) = true := by
  rw [lawfulUnit, if_pos hx]
  split
  · exact abs_le_one_of_isZero (isZero_zeroOf _)
  · split
    · rename_i hle
      have hnan := Binary64.not_isNaN_of_le hle
      rw [Binary64.isNaN_pack_magnitude] at hnan
      rw [Binary64.abs_of_not_isNaN hnan, Binary64.lit_one]
      exact hle
    · exact abs_le_one_of_isZero (by decide +kernel)

/-- Law N7: at the integers 1 to 16 the power is the integer, whatever is configured. -/
theorem lawfulPow2_ofint (f : Sample → Sample) {k : Nat} (h1 : 1 ≤ k) (h16 : k ≤ 16) :
    lawfulPow2 f (Binary64.ofint k) = Binary64.ofint (2 ^ k) := by
  have hk : (k : Int).natAbs < 9007199254740992 := by rw [Int.natAbs_natCast]; omega
  have hfin := Binary64.isFinite_ofint hk
  rw [lawfulPow2, Binary64.itrunc_ofint hk, hfin, Binary64.eq_refl_of_isFinite hfin, decide_eq_true (by omega),
    decide_eq_true (by omega), Int.toNat_natCast, Nat.one_shiftLeft]
  simp

theorem ref64_pow2_ofint {k : Nat} (h1 : 1 ≤ k) (h16 : k ≤ 16) :
    ref64.pow2 (Binary64.ofint k) = Binary64.ofint (2 ^ k) := lawfulPow2_ofint _ h1 h16

theorem two_pow_lt {k : Nat} (h16 : k ≤ 16) : ((2 : Int) ^ k).natAbs < 9007199254740992 := by
  rw [Int.natAbs_pow]
  exact (Nat.pow_le_pow_right (by decide) h16).trans_lt (by decide)

theorem isZero_lawfulDft (f : (L : Nat) → (Fin L → Sample) → Fin L → Sample × Sample) {L : Nat} {v : Fin L → Sample}
    (hv : ∀ i, Binary64.isZero (v i) = true) (k : Fin L) :
    Binary64.isZero (lawfulDft f L v k).1 = true ∧ Binary64.isZero (lawfulDft f L v k).2 = true := by
  rw [lawfulDft, if_pos (by simpa using hv)]
  exact ⟨isZero_zeroOf _, isZero_zeroOf _⟩

theorem isZero_lawfulIdft (f : (L : Nat) → (Fin L → Sample × Sample) → Fin L → Sample × Sample) {L : Nat}
    {y : Fin L → Sample × Sample} (hy : ∀ i, Binary64.isZero (y i).1 = true ∧ Binary64.isZero (y i).2 = true) (n : Fin L) :
    Binary64.isZero (lawfulIdft f L y n).1 = true ∧ Binary64.isZero (lawfulIdft f L y n).2 = true := by
  rw [lawfulIdft, if_pos (by simpa using hy)]
  exact ⟨isZero_zeroOf _, isZero_zeroOf _⟩

/-- A zero times a finite pair is a zero pair: all four products are zeros. -/
theorem isZero_cmul {a b : Sample × Sample} (ha1 : Binary64.isZero a.1 = true) (ha2 : Binary64.isZero a.2 = true)
    (hb1 : Binary64.isFinite b.1 = true) (hb2 : Binary64.isFinite b.2 = true) :
    Binary64.isZero (ref64.cmul a b).1 = true ∧ Binary64.isZero (ref64.cmul a b).2 = true := by
  exact ⟨Binary64.isZero_sub_zeros (Binary64.isZero_mul_left ha1 hb1) (Binary64.isZero_mul_left ha2 hb2),
    Binary64.isZero_add_zeros (Binary64.isZero_mul_left ha1 hb2) (Binary64.isZero_mul_left ha2 hb1)⟩

theorem isZero_lit_zero : Binary64.isZero (Binary64.lit 0 1) = true := by decide +kernel

theorem isZero_rint_zero : Binary64.isZero (Binary64.rint (Binary64.lit 0 1)) = true := by decide +kernel

/-- Settles O53: a configured result outside the laws is replaced by a lawful one. -/
theorem lawsOfTranscendentals : Obligations.LawsOfTranscendentals := by
  unfold Obligations.LawsOfTranscendentals
  simp only [ref64_eq, ref64_lit, ref64_rint, ref64_isfin, ref64_le, ref64_abs, ref64_ofint, Binary64.isZero_eq_eq_lit_zero]
  refine ⟨⟨?_, ?_, isZero_rint_zero⟩, fun x hx => ⟨?_, ?_⟩, fun k h1 h16 => ?_⟩
  · exact isZero_lawfulUnit _ isZero_lit_zero
  · exact isZero_lawfulUnit _ isZero_lit_zero
  · exact abs_lawfulUnit_le_one _ hx
  · exact abs_lawfulUnit_le_one _ hx
  · rw [ref64_pow2_ofint h1 h16, Binary64.lit_one]
    exact Binary64.eq_refl_of_isFinite (Binary64.isFinite_ofint (two_pow_lt h16))

/-- Settles O54: a transform of zeros is replaced by zeros, and a zero times a finite sample is a zero. -/
theorem lawOfTransforms : Obligations.LawOfTransforms := by
  unfold Obligations.LawOfTransforms
  exact ⟨fun L v hv k => isZero_lawfulDft _ hv k, fun L y hy n => isZero_lawfulIdft _ hy n,
    fun a b ha1 ha2 hb1 hb2 => isZero_cmul ha1 ha2 hb1 hb2⟩

/-! The record of REF64 has the laws (00_scope.md R9), with samples read as rational numbers. -/

theorem ref64_isZero (x : Sample) : ref64.isZero x = Binary64.isZero x := Binary64.isZero_eq_eq_lit_zero x

theorem one64_pos : (0 : ℚ) < (one64 : ℚ) := by exact_mod_cast Binary64.one_pos

theorem number64_eq_iff {x : Sample} {q : ℚ} : number64 x = q ↔ (units64 x : ℚ) = q * (one64 : ℚ) := by
  rw [number64, div_eq_iff one64_pos.ne']

theorem number64_ofint {z : Int} (hz : z.natAbs < 9007199254740992) : number64 (Binary64.ofint z) = z := by
  rw [number64_eq_iff, show units64 (Binary64.ofint z) = z * one64 from Binary64.value_ofint hz, Int.cast_mul]

theorem one64_eq : (one64 : ℚ) = 2 ^ 53 * 2 ^ 1021 := by
  obtain ⟨e, he, hone⟩ : ∃ e, e = 53 + 1021 ∧ Binary64.one = 1 <<< e := ⟨1074, rfl, rfl⟩
  rw [Int.cast_natCast, hone, Nat.one_shiftLeft, Nat.cast_pow, Nat.cast_ofNat, he, pow_add]

/-- A size of 2^-1021 is 2^53 units. -/
theorem units64_of_tiny_le {x : Sample} (h : 1 / 2 ^ 1021 ≤ |number64 x|) : 2 ^ 53 ≤ |units64 x| := by
  rw [number64, abs_div, abs_of_pos one64_pos, le_div_iff₀ one64_pos, one64_eq, mul_comm, mul_assoc,
    mul_one_div_cancel (by positivity), mul_one] at h
  exact_mod_cast h

theorem number64_half {x : Sample} (hx : Binary64.isFinite x = true) (h : 1 / 2 ^ 1021 ≤ |number64 x|) :
    number64 (Binary64.mul (Binary64.lit 1 2) x) = number64 x / 2 := by
  have hhalf : 2 * units64 (Binary64.mul (Binary64.lit 1 2) x) = units64 x :=
    Binary64.two_mul_value_half hx (.inl (units64_of_tiny_le h))
  rw [number64_eq_iff, number64, ← hhalf, Int.cast_mul, Int.cast_ofNat]
  have := one64_pos.ne'
  field_simp

/-- Settles O59: laws N1 to N10 one by one, from the lemmas on each operation. -/
theorem referenceIsLawful : Obligations.ReferenceIsLawful := by
  unfold Obligations.ReferenceIsLawful
  constructor <;> simp only [Num.whole, ref64_isZero, ref64_isfin, ref64_eq, ref64_le, ref64_lit, ref64_add, ref64_sub,
    ref64_mul, ref64_div, ref64_abs, ref64_rint, ref64_ofint, ref64_ifloor, ref64_iceil, ref64_itrunc]
  case sumWithZero => exact fun x hx => ⟨Binary64.zero_add_eq hx, Binary64.add_zero_eq hx, Binary64.sub_zero_eq hx⟩
  case productWithZero =>
    exact fun x hx => ⟨Binary64.isZero_mul_left isZero_lit_zero hx, Binary64.isZero_mul_right hx isZero_lit_zero⟩
  case productWithOne => exact fun x hx => ⟨Binary64.one_mul_eq hx, Binary64.mul_one_eq hx, Binary64.div_one_eq hx⟩
  case oneMinus =>
    exact ⟨Binary64.isZero_sub Binary64.isFinite_lit_one Binary64.isFinite_lit_one rfl,
      Binary64.sub_zero_eq Binary64.isFinite_lit_one⟩
  case ofZero => exact ⟨isZero_lawfulUnit _ isZero_lit_zero, isZero_lawfulUnit _ isZero_lit_zero, isZero_rint_zero⟩
  case unitBound => exact fun x hx => ⟨abs_lawfulUnit_le_one _ hx, abs_lawfulUnit_le_one _ hx⟩
  case powers =>
    intro k h1 h16
    rw [ref64_pow2_ofint h1 h16, number64_ofint (two_pow_lt h16)]
    exact ⟨Binary64.isFinite_ofint (two_pow_lt h16), by push_cast; rfl⟩
  case half => exact fun x hx h => number64_half hx h
  case transformOfZeros => exact fun L v hv k => isZero_lawfulDft _ hv k
  case inverseOfZeros => exact fun L y hy n => isZero_lawfulIdft _ hy n
  case complexZero => exact fun a b ha1 ha2 hb1 hb2 => isZero_cmul ha1 ha2 hb1 hb2
  case integers =>
    intro z hz
    have hsmall : z.natAbs < 9007199254740992 := by rw [Int.abs_eq_natAbs] at hz; omega
    exact ⟨Binary64.isFinite_ofint hsmall, number64_ofint hsmall, Binary64.ifloor_ofint hsmall,
      Binary64.iceil_ofint hsmall, Binary64.itrunc_ofint hsmall⟩

/-- Settles O50, by evaluating the twelve literals. -/
theorem literalTable : Obligations.LiteralTable := by
  unfold Obligations.LiteralTable
  decide +kernel

/-- Settles O7: the line at the head of the script says which agent moves, and how. -/
theorem stepPerformsBusOperation : Obligations.StepPerformsBusOperation := by
  unfold Obligations.StepPerformsBusOperation
  intro s rest
  refine ⟨fun a h => ?_, fun a w h => ?_, fun h => ?_, fun hp h => ?_, fun hp h => ?_⟩ <;> rw [step, agentStep, h]
  · rfl
  · rfl
  · rfl
  · simp [engineStep, withScript, hp]
  · simp [engineStep, hp]

end Sys2Proof.Machine

namespace Sys2Proof.Machine

/-! The record of EXACT (00_scope.md R8) and the transforms of R16. -/

/-- A complex number as the pair of its parts, the form a transform's element has in the record. -/
def partsOf (z : ℂ) : ℝ × ℝ := (z.re, z.im)

/-- The root of unity of R16: the factor of a transform is a power of it. -/
noncomputable def dftRoot (L : Nat) : ℂ := Complex.exp (2 * Real.pi * Complex.I / L)

theorem isPrimitiveRoot_dftRoot {L : Nat} (hL : L ≠ 0) : IsPrimitiveRoot (dftRoot L) L :=
  Complex.isPrimitiveRoot_exp L hL

theorem dftRoot_zpow (L : Nat) (j : Int) : dftRoot L ^ j = Complex.exp (2 * Real.pi * Complex.I * j / L) := by
  rw [dftRoot, ← Complex.exp_int_mul]
  congr 1
  ring

/-- Element `k` of `DFT` of R16, as a complex number. -/
noncomputable def dftSum {L : Nat} (v : Fin L → ℝ) (k : Fin L) : ℂ :=
  ∑ a : Fin L, (v a : ℂ) * dftRoot L ^ (-(k.val * a.val : Int))

theorem exactDft_eq {L : Nat} (v : Fin L → ℝ) (k : Fin L) : exactDft L v k = partsOf (dftSum v k) := by
  have hterm : ∀ a : Fin L, Complex.exp (-(2 * Real.pi * Complex.I * k.val * a.val / L)) =
      dftRoot L ^ (-(k.val * a.val : Int)) := by
    intro a
    rw [dftRoot_zpow]
    congr 1
    push_cast
    ring
  simp only [exactDft, hterm]
  rfl

theorem exactIdft_eq {L : Nat} (z : Fin L → ℂ) (n : Fin L) :
    exactIdft L (fun k => partsOf (z k)) n =
      partsOf (1 / L * ∑ k : Fin L, z k * dftRoot L ^ (k.val * n.val : Int)) := by
  have hterm : ∀ k : Fin L, Complex.exp (2 * Real.pi * Complex.I * k.val * n.val / L) =
      dftRoot L ^ (k.val * n.val : Int) := by
    intro k
    rw [dftRoot_zpow]
    congr 1
    push_cast
    ring
  simp only [exactIdft, hterm]
  rfl

/-- `cmul` of 00_scope.md R6 is the product of complex numbers. -/
theorem exact_cmul (a b : ℂ) : exact.cmul (partsOf a) (partsOf b) = partsOf (a * b) := rfl

/-- The powers of an `L`-th root of unity sum to `L` or, when it is not 1, to 0. -/
theorem sum_dftRoot_pow {L : Nat} (hL : L ≠ 0) (j : Int) :
    ∑ k : Fin L, dftRoot L ^ (k.val * j : Int) = if (L : Int) ∣ j then (L : ℂ) else 0 := by
  have hroot := isPrimitiveRoot_dftRoot hL
  have hpow : ∀ k : Fin L, dftRoot L ^ (k.val * j : Int) = (dftRoot L ^ j) ^ k.val := fun k => by
    rw [mul_comm, zpow_mul, zpow_natCast]
  simp only [hpow]
  rw [Fin.sum_univ_eq_sum_range (fun k => (dftRoot L ^ j) ^ k) L]
  split
  · rename_i h
    simp [(hroot.zpow_eq_one_iff_dvd j).mpr h]
  · rename_i h
    have hne : dftRoot L ^ j ≠ 1 := fun h1 => h ((hroot.zpow_eq_one_iff_dvd j).mp h1)
    rw [geom_sum_eq hne, ← zpow_natCast, ← zpow_mul, mul_comm, zpow_mul, zpow_natCast, hroot.pow_eq_one, one_zpow,
      sub_self, zero_div]

/-- The index of the circular convolution of N12, `(n - m) mod L`. -/
def circularIndex {L : Nat} (n m : Fin L) : Fin L :=
  ⟨(n.val + (L - m.val)) % L, Nat.mod_lt _ (Nat.lt_of_le_of_lt (Nat.zero_le _) n.isLt)⟩

theorem dvd_sub_sub_iff {L : Nat} (n m a : Fin L) : (L : Int) ∣ n.val - m.val - a.val ↔ a = circularIndex n m := by
  have hmod : a = circularIndex n m ↔ a.val ≡ n.val + (L - m.val) [MOD L] := by
    rw [Fin.ext_iff, Nat.ModEq, Nat.mod_eq_of_lt a.isLt]
    rfl
  have hshift : ((n.val + (L - m.val) : Nat) : Int) - a.val = n.val - m.val - a.val + L := by
    have := m.isLt
    omega
  rw [hmod, ← Int.natCast_modEq_iff, Int.modEq_iff_dvd, hshift, dvd_add_self_right]

/-- A product of two elements of transforms, turned by the factor of the inverse transform, term by term. -/
theorem dftSum_mul_dftSum {L : Nat} (v h : Fin L → ℝ) (n k : Fin L) :
    dftSum v k * dftSum h k * dftRoot L ^ (k.val * n.val : Int) =
      ∑ m : Fin L, ∑ a : Fin L, (h m * v a : ℂ) * dftRoot L ^ (k.val * (n.val - m.val - a.val) : Int) := by
  have hne : dftRoot L ≠ 0 := Complex.exp_ne_zero _
  rw [mul_comm (dftSum v k), dftSum, dftSum, Finset.sum_mul_sum, Finset.sum_mul]
  refine Finset.sum_congr rfl fun m _ => ?_
  rw [Finset.sum_mul]
  refine Finset.sum_congr rfl fun a _ => ?_
  rw [show (k.val * (n.val - m.val - a.val) : Int) = -(k.val * m.val) + -(k.val * a.val) + k.val * n.val by ring,
    zpow_add₀ hne, zpow_add₀ hne]
  ring

/-- The inverse transform of the product of two transforms is the circular convolution. -/
theorem idft_dftSum_mul {L : Nat} (hL : L ≠ 0) (v h : Fin L → ℝ) (n : Fin L) :
    1 / L * ∑ k : Fin L, dftSum v k * dftSum h k * dftRoot L ^ (k.val * n.val : Int) =
      ((∑ m : Fin L, h m * v (circularIndex n m) : ℝ) : ℂ) := by
  have hLc : (L : ℂ) ≠ 0 := Nat.cast_ne_zero.mpr hL
  have hterm : ∀ m a : Fin L, ∑ k : Fin L, (h m * v a : ℂ) * dftRoot L ^ (k.val * (n.val - m.val - a.val) : Int) =
      if a = circularIndex n m then (h m * v a : ℂ) * L else 0 := by
    intro m a
    rw [← Finset.mul_sum, sum_dftRoot_pow hL, mul_ite, mul_zero]
    exact if_congr (dvd_sub_sub_iff n m a) rfl rfl
  calc 1 / L * ∑ k : Fin L, dftSum v k * dftSum h k * dftRoot L ^ (k.val * n.val : Int)
      = 1 / L * ∑ m : Fin L, ∑ a : Fin L, ∑ k : Fin L,
          (h m * v a : ℂ) * dftRoot L ^ (k.val * (n.val - m.val - a.val) : Int) := by
        simp only [dftSum_mul_dftSum]
        rw [Finset.sum_comm]
        exact congrArg _ (Finset.sum_congr rfl fun m _ => Finset.sum_comm)
    _ = 1 / L * ∑ m : Fin L, (h m * v (circularIndex n m) : ℂ) * L := by
        simp only [hterm, Finset.sum_ite_eq', Finset.mem_univ, if_true]
    _ = ((∑ m : Fin L, h m * v (circularIndex n m) : ℝ) : ℂ) := by
        rw [← Finset.sum_mul, one_div, mul_comm, mul_assoc, mul_inv_cancel₀ hLc, mul_one]
        push_cast
        rfl

/-- Law N12 (00_scope.md R9) of the transforms of R16, at every length. -/
theorem exact_convolutionLaw (L : Nat) : exact.ConvolutionLaw L := by
  intro v h n
  have hL : L ≠ 0 := (Nat.lt_of_le_of_lt (Nat.zero_le _) n.isLt).ne'
  have hprod : ∀ k, exact.cmul (exactDft L v k) (exactDft L h k) = partsOf (dftSum v k * dftSum h k) := fun k => by
    rw [exactDft_eq, exactDft_eq, exact_cmul]
  change exactIdft L (fun k => exact.cmul (exactDft L v k) (exactDft L h k)) n = _
  simp only [hprod]
  rw [exactIdft_eq, idft_dftSum_mul hL]
  rfl

/-! The laws N1 to N11 of EXACT. -/

theorem truncate_intCast (z : Int) : truncate (z : ℝ) = z := by
  rw [truncate, Int.floor_intCast, Int.ceil_intCast, ite_self]

theorem nearestInteger_zero : nearestInteger (0 : ℝ) = 0 := by
  norm_num [nearestInteger]

theorem exact_isZero (x : ℝ) : exact.isZero x = true ↔ x = 0 := by
  simp [Num.isZero, Num.whole, exact]

theorem exactDft_zero {L : Nat} {v : Fin L → ℝ} (hv : ∀ i, v i = 0) (k : Fin L) : exactDft L v k = (0, 0) := by
  simp [exactDft, hv]

theorem exactIdft_zero {L : Nat} {y : Fin L → ℝ × ℝ} (hy : ∀ i, (y i).1 = 0 ∧ (y i).2 = 0) (n : Fin L) :
    exactIdft L y n = (0, 0) := by
  have hzero : ∀ i, (⟨(y i).1, (y i).2⟩ : ℂ) = 0 := fun i => Complex.ext (hy i).1 (hy i).2
  simp [exactIdft, hzero]

theorem exact_laws : exact.Laws id 0 where
  sumWithZero x _ := by simp [exact, Num.whole]
  productWithZero x _ := by simp [Num.isZero, Num.whole, exact]
  productWithOne x _ := by simp [exact, Num.whole]
  oneMinus := by simp [Num.isZero, Num.whole, exact]
  ofZero := by simp [Num.isZero, Num.whole, exact, nearestInteger_zero]
  unitBound x _ := by simp [exact, Num.whole, (Real.abs_tanh_lt_one x).le, Real.abs_sin_le_one x]
  powers k _ _ := by simp [exact]
  half x _ _ := by simp [exact]; ring
  transformOfZeros L v hv k := by
    simp only [exact_isZero] at hv ⊢
    simp [exact, exactDft_zero hv]
  inverseOfZeros L y hy n := by
    simp only [exact_isZero] at hy ⊢
    simp [exact, exactIdft_zero hy]
  complexZero a b ha1 ha2 _ _ := by
    simp only [exact_isZero] at ha1 ha2 ⊢
    simp [exact, Num.cmul, ha1, ha2]
  integers z _ := by simp [exact, truncate_intCast]

theorem exact_computesExactly : exact.Exact where
  literals := ⟨fun _ _ => rfl, fun _ => rfl⟩
  arithmetic _ _ := ⟨rfl, rfl, rfl, rfl⟩
  signs _ := ⟨rfl, rfl, rfl⟩
  order _ _ := ⟨rfl, rfl, rfl⟩
  rounding _ := ⟨rfl, rfl, rfl, rfl⟩
  powers k := Real.rpow_natCast 2 k
  bus _ := rfl
  laws := exact_laws

/-- Law N11 (00_scope.md R9): the difference is the fractional part. -/
theorem exact_fractionLaw : exact.FractionLaw id := fun x _ _ =>
  ⟨rfl, Int.fract_nonneg x, Int.fract_lt_one x⟩

/-- Settles O60: the transforms of R16 are sums over the powers of one root of unity, which are orthogonal. -/
theorem exactIsLawful : Obligations.ExactIsLawful := by
  unfold Obligations.ExactIsLawful
  exact ⟨exact_computesExactly, exact_fractionLaw, exact_convolutionLaw⟩

end Sys2Proof.Machine

/-! Proofs of the statements on 10_state.md: first what performing a command, the engine and a bus access can do to the
state, each said once. -/

namespace Sys2Proof.Machine

open Sys2Proof.Claims

section Commands

variable {S W : Type} {N : Num S W}

theorem dlyLength_error {cap : Nat} {time rate : S} {e : ErrCode} (h : dlyLength N cap time rate = .error e) :
    e = .dlyLen := by
  unfold dlyLength at h
  dsimp only at h
  repeat' split at h
  all_goals cases h <;> rfl

/-- 41_delay.md R160, R165: a length is at least 1 and inside the capacity. -/
theorem dlyLength_bounds {cap : Nat} {time rate : S} {n : Nat} (h : dlyLength N cap time rate = .ok n) :
    1 ≤ n ∧ n ≤ cap := by
  unfold dlyLength at h
  dsimp only at h
  repeat' split at h
  all_goals cases h
  omega

theorem vibLength_error {cap : Nat} {width rate : S} {e : ErrCode} (h : vibLength N cap width rate = .error e) :
    e = .vibLen := by
  unfold vibLength at h
  dsimp only at h
  repeat' split at h
  all_goals cases h <;> rfl

/-- What a length of 45_vibrato.md R252 says of the product it is made of. -/
theorem vibLength_ok {cap : Nat} {width rate : S} {n : Nat} (h : vibLength N cap width rate = .ok n) :
    N.eq rate (N.whole 0) = false ∧ N.isfin (N.mul width rate) = true ∧ N.lt (N.mul width rate) (N.whole 0) = false ∧
      N.ifloor (N.mul width rate) + 2 ≤ cap ∧ n = (N.ifloor (N.mul width rate) + 2).toNat := by
  unfold vibLength at h
  dsimp only at h
  repeat' split at h
  all_goals cases h
  rename_i hrate hfin hlt hcap
  simp only [Bool.not_eq_true, Bool.not_eq_false, not_lt] at hrate hfin hlt hcap
  exact ⟨hrate, hfin, hlt, hcap, rfl⟩

/-- No command faults with the code of "no fault" (60_exceptions.md R281). -/
theorem performed_error_ne_none [Inhabited S] {i : Instr} {s : AnyNum.State S W} {e : ErrCode}
    (h : performed N i s = .error e) : e ≠ .none := by
  have hlegal : ∀ {e'}, blockSize s = .error e' → e' ≠ .none := fun hb => (blockSize_error hb).1 ▸ by decide
  cases i <;> simp only [performed] at h
  case nop => cases h
  case dlyInit =>
    unfold dlyInit at h
    split at h
    · next hlen => cases h; exact dlyLength_error hlen ▸ by decide
    · cases h
  case dlyApply =>
    unfold dlyApply at h
    split at h
    · next hb => cases h; exact hlegal hb
    · split at h <;> cases h; decide
  case dstApply =>
    unfold dstApply at h
    split at h
    · next hb => cases h; exact hlegal hb
    · cases h
  case revInit =>
    unfold revInit at h
    split at h
    · next hb => cases h; exact hlegal hb
    · dsimp only at h
      split at h
      · cases h; decide
      · split at h <;> cases h; decide
  case revApply =>
    unfold revApply at h
    split at h
    · next hb => cases h; exact hlegal hb
    · split at h
      · cases h; decide
      · split at h <;> cases h; decide
  case ksPluck =>
    unfold ksPluck at h
    dsimp only at h
    split at h <;> cases h; decide
  case ksGen =>
    unfold ksGen at h
    split at h
    · next hb => cases h; exact hlegal hb
    · split at h <;> cases h; decide
  case vibInit =>
    unfold vibInit at h
    split at h
    · next hlen => cases h; exact vibLength_error hlen ▸ by decide
    · cases h
  case vibApply =>
    unfold vibApply at h
    split at h
    · next hb => cases h; exact hlegal hb
    · split at h
      · cases h; decide
      · split at h
        · next hrun => cases h; exact vibRun_error hrun ▸ by decide
        · cases h

/-- A command leaves `BLK` alone or writes a block that fits it (40_commands.md R144, R145). -/
theorem performed_blk [Inhabited S] {i : Instr} {s u : AnyNum.State S W} (h : performed N i s = .ok u) :
    u.blk = s.blk ∨ ∃ out : List S, out.length ≤ s.caps.maxB ∧ u.blk = s.blk.writeList 0 out := by
  cases i <;> simp only [performed] at h
  case nop => cases h; exact .inl rfl
  case dlyInit => obtain ⟨n, -, rfl⟩ := dlyInit_ok h; exact .inl rfl
  case dlyApply =>
    obtain ⟨B, hB, -, rfl⟩ := dlyApply_ok h
    exact .inr ⟨_, (length_dlyRun s B).trans_le (blockSize_ok hB).2.2, rfl⟩
  case dstApply =>
    obtain ⟨B, hB, rfl⟩ := dstApply_ok h
    exact .inr ⟨_, by simpa using (blockSize_ok hB).2.2, rfl⟩
  case revInit => obtain ⟨B, -, -, -, -, rfl⟩ := revInit_ok h; exact .inl rfl
  case revApply =>
    obtain ⟨B, hB, -, -, -, rfl⟩ := revApply_ok h
    exact .inr ⟨_, (length_revOutput _ B).trans_le (le_trans (by omega) (blockSize_ok hB).2.2), rfl⟩
  case ksPluck => obtain ⟨-, -, rfl⟩ := ksPluck_ok h; exact .inl rfl
  case ksGen =>
    obtain ⟨B, hB, -, rfl⟩ := ksGen_ok h
    exact .inr ⟨_, (length_ksRun s B).trans_le (blockSize_ok hB).2.2, rfl⟩
  case vibInit => obtain ⟨n, -, rfl⟩ := vibInit_ok h; exact .inl rfl
  case vibApply =>
    obtain ⟨B, r, hB, -, hr, rfl⟩ := vibApply_ok h
    exact .inr ⟨_, (length_vibRun hr).trans_le (blockSize_ok hB).2.2, rfl⟩

end Commands

/-- What command `i` may not change (10_state.md R30, R31, R52, 40_commands.md R149). -/
structure CommandFrame (i : Instr) (s t : State) : Prop where
  params : t.params = s.params
  ien    : t.ien = s.ien
  caps   : t.caps = s.caps
  epoch  : t.epoch = s.epoch
  host   : t.host = s.host
  irbuf  : t.irbuf = s.irbuf
  draws  : i ≠ .ksPluck → t.draws = s.draws
  vibneg : i ≠ .vibInit → i ≠ .vibApply → t.vibneg = s.vibneg
  dly    : i ≠ .dlyInit → i ≠ .dlyApply → t.dly = s.dly
  rev    : i ≠ .revInit → i ≠ .revApply → t.rev = s.rev
  ks     : i ≠ .ksPluck → i ≠ .ksGen → t.ks = s.ks
  vib    : i ≠ .vibInit → i ≠ .vibApply → t.vib = s.vib

theorem performed_frame {i : Instr} {s u : State} (h : performed ref64 i s = .ok u) : CommandFrame i s u := by
  obtain ⟨-, -, -, -, -, -, hparams, hien, hcaps, hepoch, hhost, hirbuf, hdraws, hneg, hdly, hrev, hks, hvib⟩ :=
    performed_keeps h
  exact ⟨hparams, hien, hcaps, hepoch, hhost, hirbuf, hdraws, hneg, hdly, hrev, hks, hvib⟩

theorem exec_frame {i : Instr} {s t : State} (h : exec i s = .next t) : CommandFrame i s t := by
  obtain ⟨e, -, rfl⟩ | ⟨u, hu, rfl⟩ := exec_cases h
  · constructor <;> simp
  · exact { performed_frame hu with }

/-- 43_reverb.md R206: `REV.APPLY` writes the history and no other part of its unit. -/
theorem exec_revApply_keeps {s t : State} (h : exec .revApply s = .next t) :
    t.rev.h = s.rev.h ∧ t.rev.p = s.rev.p ∧ t.rev.b = s.rev.b ∧ t.rev.l = s.rev.l := by
  obtain ⟨e, -, rfl⟩ | ⟨u, hu, rfl⟩ := exec_cases h
  · simp
  · obtain ⟨B, -, -, -, -, rfl⟩ := revApply_ok hu
    simp

theorem unwritten_eq_of_epoch {s t : State} (h : t.epoch = s.epoch) : t.unwritten = s.unwritten := by
  funext mem k
  simp only [AnyNum.State.unwritten, h]

/-- Settles O31, from the frame of every command. -/
theorem commandsKeepHostData : Obligations.CommandsKeepHostData := by
  unfold Obligations.CommandsKeepHostData
  intro i s t h
  have hf := exec_frame h
  have hunw := unwritten_eq_of_epoch hf.epoch
  exact ⟨hf.params, hf.ien, hf.caps, hf.epoch, hf.host, hf.draws, hf.vibneg, fun a => by
    simp only [AnyNum.State.irAt, hf.irbuf, hunw]⟩

/-- Settles O32, from the frame of every command: equal unit states and equal epochs give equal cells. -/
theorem unitsAreIsolated : Obligations.UnitsAreIsolated := by
  unfold Obligations.UnitsAreIsolated
  intro i s t h
  have hf := exec_frame h
  have hunw := unwritten_eq_of_epoch hf.epoch
  refine ⟨fun h1 h2 => ⟨hf.dly h1 h2, fun a => ?_⟩, fun h1 h2 => ⟨hf.rev h1 h2, fun a => ?_, fun a => ?_⟩,
    fun h1 h2 => ⟨hf.ks h1 h2, fun a => ?_⟩, fun h1 h2 => ⟨hf.vib h1 h2, fun a => ?_⟩, ?_⟩
  · simp only [AnyNum.State.dlyAt, hf.dly h1 h2, hunw]
  · simp only [AnyNum.State.histAt, hf.rev h1 h2, hunw]
  · simp only [AnyNum.State.revHAt, hf.rev h1 h2, hunw]
  · simp only [AnyNum.State.ksAt, hf.ks h1 h2, hunw]
  · simp only [AnyNum.State.vibAt, hf.vib h1 h2, hunw]
  · rintro rfl
    exact exec_revApply_keeps h

/-! Places and bus accesses. -/

@[simp] theorem place_address (s : State) (r : Reg) : place s r.address = .reg r := by
  cases r <;> rfl

theorem region_regAt_of_place {s : State} {a : Addr} {r : Reg} (h : place s a = .reg r) :
    region a = 0 ∧ regAt (offset a) = some r := by
  unfold place within at h
  repeat' split at h
  all_goals simp_all

theorem regAt_eq_ctrl {k : Nat} (h : regAt k = some .ctrl) : k = 6 := by
  unfold regAt at h
  split at h <;> simp_all

theorem place_eq_ctrl {s : State} {a : Addr} (h : place s a = .reg .ctrl) : a = 0x06#24 := by
  obtain ⟨hregion, hreg⟩ := region_regAt_of_place h
  have hoffset := regAt_eq_ctrl hreg
  unfold region offset at *
  apply BitVec.eq_of_toNat_eq
  simp only [BitVec.toNat_ofNat]
  omega

/-- `BLK` and `IRBUF` are mapped up to their capacities (20_memory.md R83). -/
theorem lt_of_place {s : State} {a : Addr} {k : Nat} :
    (place s a = .blk k → k < s.caps.maxB) ∧ (place s a = .irbuf k → k < s.caps.maxIR) := by
  unfold place within
  repeat' split
  all_goals simp_all <;> (rintro rfl; assumption)

/-- The state enters a fault: none is set, and `t` is `s` after fault entry (60_exceptions.md R283). -/
def EntersFault (s t : State) : Prop := s.fault = false ∧ ∃ (e : ErrCode) (op : Byte), e ≠ .none ∧ t = raise e op s

/-- A read changes the state only by faulting (20_memory.md R88). -/
theorem memRead_cases (a : Addr) (s : State) : (memRead ref64 a s).2 = s ∨ EntersFault s (memRead ref64 a s).2 := by
  unfold memRead
  dsimp only
  split
  · exact .inl rfl
  · next hfault =>
    split
    · exact .inr ⟨by simpa using hfault, _, _, by decide, rfl⟩
    · split
      · exact .inr ⟨by simpa using hfault, _, _, by decide, rfl⟩
      · exact .inl rfl

/-- What a write can do (20_memory.md R89): a write of `CTRL` is a reset or nothing; another write is dropped, faults, or
takes effect on an idle block. -/
theorem memWrite_cases (a : Addr) (w : Word) (s : State) :
    (a = 0x06#24 ∧ memWrite ref64 a w s = if w.getLsbD 0 then resetBlock ref64 s else s) ∨
    (a ≠ 0x06#24 ∧ (memWrite ref64 a w s = s ∨ EntersFault s (memWrite ref64 a w s) ∨
      (quiet s ∧ writePlace ref64 w s (place s a) = some (memWrite ref64 a w s)))) := by
  by_cases hctrl : place s a = .reg .ctrl
  · exact .inl ⟨place_eq_ctrl hctrl, by simp only [memWrite, hctrl, if_true]; rfl⟩
  · refine .inr ⟨?_, ?_⟩
    · rintro rfl
      exact hctrl rfl
    · simp only [memWrite, hctrl, if_false]
      by_cases hfault : s.fault = true
      · exact .inl (if_pos hfault)
      · rw [if_neg hfault]
        have hclear : s.fault = false := by simpa using hfault
        by_cases hbusy : s.busy = true
        · rw [if_pos hbusy]
          exact .inr (.inl ⟨hclear, _, _, by decide, rfl⟩)
        · rw [if_neg hbusy]
          have hidle : s.pending = none := by simpa [AnyNum.State.busy] using hbusy
          cases hw : writePlace ref64 w s (place s a) with
          | none => exact .inr (.inl ⟨hclear, _, _, by decide, rfl⟩)
          | some t => exact .inr (.inr ⟨⟨hidle, hclear⟩, rfl⟩)

/-- A write that the idle block accepts (20_memory.md R89). -/
theorem memWrite_of_quiet {a : Addr} {w : Word} {s t : State} (hs : quiet s) (hctrl : place s a ≠ .reg .ctrl)
    (hw : writePlace ref64 w s (place s a) = some t) : memWrite ref64 a w s = t := by
  obtain ⟨hidle, hclear⟩ := hs
  simp [memWrite, hctrl, hclear, AnyNum.State.busy, hidle, hw]

/-- Settles O38: both registers stand where the map says, and an idle block accepts their writes. -/
theorem interruptRegisterWrites : Obligations.InterruptRegisterWrites := by
  unfold Obligations.InterruptRegisterWrites
  intro w s hs
  have hien : memWrite ref64 Reg.ien.address w s = { s with ien := w.extractLsb' 0 2 } :=
    memWrite_of_quiet hs (by simp) (by rw [place_address]; rfl)
  have hipend : memWrite ref64 Reg.ipend.address w s = { s with ipend := s.ipend &&& ~~~(w.extractLsb' 0 2) } :=
    memWrite_of_quiet hs (by simp) (by rw [place_address]; rfl)
  refine ⟨hien, by rw [hipend], fun b hb => ?_⟩
  rw [hipend]
  simp [hb]

end Sys2Proof.Machine

/-! The engine and a whole step. -/

namespace Sys2Proof.Machine

open Sys2Proof.Claims

/-- The engine has work (40_commands.md R141). -/
abbrev EngineReady (s : State) : Prop := s.pending ≠ none ∧ s.fault = false

/-- The engine waits, or its command faults, or it completes (40_commands.md R141). -/
theorem engineStep_cases {s t : State} (h : engineStep exec s = .next t) :
    (¬ EngineReady s ∧ t = s) ∨
    (EngineReady s ∧ (EntersFault s t ∨ ∃ i u, performed ref64 i s = .ok u ∧ t = complete u)) := by
  unfold engineStep at h
  split at h
  · next hidle => cases h; exact .inl ⟨fun hready => hready.1 hidle, rfl⟩
  · next c hc =>
    split at h
    · next hfault => cases h; exact .inl ⟨fun hready => by simp [hready.2] at hfault, rfl⟩
    · next hfault =>
      have hclear : s.fault = false := by simpa using hfault
      refine .inr ⟨⟨by simp [hc], hclear⟩, ?_⟩
      split at h
      · obtain ⟨e, he, rfl⟩ | ⟨u, hu, rfl⟩ := exec_cases h
        · exact .inl ⟨hclear, _, _, performed_error_ne_none he, rfl⟩
        · exact .inr ⟨_, _, hu, rfl⟩
      · cases h
        exact .inl ⟨hclear, _, _, by decide, rfl⟩

/-- A script that has ended is its own rest. -/
theorem withScript_nil {s : State} (h : s.host.script = []) : withScript [] s = s := by
  rw [withScript, ← h]

/-- One step is the engine's, a read, a write or the reset input (30_encoding.md R117, 70_reset_and_hazards.md R347). -/
theorem step_cases {s t : State} (h : step s = .next t) :
    (∃ rest, engineTurn s rest ∧ engineStep exec (withScript rest s) = .next t) ∨
    (∃ a rest, s.host.script = .rd a :: rest ∧ t = hostRead ref64 a (withScript rest s)) ∨
    (∃ a w rest, s.host.script = .wr a w :: rest ∧ t = memWrite ref64 a w (withScript rest s)) ∨
    (∃ rest, s.host.script = .rst :: rest ∧ t = resetBlock ref64 (withScript rest s)) := by
  unfold step agentStep at h
  split at h
  · next hs => exact .inl ⟨[], .inr ⟨hs, rfl⟩, by rwa [withScript_nil hs]⟩
  · next rest hs => exact .inl ⟨rest, .inl hs, h⟩
  · next a rest hs => cases h; exact .inr (.inl ⟨a, rest, hs, rfl⟩)
  · next a w rest hs => cases h; exact .inr (.inr (.inl ⟨a, w, rest, hs, rfl⟩))
  · next rest hs => cases h; exact .inr (.inr (.inr ⟨rest, hs, rfl⟩))

theorem EntersFault.cmdcnt {s t : State} (h : EntersFault s t) : t.cmdcnt = s.cmdcnt := by
  obtain ⟨-, e, op, -, rfl⟩ := h
  simp

theorem EntersFault.fault {s t : State} (h : EntersFault s t) : t.fault = true := by
  obtain ⟨-, e, op, -, rfl⟩ := h
  simp

/-- 10_state.md R40 of the engine: it counts a command exactly when the command completes. -/
theorem engineStep_cmdcnt {s t : State} (h : engineStep exec s = .next t) :
    (EngineReady s → t.fault = false → t.cmdcnt = s.cmdcnt + 1#32) ∧
    (¬ (EngineReady s ∧ t.fault = false) → t.cmdcnt = s.cmdcnt) := by
  obtain ⟨hwait, rfl⟩ | ⟨hready, hfault | ⟨i, u, hu, rfl⟩⟩ := engineStep_cases h
  · exact ⟨fun hready => absurd hready hwait, fun _ => rfl⟩
  · exact ⟨fun _ hclear => by simp [hfault.fault] at hclear, fun _ => hfault.cmdcnt⟩
  · obtain ⟨-, hclear, -, -, -, hcnt, -⟩ := performed_keeps hu
    exact ⟨fun _ _ => by simp [hcnt], fun hno => absurd ⟨hready, by simp [hclear, hready.2]⟩ hno⟩

/-- No accepted write changes the counter (20_memory.md R89, R93). -/
theorem writePlace_cmdcnt {w : Word} {p : Place} {s t : State} (h : writePlace ref64 w s p = some t) :
    t.cmdcnt = s.cmdcnt := by
  unfold writePlace writeParam at h
  repeat' split at h
  all_goals cases h <;> rfl

theorem memWrite_cmdcnt (a : Addr) (w : Word) (s : State) :
    (a = 0x06#24 ∧ w.getLsbD 0 = true → (memWrite ref64 a w s).cmdcnt = 0#32) ∧
    (¬ (a = 0x06#24 ∧ w.getLsbD 0 = true) → (memWrite ref64 a w s).cmdcnt = s.cmdcnt) := by
  obtain ⟨ha, hw⟩ | ⟨ha, hsame | hfault | ⟨-, hplace⟩⟩ := memWrite_cases a w s
  · rw [hw]
    exact ⟨fun hreset => by simp [hreset.2], fun hno => by simp_all⟩
  · exact ⟨fun hreset => absurd hreset.1 ha, fun _ => by rw [hsame]⟩
  · exact ⟨fun hreset => absurd hreset.1 ha, fun _ => hfault.cmdcnt⟩
  · exact ⟨fun hreset => absurd hreset.1 ha, fun _ => writePlace_cmdcnt hplace⟩

theorem hostRead_cmdcnt (a : Addr) (s : State) : (hostRead ref64 a s).cmdcnt = s.cmdcnt := by
  obtain hsame | hfault := memRead_cases a s
  · simp [hostRead, hsame]
  · simp [hostRead, hfault.cmdcnt]

/-- Only a line `wait`, or none, is the engine's turn. -/
theorem not_performs {s : State} {op : BusOp Word} {rest : List (BusOp Word)} (hs : s.host.script = op :: rest)
    (hop : op ≠ .wait) : ¬ performs s := by
  rintro ⟨-, -, _, hw | ⟨hw, -⟩⟩ <;> simp_all

/-- Settles O45: the head of the script says whether the step can perform a command or reset the block. -/
theorem commandCounter : Obligations.CommandCounter := by
  unfold Obligations.CommandCounter
  intro s t h
  obtain ⟨rest, hturn, hengine⟩ | ⟨a, rest, hs, rfl⟩ | ⟨a, w, rest, hs, rfl⟩ | ⟨rest, hs, rfl⟩ := step_cases h
  · obtain ⟨hcounts, hkeeps⟩ := engineStep_cmdcnt hengine
    have hnoreset : ¬ resets s := by
      rintro ⟨_, hr | ⟨_, hr, -⟩⟩ <;> obtain hw | ⟨hw, -⟩ := hturn <;> simp [hw] at hr
    exact ⟨fun hp hclear => hcounts ⟨hp.1, hp.2.1⟩ hclear, fun hr => absurd hr hnoreset,
      fun hno _ => hkeeps fun hc => hno ⟨⟨hc.1.1, hc.1.2, rest, hturn⟩, hc.2⟩⟩
  · have hnoreset : ¬ resets s := by rintro ⟨_, hr | ⟨_, hr, -⟩⟩ <;> simp [hs] at hr
    exact ⟨fun hp => absurd hp (not_performs hs (by simp)), fun hr => absurd hr hnoreset,
      fun _ _ => hostRead_cmdcnt a _⟩
  · obtain ⟨hreset, hkeeps⟩ := memWrite_cmdcnt a w (withScript rest s)
    have hresets : resets s ↔ a = 0x06#24 ∧ w.getLsbD 0 = true := by simp [resets, hs]
    exact ⟨fun hp => absurd hp (not_performs hs (by simp)), fun hr => hreset (hresets.1 hr),
      fun _ hr => hkeeps fun hc => hr (hresets.2 hc)⟩
  · exact ⟨fun hp => absurd hp (not_performs hs (by simp)), fun _ => rfl, fun _ hr => absurd ⟨rest, .inl hs⟩ hr⟩

/-- Settles O40: the bits of a word of eight parts. -/
theorem statusBits : Obligations.StatusBits := by
  unfold Obligations.StatusBits
  intro s
  simp only [statusWord, flag, BitVec.getLsbD_append, AnyNum.State.busy]
  refine ⟨?_, ?_, ?_, ?_, ?_, ?_, ?_, fun b hb => ?_⟩
  case refine_8 => rw [if_neg (by omega), BitVec.getLsbD_zero]
  all_goals simp

/-- Settles O44, by evaluating each register. -/
theorem resetValues : Obligations.ResetValues := by
  unfold Obligations.ResetValues
  decide +kernel

end Sys2Proof.Machine

/-! The invariant of 10_state.md R58: which states keep each part of it, what the sample loops keep of a unit's cells and
cursors, then each kind of step. -/

namespace Sys2Proof.Machine.Binary64

/-- A finite sample that is not below 0 has a floor that is not. -/
theorem ifloor_nonneg {x : Sample} (hx : isFinite x = true) (h : lt x (lit 0 1) = false) : 0 ≤ ifloor x := by
  have hvalue : 0 ≤ value x := by
    by_contra hneg
    have hlt := (lt_iff hx isFinite_lit_zero).2 (by rw [value_lit_zero]; omega)
    simp [h] at hlt
  have hpos : 0 < (ifloor x + 1) * (one : Int) := hvalue.trans_lt (lt_ifloor_succ hx)
  have := pos_of_mul_pos_left hpos (Int.natCast_nonneg one)
  omega

end Sys2Proof.Machine.Binary64

namespace Sys2Proof.Machine

section

variable {s t : State}

/-! Each part speaks of its unit, the capacities and the registers that size the unit, and holds of a destroyed unit. -/

theorem DlyOk.of_eq (h : DlyOk s) (hunit : t.dly = s.dly) (hcaps : t.caps = s.caps) : DlyOk t := by
  obtain ⟨hcells, hlive, hdead⟩ := h
  constructor <;> simpa only [hunit, hcaps]

theorem DlyOk.of_destroyed (hunit : t.dly = DlyUnit.destroyed) : DlyOk t := by
  constructor <;> simp [hunit, DlyUnit.destroyed, Memory.covers]

theorem RevOk.of_eq (h : RevOk s) (hunit : t.rev = s.rev) (hcaps : t.caps = s.caps)
    (hbsize : t.params.bsize = s.params.bsize) : RevOk t := by
  obtain ⟨hcellsH, hcellsHist, hlive, hdead⟩ := h
  constructor <;> simpa only [hunit, hcaps, hbsize]

theorem RevOk.of_destroyed (hunit : t.rev = RevUnit.destroyed) : RevOk t := by
  constructor <;> simp [hunit, RevUnit.destroyed, Memory.covers]

theorem KsOk.of_eq (h : KsOk s) (hunit : t.ks = s.ks) (hcaps : t.caps = s.caps)
    (hlen : t.params.ksLen = s.params.ksLen) : KsOk t := by
  obtain ⟨hcells, hlive, hdead⟩ := h
  constructor <;> simpa only [hunit, hcaps, hlen]

theorem KsOk.of_destroyed (hunit : t.ks = KsUnit.destroyed) : KsOk t := by
  constructor <;> simp [hunit, KsUnit.destroyed, Memory.covers]

theorem VibOk.of_eq (h : VibOk s) (hunit : t.vib = s.vib) (hcaps : t.caps = s.caps)
    (hrate : t.params.rate = s.params.rate) (hwidth : t.params.vibWidth = s.params.vibWidth) : VibOk t := by
  obtain ⟨hcells, hlive, hdead⟩ := h
  constructor <;> simpa only [hunit, hcaps, hrate, hwidth]

theorem VibOk.of_destroyed (hunit : t.vib = VibUnit.destroyed (ref64.whole 0)) : VibOk t := by
  rw [whole_zero] at hunit
  constructor <;> simp [hunit, VibUnit.destroyed, Memory.covers]

/-- The faults of `t` are those of `s`, whatever else differs. -/
theorem FaultOk.of_eq (h : FaultOk s) (hpending : t.pending = s.pending) (hfault : t.fault = s.fault)
    (hipend : t.ipend.getLsbD 1 = s.ipend.getLsbD 1) (hcode : t.errCode = s.errCode) (hop : t.errOp = s.errOp) :
    FaultOk t := by
  obtain ⟨hidle, hbit, hclean, hcoded⟩ := h
  constructor <;> simpa only [hpending, hfault, hipend, hcode, hop]

/-- `t` has the capacities of `s`, and each of its unit states is that of `s`, sized by the same registers, or destroyed:
what a fault, a host access or a reset leaves (10_state.md R50, R59). -/
structure KeepsOrDestroys (s t : State) : Prop where
  caps : t.caps = s.caps
  dly  : t.dly = s.dly ∨ t.dly = DlyUnit.destroyed
  rev  : (t.rev = s.rev ∧ t.params.bsize = s.params.bsize) ∨ t.rev = RevUnit.destroyed
  ks   : (t.ks = s.ks ∧ t.params.ksLen = s.params.ksLen) ∨ t.ks = KsUnit.destroyed
  vib  : (t.vib = s.vib ∧ t.params.rate = s.params.rate ∧ t.params.vibWidth = s.params.vibWidth) ∨
    t.vib = VibUnit.destroyed (ref64.whole 0)

theorem MachineInv.of_keepsOrDestroys (h : MachineInv s) (hk : KeepsOrDestroys s t) (hblk : t.blk.Ok s.caps.maxB)
    (hirbuf : t.irbuf.Ok s.caps.maxIR) (hfaults : FaultOk t) : MachineInv t where
  caps := hk.caps ▸ h.caps
  blk := hk.caps ▸ hblk
  irbuf := hk.caps ▸ hirbuf
  dly := hk.dly.elim (fun hd => h.dly.of_eq hd hk.caps) DlyOk.of_destroyed
  rev := hk.rev.elim (fun hr => h.rev.of_eq hr.1 hk.caps hr.2) RevOk.of_destroyed
  ks := hk.ks.elim (fun hks => h.ks.of_eq hks.1 hk.caps hks.2) KsOk.of_destroyed
  vib := hk.vib.elim (fun hv => h.vib.of_eq hv.1 hk.caps hv.2.1 hv.2.2) VibOk.of_destroyed
  faults := hfaults

end

theorem Memory.ok_nil {α : Type} (cap : Nat) : Memory.Ok ([] : Memory α) cap where
  rising := rfl
  inside := by simp

/-! What the sample loops keep. -/

section Loops

variable {S W : Type} {N : Num S W} {n : Nat}

/-- The cells of the delay line are 0 to `n - 1`, and its cursor is one of them (41_delay.md R165). -/
structure DlyLoop.Ok (n : Nat) (c : DlyLoop S) : Prop where
  idx   : c.idx < n
  cells : c.buf.covers n

theorem DlyLoop.Ok.sample {c : DlyLoop S} (h : c.Ok n) (unw : Nat → S) (fb mix dry : S) :
    (dlySample N unw n fb mix c dry).2.Ok n where
  idx := Nat.mod_lt _ (Nat.zero_lt_of_lt h.idx)
  cells := Memory.covers_write _ _ _ _ h.cells h.idx

/-- The cells of the string are 0 to `n - 1`, and its front is one of them (44_karplus_strong.md R236). -/
structure KsLoop.Ok (n : Nat) (c : KsLoop S) : Prop where
  head  : c.head < n
  cells : c.buf.covers n

theorem KsLoop.Ok.sample {c : KsLoop S} (h : c.Ok n) (unw : Nat → S) (K : S) (x : Unit) :
    (ksSample N unw n K c x).2.Ok n where
  head := Nat.mod_lt _ (Nat.zero_lt_of_lt h.head)
  cells := Memory.covers_write _ _ _ _ h.cells h.head

/-- The cells of the vibrato's ring are 0 to `n - 1`, and its cursors half the length apart (45_vibrato.md R257). -/
structure VibLoop.Ok (n : Nat) (c : VibLoop S) : Prop where
  w     : c.w < n
  i1    : c.i1 < n
  apart : c.w = (c.i1 + n / 2) % n
  cells : c.buf.covers n

theorem VibLoop.Ok.sample {c : VibLoop S} {r : S × VibLoop S} (h : c.Ok n) {unw : Nat → S} {f0 rate wd x : S} {k : Nat}
    (hr : vibSample N unw n f0 rate wd k c x = .ok r) : r.2.Ok n := by
  unfold vibSample at hr
  dsimp only at hr
  split at hr
  · cases hr
  · cases hr
    have hn : 0 < n := Nat.zero_lt_of_lt h.w
    exact {
      w := Nat.mod_lt _ hn
      i1 := Nat.mod_lt _ hn
      apart := by
        dsimp only
        rw [h.apart, Nat.mod_add_mod, Nat.mod_add_mod, Nat.add_right_comm]
      cells := Memory.covers_write _ _ _ _ h.cells h.w }

end Loops

/-! What a command keeps. -/

section Commands

variable {i : Instr} {s u : State}

theorem DlyOk.performed (h : DlyOk s) (hp : performed ref64 i s = .ok u) : DlyOk u := by
  have hf := performed_frame hp
  by_cases hinit : i = .dlyInit
  · subst hinit
    obtain ⟨n, hn, rfl⟩ := dlyInit_ok hp
    obtain ⟨hpos, hcap⟩ := dlyLength_bounds hn
    exact {
      cells := by simpa using Memory.covers_ofList (List.replicate n (ref64.whole 0))
      live := fun _ => ⟨hpos, hcap, hpos⟩
      dead := fun hinvalid => by cases hinvalid }
  · by_cases happly : i = .dlyApply
    · subst happly
      obtain ⟨B, -, hvalid, rfl⟩ := dlyApply_ok hp
      obtain ⟨hpos, hcap, hidx⟩ := h.live hvalid
      have hrun : (dlyRun ref64 s B).2.Ok s.dly.n :=
        loop_invariant _ _ (fun c x hc => hc.sample _ _ _ x) _ _ ⟨hidx, h.cells⟩
      exact {
        cells := hrun.cells
        live := fun _ => ⟨hpos, hcap, hrun.idx⟩
        dead := fun hinvalid => by simp [hvalid] at hinvalid }
    · exact h.of_eq (hf.dly hinit happly) hf.caps

theorem RevOk.performed (h : RevOk s) (hp : performed ref64 i s = .ok u) : RevOk u := by
  have hf := performed_frame hp
  by_cases hinit : i = .revInit
  · subst hinit
    obtain ⟨B, hB, hpos, hcap, -, rfl⟩ := revInit_ok hp
    obtain ⟨hsize, hBpos, hBcap⟩ := blockSize_ok hB
    exact {
      cellsH := by simpa using Memory.covers_ofList (List.ofFn (revSpectrum ref64
        (impulseResponse s s.params.revIrlen.toNat) (s.params.revIrlen.toNat - 1 + B)))
      cellsHist := by simpa using Memory.covers_ofList (List.replicate (s.params.revIrlen.toNat - 1 + B) (ref64.whole 0))
      live := fun _ => ⟨hpos, hcap, hsize, hBpos, hBcap, rfl⟩
      dead := fun hinvalid => by cases hinvalid }
  · by_cases happly : i = .revApply
    · subst happly
      obtain ⟨B, -, hvalid, -, -, rfl⟩ := revApply_ok hp
      exact {
        cellsH := h.cellsH
        cellsHist := by simpa using Memory.covers_ofList (List.ofFn (revRun ref64 s B).2)
        live := h.live
        dead := fun hinvalid => by simp [hvalid] at hinvalid }
    · exact h.of_eq (hf.rev hinit happly) hf.caps (by rw [hf.params])

theorem KsOk.performed (h : KsOk s) (hp : performed ref64 i s = .ok u) : KsOk u := by
  have hf := performed_frame hp
  by_cases hpluck : i = .ksPluck
  · subst hpluck
    obtain ⟨hpos, hcap, rfl⟩ := ksPluck_ok hp
    exact {
      cells := by simpa using Memory.covers_ofList (noiseDraws ref64 s.draws s.params.ksLen.toNat)
      live := fun _ => ⟨hpos, hcap, hpos, rfl⟩
      dead := fun hinvalid => by cases hinvalid }
  · by_cases hgen : i = .ksGen
    · subst hgen
      obtain ⟨B, -, hvalid, rfl⟩ := ksGen_ok hp
      obtain ⟨hpos, hcap, hhead, hlen⟩ := h.live hvalid
      have hrun : (ksRun ref64 s B).2.Ok s.ks.n :=
        loop_invariant _ _ (fun c x hc => hc.sample _ _ x) _ _ ⟨hhead, h.cells⟩
      exact {
        cells := hrun.cells
        live := fun _ => ⟨hpos, hcap, hrun.head, hlen⟩
        dead := fun hinvalid => by simp [hvalid] at hinvalid }
    · exact h.of_eq (hf.ks hpluck hgen) hf.caps (by rw [hf.params])

theorem VibOk.performed (h : VibOk s) (hp : performed ref64 i s = .ok u) : VibOk u := by
  have hf := performed_frame hp
  by_cases hinit : i = .vibInit
  · subst hinit
    obtain ⟨n, hn, rfl⟩ := vibInit_ok hp
    obtain ⟨hrate, hfin, hlt, hcap, hlen⟩ := vibLength_ok hn
    have hfloor : 0 ≤ ref64.ifloor (ref64.mul s.params.vibWidth s.params.rate) := Binary64.ifloor_nonneg hfin hlt
    have hproduct : (n : Int) = ref64.ifloor (ref64.mul s.params.vibWidth s.params.rate) + 2 := by omega
    have htwo : 2 ≤ n := by omega
    have hhalf : n / 2 < n := Nat.div_lt_self (by omega) one_lt_two
    have hapart : n / 2 = (0 + n / 2) % n := by rw [Nat.zero_add, Nat.mod_eq_of_lt hhalf]
    have hcapNat : n ≤ s.caps.maxVib := by omega
    exact {
      cells := by simpa using Memory.covers_ofList (List.replicate n (ref64.whole 0))
      live := fun _ => ⟨htwo, hcapNat, hhalf, Nat.zero_lt_of_lt hhalf, hapart, hfin, hproduct, hrate⟩
      dead := fun hinvalid => by cases hinvalid }
  · by_cases happly : i = .vibApply
    · subst happly
      obtain ⟨B, r, -, hvalid, hr, rfl⟩ := vibApply_ok hp
      obtain ⟨htwo, hcap, hw, hi1, hapart, hproduct⟩ := h.live hvalid
      have hrun : r.2.Ok s.vib.n :=
        loopE_invariant _ _ (fun _ c x r hc hx => hc.sample hx) _ _ _ _ ⟨hw, hi1, hapart, h.cells⟩ hr
      exact {
        cells := hrun.cells
        live := fun _ => ⟨htwo, hcap, hrun.w, hrun.i1, hrun.apart, hproduct⟩
        dead := fun hinvalid => by simp [hvalid] at hinvalid }
    · exact h.of_eq (hf.vib hinit happly) hf.caps (by rw [hf.params]) (by rw [hf.params])

theorem MachineInv.performed (h : MachineInv s) (hp : performed ref64 i s = .ok u) : MachineInv u := by
  have hf := performed_frame hp
  obtain ⟨hpending, hfault, hcode, hop, hipend, -⟩ := performed_keeps hp
  have hblk : u.blk.Ok s.caps.maxB := by
    obtain hsame | ⟨out, hout, hwrite⟩ := performed_blk hp
    · exact hsame ▸ h.blk
    · exact hwrite ▸ h.blk.writeList out (by omega)
  exact {
    caps := hf.caps ▸ h.caps
    blk := hf.caps ▸ hblk
    irbuf := by rw [hf.irbuf, hf.caps]; exact h.irbuf
    dly := h.dly.performed hp
    rev := h.rev.performed hp
    ks := h.ks.performed hp
    vib := h.vib.performed hp
    faults := h.faults.of_eq hpending hfault (by rw [hipend]) hcode hop }

end Commands

/-! What a step keeps. -/

section Steps

variable {s t : State}

theorem MachineInv.complete (h : MachineInv s) : MachineInv (complete s) := by
  refine h.of_keepsOrDestroys (by constructor <;> simp) h.blk h.irbuf ?_
  obtain ⟨-, hbit, hclean, hcoded⟩ := h.faults
  exact ⟨fun _ => rfl, by simpa using hbit, hclean, hcoded⟩

theorem MachineInv.entersFault (h : MachineInv s) (ht : EntersFault s t) : MachineInv t := by
  obtain ⟨hclear, e, op, he, rfl⟩ := ht
  refine h.of_keepsOrDestroys (by constructor <;> simp) (by simpa using h.blk) (by simpa using h.irbuf) ?_
  rw [raise_eq e op s hclear]
  exact ⟨fun _ => rfl, by simp, (fun hno => nomatch hno), fun _ => he⟩

theorem MachineInv.engineStep (h : MachineInv s) (ht : engineStep exec s = .next t) : MachineInv t := by
  obtain ⟨-, rfl⟩ | ⟨-, hfault | ⟨i, u, hu, rfl⟩⟩ := engineStep_cases ht
  · exact h
  · exact h.entersFault hfault
  · exact (h.performed hu).complete

theorem MachineInv.withScript (h : MachineInv s) (rest : List (BusOp Word)) : MachineInv (withScript rest s) :=
  h.of_keepsOrDestroys (by constructor <;> simp) h.blk h.irbuf (h.faults.of_eq rfl rfl rfl rfl rfl)

theorem MachineInv.returned (h : MachineInv s) (d : Word) : MachineInv (returned d s) :=
  h.of_keepsOrDestroys (by constructor <;> simp) h.blk h.irbuf (h.faults.of_eq rfl rfl rfl rfl rfl)

theorem MachineInv.hostRead (h : MachineInv s) (a : Addr) : MachineInv (hostRead ref64 a s) := by
  refine MachineInv.returned ?_ _
  obtain hsame | hfault := memRead_cases a s
  · rwa [hsame]
  · exact h.entersFault hfault

theorem MachineInv.resetBlock (h : MachineInv s) : MachineInv (resetBlock ref64 s) :=
  h.of_keepsOrDestroys (by constructor <;> simp) (Memory.ok_nil _) (Memory.ok_nil _)
    ⟨fun _ => rfl, by simp, fun _ => ⟨rfl, rfl⟩, fun hfault => nomatch hfault⟩

/-- A parameter write destroys every unit state that the register sizes (10_state.md R50). -/
theorem writeParam_keepsOrDestroys {w : Word} {r : Reg} (h : writeParam ref64 w s r = some t) : KeepsOrDestroys s t := by
  cases r <;> cases h <;> constructor <;> simp

/-- A parameter write changes the parameters and unit states only (20_memory.md R89). -/
theorem writeParam_keeps {w : Word} {r : Reg} (h : writeParam ref64 w s r = some t) :
    t.blk = s.blk ∧ t.irbuf = s.irbuf ∧ t.pending = s.pending ∧ t.fault = s.fault ∧ t.ipend = s.ipend ∧
      t.errCode = s.errCode ∧ t.errOp = s.errOp := by
  cases r <;> cases h <;> simp

theorem MachineInv.writeParam (h : MachineInv s) {w : Word} {r : Reg} (ht : writeParam ref64 w s r = some t) :
    MachineInv t := by
  obtain ⟨hblk, hirbuf, hpending, hfault, hipend, hcode, hop⟩ := writeParam_keeps ht
  exact h.of_keepsOrDestroys (writeParam_keepsOrDestroys ht) (hblk ▸ h.blk) (hirbuf ▸ h.irbuf)
    (h.faults.of_eq hpending hfault (by rw [hipend]) hcode hop)

theorem MachineInv.writePlace (h : MachineInv s) (hclear : s.fault = false) {w : Word} {a : Addr}
    (ht : writePlace ref64 w s (place s a) = some t) : MachineInv t := by
  obtain ⟨-, hbit, hclean, -⟩ := h.faults
  have hzero : s.ipend.getLsbD 1 = false := hbit.trans hclear
  unfold Machine.writePlace at ht
  split at ht
  · cases ht
    exact h.of_keepsOrDestroys (by constructor <;> simp) h.blk h.irbuf
      ⟨fun hfault => by simp [hclear] at hfault, hbit, hclean, fun hfault => by simp [hclear] at hfault⟩
  · cases ht
    exact h.of_keepsOrDestroys (by constructor <;> simp) h.blk h.irbuf
      (h.faults.of_eq rfl rfl (by simp only [BitVec.getLsbD_and, hzero, Bool.false_and]) rfl rfl)
  · cases ht
    exact h.of_keepsOrDestroys (by constructor <;> simp) h.blk h.irbuf (h.faults.of_eq rfl rfl rfl rfl rfl)
  · exact h.writeParam ht
  · next k hplace =>
    cases ht
    exact h.of_keepsOrDestroys (by constructor <;> simp) (h.blk.write _ (lt_of_place.1 hplace)) h.irbuf
      (h.faults.of_eq rfl rfl rfl rfl rfl)
  · next k hplace =>
    cases ht
    exact h.of_keepsOrDestroys (by constructor <;> simp) h.blk (h.irbuf.write _ (lt_of_place.2 hplace))
      (h.faults.of_eq rfl rfl rfl rfl rfl)
  all_goals cases ht

theorem MachineInv.memWrite (h : MachineInv s) (a : Addr) (w : Word) : MachineInv (memWrite ref64 a w s) := by
  obtain ⟨-, hw⟩ | ⟨-, hsame | hfault | ⟨⟨-, hclear⟩, hplace⟩⟩ := memWrite_cases a w s
  · rw [hw]
    split
    · exact h.resetBlock
    · exact h
  · rwa [hsame]
  · exact h.entersFault hfault
  · exact h.writePlace hclear hplace

end Steps

/-- Settles O46: no unit state is valid at reset and the memories list no cell. -/
theorem invariantAtReset : Obligations.InvariantAtReset := by
  unfold Obligations.InvariantAtReset
  refine ⟨{
    caps := by decide
    blk := Memory.ok_nil _
    irbuf := Memory.ok_nil _
    dly := DlyOk.of_destroyed rfl
    rev := RevOk.of_destroyed rfl
    ks := KsOk.of_destroyed rfl
    vib := VibOk.of_destroyed (by rw [whole_zero]; rfl)
    faults := ⟨fun _ => rfl, rfl, fun _ => ⟨rfl, rfl⟩, fun hfault => by cases hfault⟩ }, fun hvalid => by cases hvalid⟩

/-- Settles O47: each of the four kinds of step keeps the invariant. -/
theorem invariantKept : Obligations.InvariantKept := by
  unfold Obligations.InvariantKept
  intro s t h ht
  obtain ⟨rest, -, hengine⟩ | ⟨a, rest, -, rfl⟩ | ⟨a, w, rest, -, rfl⟩ | ⟨rest, -, rfl⟩ := step_cases ht
  · exact (h.withScript rest).engineStep hengine
  · exact (h.withScript rest).hostRead a
  · exact (h.withScript rest).memWrite a w
  · exact (h.withScript rest).resetBlock

end Sys2Proof.Machine

/-! The bus: what every address names, then reads and writes through it (20_memory.md R83 to R93). -/

namespace Sys2Proof.Machine

open Sys2Proof.Claims

/-- Cell `i` of window number `k`, mapped below `limit` (20_memory.md R83). -/
abbrev inWindow (k limit i a : Nat) : Prop := a = k * 0x100000 + i ∧ i < 0x100000 ∧ i < limit

/-- What 20_memory.md R83 to R85 say of an address that names the place. -/
def Place.StandsAt (s : State) (a : Nat) : Place → Prop
  | .reg r => (a, r) ∈ registerTable
  | .blk i => inWindow 1 s.caps.maxB i a
  | .irbuf i => inWindow 2 s.caps.maxIR i a
  | .dlyBuf i => inWindow 3 s.dly.n i a
  | .revHist i => inWindow 4 s.rev.l i a
  | .revH i => inWindow 5 (2 * s.rev.l) i a
  | .ksBuf i => inWindow 6 s.ks.n i a
  | .vibBuf i => inWindow 7 s.vib.n i a
  | .unmapped => ¬ mapped s a

theorem mem_registerTable_iff {k : Nat} {r : Reg} : (k, r) ∈ registerTable ↔ regAt k = some r := by
  constructor
  · have hall : ∀ p ∈ registerTable, regAt p.1 = some p.2 := by decide
    exact hall (k, r)
  · intro h
    unfold regAt at h
    split at h <;> cases h <;> decide

theorem lt_of_mem_registerTable {k : Nat} {r : Reg} (h : (k, r) ∈ registerTable) : k < 0x100000 :=
  (by decide : ∀ p ∈ registerTable, p.1 < 0x100000) _ h

/-- Below the windows only the registers are mapped. -/
theorem mapped_iff_of_lt {s : State} {a : Nat} (ha : a < 0x100000) : mapped s a ↔ ∃ r, (a, r) ∈ registerTable := by
  constructor
  · rintro (⟨⟨_, r⟩, hr, rfl⟩ | ⟨w, hw, hle, -⟩)
    · exact ⟨r, hr⟩
    · simp only [windows, List.mem_cons, List.not_mem_nil, or_false] at hw
      rcases hw with rfl | rfl | rfl | rfl | rfl | rfl | rfl <;> dsimp only at hle <;> omega
  · rintro ⟨r, hr⟩
    exact .inl ⟨_, hr, rfl⟩

/-- From the first window on no register stands. -/
theorem mapped_iff_of_ge {s : State} {a : Nat} (ha : 0x100000 ≤ a) :
    mapped s a ↔ (0x100000 ≤ a ∧ a < 0x100000 + min s.caps.maxB 0x100000) ∨
      (0x200000 ≤ a ∧ a < 0x200000 + min s.caps.maxIR 0x100000) ∨ (0x300000 ≤ a ∧ a < 0x300000 + min s.dly.n 0x100000) ∨
      (0x400000 ≤ a ∧ a < 0x400000 + min s.rev.l 0x100000) ∨
      (0x500000 ≤ a ∧ a < 0x500000 + min (2 * s.rev.l) 0x100000) ∨
      (0x600000 ≤ a ∧ a < 0x600000 + min s.ks.n 0x100000) ∨ (0x700000 ≤ a ∧ a < 0x700000 + min s.vib.n 0x100000) := by
  have hnoreg : ¬ ∃ p ∈ registerTable, a = p.1 := by
    rintro ⟨⟨k, r⟩, hr, rfl⟩
    exact absurd (lt_of_mem_registerTable hr) (Nat.not_lt.2 ha)
  simp only [mapped, hnoreg, false_or, windows, List.exists_mem_cons_iff, List.not_mem_nil, false_and, exists_false,
    or_false]

theorem toNat_eq_region_offset (a : Addr) : a.toNat = region a * 0x100000 + offset a :=
  (Nat.div_add_mod' a.toNat 0x100000).symm

theorem offset_lt (a : Addr) : offset a < 0x100000 := Nat.mod_lt _ (by decide)

theorem region_offset_of_toNat {a : Addr} {k i : Nat} (h : a.toNat = k * 0x100000 + i) (hi : i < 0x100000) :
    region a = k ∧ offset a = i := by
  unfold region offset
  omega

theorem standsAt_within {s : State} {a i limit : Nat} {p : Place} (hin : i < limit → p.StandsAt s a)
    (hout : limit ≤ i → ¬ mapped s a) : (within i limit p).StandsAt s a := by
  unfold within
  split
  · next h => exact hin h
  · next h => exact hout (Nat.not_lt.1 h)

theorem standsAt_place (s : State) (a : Addr) : (place s a).StandsAt s a.toNat := by
  have hsplit := toNat_eq_region_offset a
  have hlt := offset_lt a
  unfold place
  split
  case h_1 hregion =>
    have hoffset : a.toNat = offset a := by omega
    rw [hoffset]
    split
    · next r hr => exact mem_registerTable_iff.2 hr
    · next hnone => simp [Place.StandsAt, mapped_iff_of_lt hlt, mem_registerTable_iff, hnone]
  case h_9 h0 h1 h2 h3 h4 h5 h6 h7 =>
    simp only [imp_false] at h0 h1 h2 h3 h4 h5 h6 h7
    rw [Place.StandsAt, mapped_iff_of_ge (by omega)]
    omega
  all_goals
    next hregion =>
    rw [hregion] at hsplit
    refine standsAt_within (fun hi => ⟨hsplit, hlt, hi⟩) fun hout => ?_
    rw [mapped_iff_of_ge (by omega)]
    omega

theorem mapped_of_standsAt {s : State} {a : Nat} {p : Place} (hp : p ≠ .unmapped) (h : p.StandsAt s a) : mapped s a := by
  cases p with
  | reg r => exact .inl ⟨_, h, rfl⟩
  | unmapped => exact absurd rfl hp
  | _ i =>
    obtain ⟨ha, hi, hlimit⟩ := h
    rw [mapped_iff_of_ge (by omega)]
    omega

/-- The address map both ways (20_memory.md R83 to R85). -/
theorem place_eq_iff {s : State} {a : Addr} {p : Place} : place s a = p ↔ p.StandsAt s a.toNat := by
  refine ⟨fun h => h ▸ standsAt_place s a, fun h => ?_⟩
  cases p with
  | reg r =>
    obtain ⟨hregion, hoffset⟩ := region_offset_of_toNat (k := 0) (Nat.zero_add _).symm (lt_of_mem_registerTable h)
    simp [place, hregion, hoffset, mem_registerTable_iff.1 h]
  | unmapped =>
    by_contra hp
    exact h (mapped_of_standsAt hp (standsAt_place s a))
  | _ i =>
    obtain ⟨ha, hi, hlimit⟩ := h
    obtain ⟨hregion, hoffset⟩ := region_offset_of_toNat ha hi
    simp [place, within, hregion, hoffset, hlimit]

/-- Settles O39, from the map both ways. -/
theorem registerMap : Obligations.RegisterMap := by
  unfold Obligations.RegisterMap
  intro s a
  exact ⟨fun _ => place_eq_iff, fun _ => place_eq_iff, fun _ => place_eq_iff, fun _ => place_eq_iff, fun _ => place_eq_iff,
    fun _ => place_eq_iff, fun _ => place_eq_iff, fun _ => place_eq_iff, place_eq_iff,
    fun r => place_eq_iff.1 (place_address State.reset r)⟩

/-! What a read does (20_memory.md R88). -/

section Reads

variable {s : State} {a : Addr}

theorem raise_eq_faulted (e : ErrCode) (op : Byte) (h : s.fault = false) : raise e op s = faulted e op s := raise_eq e op s h

@[simp] theorem busy_eq_true : s.busy = true ↔ s.pending ≠ none := by simp [AnyNum.State.busy, Option.isSome_iff_ne_none]

/-- The places of 20_memory.md R91 are those that stand at `busyOffsets`. -/
theorem readableWhileBusy_place : (place s a).readableWhileBusy = true ↔ a.toNat ∈ busyOffsets := by
  have hreg : ∀ p ∈ registerTable, (p.2.readableWhileBusy = true ↔ p.1 ∈ busyOffsets) := by decide
  have htable : ∀ k ∈ busyOffsets, ∃ p ∈ registerTable, p.1 = k := by decide
  constructor
  · intro h
    cases hp : place s a with
    | reg r => exact (hreg _ (place_eq_iff.1 hp)).1 (hp ▸ h :)
    | _ => simp [hp, Place.readableWhileBusy] at h
  · intro h
    obtain ⟨⟨k, r⟩, hr, rfl⟩ := htable _ h
    rw [(place_eq_iff (p := .reg r)).2 hr]
    exact (hreg _ hr).2 h

/-- In a fault every place is read (20_memory.md R92). -/
theorem memRead_of_fault (h : s.fault = true) : memRead ref64 a s = (placeValue ref64 s (place s a), s) := by
  simp [memRead, h]

/-- The reads that are no fault: idle, in the fault state, or of a register readable while busy. -/
theorem memRead_of_allowed (h : quiet s ∨ s.fault = true ∨ a.toNat ∈ busyOffsets) (hplace : place s a ≠ .unmapped) :
    memRead ref64 a s = (placeValue ref64 s (place s a), s) := by
  obtain ⟨hidle, hclear⟩ | hfault | hbusy := h
  · simp [memRead, AnyNum.State.busy, hidle, hclear, hplace]
  · exact memRead_of_fault hfault
  · simp [memRead, readableWhileBusy_place.2 hbusy, hplace]

theorem memRead_of_busy (hclear : s.fault = false) (hbusy : s.pending ≠ none) (ha : a.toNat ∉ busyOffsets) :
    memRead ref64 a s = (0#64, faulted .busy 0xFF#8 s) := by
  have hread : (place s a).readableWhileBusy = false := by simpa using readableWhileBusy_place.not.2 ha
  rw [← raise_eq_faulted _ _ hclear]
  simp only [memRead, hclear, hread, busy_eq_true.2 hbusy]
  rfl

theorem memRead_unmapped (hs : quiet s) (hplace : place s a = .unmapped) :
    memRead ref64 a s = (0#64, faulted .addr 0xFF#8 s) := by
  obtain ⟨hidle, hclear⟩ := hs
  rw [← raise_eq_faulted _ _ hclear]
  simp only [memRead, hclear, AnyNum.State.busy, hidle, hplace]
  rfl

end Reads

theorem toNat_append_eq {m n : Nat} (x : BitVec m) (y : BitVec n) : (x ++ y).toNat = x.toNat * 2 ^ n + y.toNat := by
  rw [BitVec.toNat_append, ← Nat.shiftLeft_add_eq_or_of_lt y.isLt, Nat.shiftLeft_eq]

theorem toNat_statusWord (s : State) : (statusWord s).toNat = statusNumber s := by
  simp only [statusWord, flag, toNat_append_eq, BitVec.toNat_ofBool, BitVec.toNat_ofNat, statusNumber, AnyNum.State.busy]
  omega

theorem toNat_number (e : ErrCode) : e.number.toNat = codeNumber e := by cases e <;> rfl

theorem toNat_errWord (s : State) : (errWord s).toNat = 256 * s.errOp.toNat + codeNumber s.errCode := by
  simp only [errWord, toNat_append_eq, BitVec.toNat_ofNat, toNat_number]
  omega

@[simp] theorem ref64_enc (x : Sample) : ref64.enc x = x := rfl

@[simp] theorem ref64_encInt (w : Word) : ref64.encInt w = w := rfl

theorem encReg_eq (r : IntReg) : encReg ref64 r = BitVec.ofNat 64 r.toNat := by
  rw [encReg, ref64_encInt, BitVec.ofNat_toNat]

theorem encLen_eq (n : Nat) : encLen ref64 n = BitVec.ofNat 64 (n % 4294967296) := by
  rw [encLen, encReg_eq, BitVec.toNat_ofNat]

/-- The written-out images are the registers of the table with their values. -/
theorem registerImages_eq (s : State) : registerImages s = registerTable.map fun p => (p.1, regValue ref64 s p.2) := by
  simp only [registerImages, registerTable, List.map_cons, List.map_nil, regValue, encReg_eq, encLen_eq, toNat_statusWord,
    toNat_errWord, ref64_enc, ref64_encInt, ← BitVec.ofNat_toNat]
  rfl

/-- A read that is no fault, of a place that is known to stand at the address. -/
theorem memRead_of_standsAt {s : State} {a : Addr} {p : Place} (h : quiet s ∨ s.fault = true ∨ a.toNat ∈ busyOffsets)
    (hne : p ≠ .unmapped) (hp : p.StandsAt s a.toNat) : memRead ref64 a s = (placeValue ref64 s p, s) := by
  obtain rfl := place_eq_iff.2 hp
  exact memRead_of_allowed h hne

theorem toNat_windowAddress {k i : Nat} (hk : k < 8) (hi : i < 0x100000) :
    (BitVec.ofNat 24 (k * 0x100000 + i)).toNat = k * 0x100000 + i := by
  rw [BitVec.toNat_ofNat, Nat.mod_eq_of_lt (by omega)]

/-- A read that is no fault, of an offset of a window. -/
theorem memRead_window {s : State} {k i : Nat} {p : Place} (h : quiet s ∨ s.fault = true) (hk : k < 8) (hi : i < 0x100000)
    (hne : p ≠ .unmapped) (hp : p.StandsAt s (k * 0x100000 + i)) :
    (memRead ref64 (BitVec.ofNat 24 (k * 0x100000 + i)) s).1 = placeValue ref64 s p := by
  rw [memRead_of_standsAt (h.imp_right .inl) hne]
  rwa [toNat_windowAddress hk hi]

theorem placeValue_revH_even (s : State) (k : Nat) : placeValue ref64 s (.revH (2 * k)) = (s.revHAt k).1 := by
  simp [placeValue]

theorem placeValue_revH_odd (s : State) (k : Nat) : placeValue ref64 s (.revH (2 * k + 1)) = (s.revHAt k).2 := by
  have hodd : (2 * k + 1) / 2 = k := by omega
  simp [placeValue, hodd]

theorem windowImages_of_allowed {s : State} (h : quiet s ∨ s.fault = true) :
    windowImages s fun a => (memRead ref64 (BitVec.ofNat 24 a) s).1 := by
  intro i hi
  refine ⟨fun hlt => ?blk, fun hlt => ?irbuf, fun hlt => ?dly, fun hlt => ?hist, fun k hk => ⟨?re, ?im⟩, fun hlt => ?ks,
    fun hlt => ?vib⟩
  case blk => exact memRead_window (k := 1) (p := .blk i) h (by decide) hi nofun ⟨rfl, hi, hlt⟩
  case irbuf => exact memRead_window (k := 2) (p := .irbuf i) h (by decide) hi nofun ⟨rfl, hi, hlt⟩
  case dly => exact memRead_window (k := 3) (p := .dlyBuf i) h (by decide) hi nofun ⟨rfl, hi, hlt⟩
  case hist => exact memRead_window (k := 4) (p := .revHist i) h (by decide) hi nofun ⟨rfl, hi, hlt⟩
  case re =>
    rintro rfl
    exact (memRead_window (k := 5) (p := .revH (2 * k)) h (by decide) hi nofun ⟨rfl, hi, by omega⟩).trans
      (placeValue_revH_even s k)
  case im =>
    rintro rfl
    exact (memRead_window (k := 5) (p := .revH (2 * k + 1)) h (by decide) hi nofun ⟨rfl, hi, by omega⟩).trans
      (placeValue_revH_odd s k)
  case ks => exact memRead_window (k := 6) (p := .ksBuf i) h (by decide) hi nofun ⟨rfl, hi, hlt⟩
  case vib => exact memRead_window (k := 7) (p := .vibBuf i) h (by decide) hi nofun ⟨rfl, hi, hlt⟩

theorem place_eq_unmapped_iff {s : State} {a : Addr} : place s a = .unmapped ↔ ¬ mapped s a.toNat := place_eq_iff

/-- Settles O34: an address that is read names the place the map says, and the written-out images are the values there. -/
theorem hostReadHolds : Obligations.HostRead := by
  unfold Obligations.HostRead
  intro s
  refine ⟨?registers, fun h => ⟨windowImages_of_allowed h, fun a ha => ?mapped⟩, fun hclear hbusy a ha => ?busy,
    fun hs a ha => ?idle, fun hfault a ha => ?faulted⟩
  case registers =>
    rw [registerImages_eq, List.forall_mem_map]
    rintro ⟨k, r⟩ hr h
    have hk : (BitVec.ofNat 24 k).toNat = k := by
      have := lt_of_mem_registerTable hr
      rw [BitVec.toNat_ofNat, Nat.mod_eq_of_lt (by omega)]
    exact memRead_of_standsAt (p := .reg r) (by rwa [hk]) nofun (by rwa [hk])
  case mapped =>
    rw [memRead_of_allowed (h.imp_right .inl) fun hp => place_eq_unmapped_iff.1 hp ha]
  case busy => exact memRead_of_busy hclear hbusy ha
  case idle => exact memRead_unmapped hs (place_eq_unmapped_iff.2 ha)
  case faulted =>
    rw [memRead_of_fault hfault, place_eq_unmapped_iff.2 ha]
    rfl

/-! What a write does (20_memory.md R89). -/

section Writes

variable {s t : State} {a : Addr} {w : Word}

theorem memWrite_of_fault (hctrl : place s a ≠ .reg .ctrl) (h : s.fault = true) : memWrite ref64 a w s = s := by
  simp [memWrite, hctrl, h]

theorem memWrite_of_busy (hctrl : place s a ≠ .reg .ctrl) (hclear : s.fault = false) (hbusy : s.pending ≠ none) :
    memWrite ref64 a w s = faulted .busy 0xFF#8 s := by
  rw [← raise_eq_faulted _ _ hclear]
  simp [memWrite, hctrl, hclear, busy_eq_true.2 hbusy]

theorem memWrite_refused (hs : quiet s) (hctrl : place s a ≠ .reg .ctrl) (hw : writePlace ref64 w s (place s a) = none) :
    memWrite ref64 a w s = faulted .addr 0xFF#8 s := by
  obtain ⟨hidle, hclear⟩ := hs
  rw [← raise_eq_faulted _ _ hclear]
  simp [memWrite, hctrl, hclear, AnyNum.State.busy, hidle, hw]

theorem writePlace_readOnly {r : Reg} (hr : r ∈ readOnlyRegs) : writePlace ref64 w s (.reg r) = none := by
  simp only [readOnlyRegs, List.mem_cons, List.not_mem_nil, or_false] at hr
  rcases hr with rfl | rfl | rfl | rfl | rfl | rfl | rfl | rfl | rfl | rfl | rfl | rfl <;> rfl

/-- Windows 3 to 7 are read-only (20_memory.md R93). -/
theorem writePlace_unitWindow (hlo : 0x300000 ≤ a.toNat) (hhi : a.toNat < 0x800000) :
    writePlace ref64 w s (place s a) = none := by
  have hp := standsAt_place s a
  cases hplace : place s a with
  | reg r =>
    rw [hplace] at hp
    have := lt_of_mem_registerTable hp
    omega
  | blk i | irbuf i =>
    rw [hplace] at hp
    obtain ⟨ha, hi, -⟩ := hp
    omega
  | _ => rfl

end Writes

/-- Settles O35, from the three tests of a write in their order. -/
theorem hostWriteRefused : Obligations.HostWriteRefused := by
  unfold Obligations.HostWriteRefused
  intro a w s hctrl
  refine ⟨memWrite_of_fault hctrl, memWrite_of_busy hctrl, fun hs hplace => memWrite_refused hs hctrl ?_⟩
  obtain hun | ⟨r, hr, hreg⟩ | ⟨hlo, hhi⟩ := hplace
  · rw [hun]
    rfl
  · rw [hreg]
    exact writePlace_readOnly hr
  · exact writePlace_unitWindow hlo hhi

/-! Writes that take effect: parameter registers and cells. -/

section Parameters

variable {s t : State} {w : Word} {r : Reg}

/-- An integer parameter register written with `w` reads back the low 32 bits (20_memory.md R87). -/
theorem regValue_writeParam_int (hr : r ∈ intParams) :
    (writeParam ref64 w s r).map (regValue ref64 · r) = some ((w.extractLsb' 0 32).setWidth 64) := by
  simp only [intParams, List.mem_cons, List.not_mem_nil, or_false] at hr
  rcases hr with rfl | rfl | rfl <;> rfl

theorem writeParam_isSome (hr : r ∈ intParams ++ sampleParams) : ∃ t, writeParam ref64 w s r = some t := by
  have hread : ∃ v, (writeParam ref64 w s r).map (regValue ref64 · r) = some v :=
    (List.mem_append.1 hr).elim (fun h => ⟨_, regValue_writeParam_int h⟩) fun h => ⟨_, regValue_writeParam ref64 w s h⟩
  obtain ⟨v, hv⟩ := hread
  obtain ⟨t, ht, -⟩ := Option.map_eq_some_iff.1 hv
  exact ⟨t, ht⟩

/-- The three writable registers that are not parameters are tested first. -/
theorem writePlace_of_writeParam (h : writeParam ref64 w s r = some t) : writePlace ref64 w s (.reg r) = some t := by
  cases r with
  | cmd | ien | ipend => cases h
  | _ => exact h

/-- An idle block accepts the write of a parameter register. -/
theorem writeParam_eq_memWrite (hs : quiet s) (hr : r ∈ intParams ++ sampleParams) :
    writeParam ref64 w s r = some (memWrite ref64 r.address w s) := by
  obtain ⟨t, ht⟩ := writeParam_isSome (w := w) (s := s) hr
  rw [ht, memWrite_of_quiet hs]
  · rw [place_address, ne_eq, Place.reg.injEq]
    rintro rfl
    cases ht
  · rw [place_address, writePlace_of_writeParam ht]

theorem memRead_address (hs : quiet s) : (memRead ref64 r.address s).1 = regValue ref64 s r := by
  rw [memRead_of_allowed (.inl hs) (by simp), place_address]
  rfl

/-- An accepted parameter write leaves the block idle, so what it stored can be read at once. -/
theorem memRead_memWrite_param (hs : quiet s) (hr : r ∈ intParams ++ sampleParams) :
    (memRead ref64 r.address (memWrite ref64 r.address w s)).1 = regValue ref64 (memWrite ref64 r.address w s) r := by
  obtain ⟨-, -, hpending, hfault, -⟩ := writeParam_keeps (writeParam_eq_memWrite (w := w) hs hr)
  exact memRead_address ⟨hpending.trans hs.1, hfault.trans hs.2⟩

/-- The unit states a parameter write destroys (10_state.md R50). -/
theorem writeParam_units (h : writeParam ref64 w s r = some t) :
    t.dly = (if r = .rate ∨ r = .dlyTime then DlyUnit.destroyed else s.dly) ∧
      t.rev = (if r = .bsize ∨ r = .revIrlen then RevUnit.destroyed else s.rev) ∧
      t.ks = (if r = .ksLen then KsUnit.destroyed else s.ks) ∧
      t.vib = (if r = .rate ∨ r = .vibWidth then VibUnit.destroyed 0x0000000000000000#64 else s.vib) := by
  rw [← whole_zero]
  cases r <;> cases h <;> exact ⟨rfl, rfl, rfl, rfl⟩

theorem writeParam_frame (h : writeParam ref64 w s r = some t) :
    t = { s with params := t.params, dly := t.dly, rev := t.rev, ks := t.ks, vib := t.vib } := by
  cases r <;> cases h <;> rfl

theorem regValue_writeParam_ne (h : writeParam ref64 w s r = some t) {r' : Reg} (hr' : r' ∈ intParams ++ sampleParams)
    (hne : r' ≠ r) : regValue ref64 t r' = regValue ref64 s r' := by
  revert r'
  cases r <;> cases h <;> simp [intParams, sampleParams, regValue]

end Parameters

/-- Settles O36: each claim is about `writeParam`, which an idle block performs. -/
theorem parameterWrite : Obligations.ParameterWrite := by
  unfold Obligations.ParameterWrite
  intro w s hs
  refine ⟨fun r hr => ?int, fun r hr => ?sample, fun r hr => ?effect⟩
  case int =>
    have hmem : r ∈ intParams ++ sampleParams := List.mem_append_left _ hr
    have hread := regValue_writeParam_int (w := w) (s := s) hr
    rw [writeParam_eq_memWrite hs hmem, Option.map_some, Option.some_inj] at hread
    rw [memRead_memWrite_param hs hmem, hread]
  case sample =>
    have hmem : r ∈ intParams ++ sampleParams := List.mem_append_right _ hr
    have hread := regValue_writeParam ref64 w s hr
    rw [writeParam_eq_memWrite hs hmem, Option.map_some, Option.some_inj, ref64_enc_dec] at hread
    rw [memRead_memWrite_param hs hmem, hread]
  case effect =>
    have hwrite := writeParam_eq_memWrite (w := w) hs hr
    obtain ⟨hdly, hrev, hks, hvib⟩ := writeParam_units hwrite
    exact ⟨hdly, hrev, hks, hvib, writeParam_frame hwrite, fun r' hr' hne => regValue_writeParam_ne hwrite hr' hne⟩

section Cells

variable {s : State} {w : Word} {i : Nat}

theorem memWrite_blk (hs : quiet s) (hcap : i < s.caps.maxB) (hi : i < 1048576) :
    memWrite ref64 (blkAddress i) w s = { s with blk := s.blk.write i w } := by
  have hplace : place s (blkAddress i) = .blk i :=
    place_eq_iff.2 ⟨toNat_windowAddress (k := 1) (by decide) hi, hi, hcap⟩
  exact memWrite_of_quiet hs (by simp [hplace]) (by rw [hplace]; rfl)

theorem memRead_blk (hs : quiet s) (hcap : i < s.caps.maxB) (hi : i < 1048576) :
    (memRead ref64 (blkAddress i) s).1 = s.blkAt i :=
  memRead_window (k := 1) (p := .blk i) (.inl hs) (by decide) hi nofun ⟨rfl, hi, hcap⟩

/-- A write of `IRBUF` destroys the REV unit state (10_state.md R50). -/
theorem memWrite_irbuf (hs : quiet s) (hcap : i < s.caps.maxIR) (hi : i < 1048576) :
    memWrite ref64 (irAddress i) w s = destroyRev { s with irbuf := s.irbuf.write i w } := by
  have hplace : place s (irAddress i) = .irbuf i :=
    place_eq_iff.2 ⟨toNat_windowAddress (k := 2) (by decide) hi, hi, hcap⟩
  exact memWrite_of_quiet hs (by simp [hplace]) (by rw [hplace]; rfl)

theorem memRead_irbuf (hs : quiet s) (hcap : i < s.caps.maxIR) (hi : i < 1048576) :
    (memRead ref64 (irAddress i) s).1 = s.irAt i :=
  memRead_window (k := 2) (p := .irbuf i) (.inl hs) (by decide) hi nofun ⟨rfl, hi, hcap⟩

end Cells

/-- Settles O37: the address names the cell before and after the write, and the write is `Memory.write`. -/
theorem cellWrite : Obligations.CellWrite := by
  unfold Obligations.CellWrite
  intro i w s hs
  refine ⟨fun hcap hi => ?blk, fun hcap hi => ?irbuf⟩
  case blk =>
    rw [memWrite_blk hs hcap hi]
    have hread := memRead_blk (s := { s with blk := s.blk.write i w }) hs hcap hi
    exact ⟨hread.trans (Memory.read_write_same _ _ _ _), rfl, fun j hj => Memory.read_write_ne _ _ _ hj⟩
  case irbuf =>
    rw [memWrite_irbuf hs hcap hi]
    have hread := memRead_irbuf (s := destroyRev { s with irbuf := s.irbuf.write i w }) hs hcap hi
    exact ⟨hread.trans (Memory.read_write_same _ _ _ _), rfl, fun j hj => Memory.read_write_ne _ _ _ hj⟩

end Sys2Proof.Machine

/-! The encoding: when a word decodes, when it matches a row, and what the engine does with one that does neither
(30_encoding.md R110 to R114). -/

namespace Sys2Proof

open Sys2Proof.Claims

/-- 30_encoding.md R110: two words with the same fields are the same word. -/
theorem cmd_eq_iff {c d : Cmd} : c = d ↔ rsvField c = rsvField d ∧ argField c = argField d ∧ opField c = opField d := by
  refine ⟨by rintro rfl; exact ⟨rfl, rfl, rfl⟩, fun ⟨hrsv, harg, hop⟩ => ?_⟩
  rw [cmd_eq_fields c, cmd_eq_fields d, hrsv, harg, hop]

@[simp] theorem rsvField_and (c d : Cmd) : rsvField (c &&& d) = rsvField c &&& rsvField d := BitVec.extractLsb'_and
@[simp] theorem argField_and (c d : Cmd) : argField (c &&& d) = argField c &&& argField d := BitVec.extractLsb'_and
@[simp] theorem opField_and (c d : Cmd) : opField (c &&& d) = opField c &&& opField d := BitVec.extractLsb'_and

/-- 30_encoding.md R113: a number outside 1 to 4 names no mode. -/
theorem decodeMode_unnamed {m : Byte} (h : m = 0#8 ∨ 5 ≤ m.toNat) : decodeMode m = .unknown m := by
  have hne (k : Byte) (hk : k ≠ 0#8) (hlt : k.toNat < 5) : m ≠ k := by
    rintro rfl
    exact h.elim hk (by omega)
  rw [decodeMode, if_neg (hne 1#8 (by decide) (by decide)), if_neg (hne 2#8 (by decide) (by decide)),
    if_neg (hne 3#8 (by decide) (by decide)), if_neg (hne 4#8 (by decide) (by decide))]

theorem decodeMode_code {m : DstMode} (h : m.wellFormed = true) : decodeMode m.code = m := by
  cases m with
  | unknown code =>
    have hcode : code = 0#8 ∨ 5#8 ≤ code := by simpa [DstMode.wellFormed] using h
    exact decodeMode_unnamed (hcode.imp_right BitVec.le_def.1)
  | _ => rfl

/-- Decode inverts encode (30_encoding.md R110 to R113): only the mode of `DST.APPLY` can carry a value the word cannot. -/
theorem decode_encode {i : Instr} (h : i.wellFormed = true) : decode (encode i) = .ok i := by
  cases i with
  | dstApply m =>
    have hmode : decodeMode m.code = m := decodeMode_code h
    simp [decode, Instr.opcode, Instr.argument, hmode]
  | _ => rfl

theorem encode_eq_of_fields {c : Cmd} {i : Instr} (hrsv : rsvField c = 0#16) (hop : opField c = i.opcode)
    (harg : argField c = i.argument) : encode i = c :=
  ((Laws.EncodedFields.every i).2 c hrsv harg hop).symm

theorem decode_of_fields {c : Cmd} {i : Instr} (hrsv : rsvField c = 0#16) (hop : opField c = i.opcode)
    (harg : argField c = i.argument) (hwf : i.wellFormed = true) : decode c = .ok i := by
  rw [← encode_eq_of_fields hrsv hop harg]
  exact decode_encode hwf

/-- Settles O4: decode inverts encode, and a word that decodes is its three fields. -/
theorem decodeEncodeInverse : Obligations.DecodeEncodeInverse := by
  unfold Obligations.DecodeEncodeInverse
  refine ⟨fun _ => decode_encode, fun c i h => ?_⟩
  obtain ⟨hrsv, hop, harg, hwf⟩ := decode_ok h
  exact ⟨hwf, encode_eq_of_fields hrsv hop harg⟩

/-! The rows of 30_encoding.md R112. -/

theorem rsvField_row (i : Instr) : rsvField (row i).1 = 0#16 ∧ rsvField (row i).2 = BitVec.allOnes 16 := by
  cases i <;> simp only [row] <;> decide

theorem opField_row (i : Instr) : opField (row i).1 = i.opcode ∧ opField (row i).2 = BitVec.allOnes 8 := by
  cases i <;> simp only [row, Instr.opcode] <;> decide

/-- Only the row of `DST.APPLY` leaves the bits of `arg` free. -/
theorem argField_row (i : Instr) :
    argField (row i).1 = 0#8 ∧ argField (row i).2 = if i.opcode = 0x20#8 then 0#8 else BitVec.allOnes 8 := by
  cases i <;> simp only [row, Instr.opcode] <;> decide

/-- What a word that matches a row has in its fields. -/
theorem matches_row_iff {c : Cmd} {i : Instr} :
    c &&& (row i).2 = (row i).1 ↔ rsvField c = 0#16 ∧ opField c = i.opcode ∧ (opField c = 0x20#8 ∨ argField c = 0#8) := by
  have harg : argField c &&& argField (row i).2 = 0#8 ↔ i.opcode = 0x20#8 ∨ argField c = 0#8 := by
    rw [(argField_row i).2]
    by_cases hdst : i.opcode = 0x20#8
    · simp [hdst]
    · rw [if_neg hdst, BitVec.and_allOnes, or_iff_right hdst]
  rw [cmd_eq_iff, rsvField_and, argField_and, opField_and, (rsvField_row i).1, (rsvField_row i).2, (argField_row i).1,
    (opField_row i).1, (opField_row i).2, BitVec.and_allOnes, BitVec.and_allOnes, harg]
  constructor
  · rintro ⟨hrsv, harg, hop⟩
    exact ⟨hrsv, hop, hop ▸ harg⟩
  · rintro ⟨hrsv, hop, harg⟩
    exact ⟨hrsv, hop ▸ harg, hop⟩

theorem matches_row_of_decode {c : Cmd} {i : Instr} (h : decode c = .ok i) : c &&& (row i).2 = (row i).1 := by
  obtain ⟨hrsv, hop, harg, -⟩ := decode_ok h
  refine matches_row_iff.2 ⟨hrsv, hop, ?_⟩
  rw [hop, harg]
  cases i with
  | dstApply m => exact .inl rfl
  | _ => exact .inr rfl

/-- The command is `DST.APPLY` of the mode that `arg` names, or the row's only one. -/
theorem decode_of_matches_row {c : Cmd} {i : Instr} (h : c &&& (row i).2 = (row i).1) :
    ∃ j, decode c = .ok j ∧ row j = row i := by
  obtain ⟨hrsv, hop, harg⟩ := matches_row_iff.1 h
  cases i with
  | dstApply m =>
    exact ⟨.dstApply (decodeMode (argField c)),
      decode_of_fields hrsv hop (code_decodeMode _).symm (wellFormed_decodeMode _), rfl⟩
  | _ => exact ⟨_, decode_of_fields hrsv hop (harg.resolve_left (by rw [hop]; decide)) rfl, rfl⟩

/-- Settles O2: matching a row and decoding to one say the same of the three fields. -/
theorem decodeMatchesRow : Obligations.DecodeMatchesRow := by
  unfold Obligations.DecodeMatchesRow
  exact ⟨fun _ _ => matches_row_of_decode, fun _ _ => decode_of_matches_row⟩

/-! Illegal words. -/

theorem mem_opcodes_iff {op : Byte} :
    op ∈ [0x00#8, 0x10#8, 0x11#8, 0x20#8, 0x30#8, 0x31#8, 0x40#8, 0x41#8, 0x50#8, 0x51#8] ↔
      ∃ i : Instr, op = i.opcode := by
  constructor
  · intro h
    simp only [List.mem_cons, List.not_mem_nil, or_false] at h
    rcases h with h | h | h | h | h | h | h | h | h | h
    exacts [⟨.nop, h⟩, ⟨.dlyInit, h⟩, ⟨.dlyApply, h⟩, ⟨.dstApply .soft, h⟩, ⟨.revInit, h⟩, ⟨.revApply, h⟩, ⟨.ksPluck, h⟩,
      ⟨.ksGen, h⟩, ⟨.vibInit, h⟩, ⟨.vibApply, h⟩]
  · rintro ⟨i, rfl⟩
    cases i <;> simp [Instr.opcode]

/-- The words that decode are those that match a row. -/
theorem exists_decode_ok_iff {c : Cmd} :
    (∃ i, decode c = .ok i) ↔
      rsvField c = 0#16 ∧ (∃ i : Instr, opField c = i.opcode) ∧ (opField c = 0x20#8 ∨ argField c = 0#8) := by
  constructor
  · rintro ⟨i, h⟩
    obtain ⟨hrsv, hop, harg⟩ := matches_row_iff.1 (matches_row_of_decode h)
    exact ⟨hrsv, ⟨i, hop⟩, harg⟩
  · rintro ⟨hrsv, ⟨i, hop⟩, harg⟩
    obtain ⟨j, hj, -⟩ := decode_of_matches_row (matches_row_iff.2 ⟨hrsv, hop, harg⟩)
    exact ⟨j, hj⟩

theorem exists_decode_error_iff {c : Cmd} : (∃ e, decode c = .error e) ↔ ¬ ∃ i, decode c = .ok i := by
  cases decode c <;> simp

end Sys2Proof

namespace Sys2Proof.Machine

open Sys2Proof.Claims

/-- In the engine's turn the step is the engine's, on the rest of the script (30_encoding.md R117, 70_reset_and_hazards.md
R347). -/
theorem step_of_engineTurn {s : State} {rest : List (BusOp Word)} (h : engineTurn s rest) :
    step s = engineStep exec (withScript rest s) := by
  obtain hs | ⟨hs, rfl⟩ := h
  · rw [step, agentStep, hs]
  · rw [step, agentStep, hs, withScript_nil hs]

theorem engineStep_of_illegal {s : State} {c : Cmd} {e : Illegal} (hc : s.pending = some c) (hclear : s.fault = false)
    (he : decode c = .error e) : engineStep exec s = .next (faulted .illCmd (opField c) s) := by
  simp [engineStep, hc, hclear, he, illegalCommand, raise_eq_faulted]

/-- The write of `CMD` looks at no bit of the word (30_encoding.md R114, 40_commands.md R140). -/
theorem memWrite_cmd {s : State} (w : Word) (hs : quiet s) :
    memWrite ref64 Reg.cmd.address w s = { s with pending := some (commandOf w) } :=
  memWrite_of_quiet hs (by simp) (by rw [place_address]; rfl)

/-- Settles O3: a word is illegal when it matches no row, and the engine then raises one fault. -/
theorem illegalWordsFault : Obligations.IllegalWordsFault := by
  unfold Obligations.IllegalWordsFault
  refine ⟨fun c => ?illegal, fun s c e rest hc hclear hturn he => ?engine, fun s w hs => memWrite_cmd w hs⟩
  case illegal =>
    rw [exists_decode_error_iff, exists_decode_ok_iff, mem_opcodes_iff]
    tauto
  case engine =>
    rw [step_of_engineTurn hturn]
    exact engineStep_of_illegal hc hclear he

/-- Settles O1, by decoding each word. -/
theorem tableWordsDecode : Obligations.TableWordsDecode := by
  unfold Obligations.TableWordsDecode
  decide

theorem clip_eq_clip64 (v lo hi : Sample) : ref64.clip v lo hi = clip64 v lo hi := rfl

/-- The transfer function of each mode (42_distortion.md R181 to R185). -/
theorem shape_eq_wet (m : DstMode) (a x : Sample) : shape ref64 m a x = wet m a x := by
  cases m with
  | soft => rfl
  | hard => simp only [shape, wet, shapeHard, hardThreshold, clip_eq_clip64, Num.whole]
  | sine => rfl
  | bitcrush => simp only [shape, wet, shapeBitcrush, crushLevels, clip_eq_clip64, Num.whole]
  | unknown _ => rfl

/-- Settles O5: the table of modes, and the transfer function of each. -/
theorem modeFieldMeaning : Obligations.ModeFieldMeaning := by
  unfold Obligations.ModeFieldMeaning
  refine fun m => ⟨?soft, ?hard, ?sine, ?bitcrush, decodeMode_unnamed, shape_eq_wet (decodeMode m)⟩
  all_goals rintro rfl; rfl

end Sys2Proof.Machine

/-! Proofs of the statements on 40_commands.md: the bookkeeping of a performed command, the cells it writes, and the step
that performs it. -/

namespace Sys2Proof.Machine

open Sys2Proof.Claims

/-- Settles O8: a fault commits nothing, and a command that ends well leaves the bookkeeping fields to `complete`. -/
theorem commandBookkeeping : Obligations.CommandBookkeeping := by
  unfold Obligations.CommandBookkeeping
  intro i s t hclear h
  obtain ⟨e, -, rfl⟩ | ⟨u, hu, rfl⟩ := exec_cases h
  case inl =>
    rw [raise_eq_faulted e _ hclear]
    exact ⟨rfl, fun hno => by simp [faulted] at hno, fun _ => ⟨rfl, rfl⟩⟩
  case inr =>
    obtain ⟨-, hfault, hcode, hop, hipend, hcnt, -⟩ := performed_keeps hu
    exact ⟨rfl, fun _ => by simp [hcode, hop, hipend, hcnt], fun hset => by simp [hfault, hclear] at hset⟩

/-- A command leaves `BLK` alone, or it is one that writes the block and writes at most `B` cells from 0 on
(40_commands.md R145). -/
theorem performed_blk_within_block {i : Instr} {s u : State} (h : performed ref64 i s = .ok u) :
    u.blk = s.blk ∨
      (writesBlock i = true ∧ ∃ out : List Sample, out.length ≤ blockLen s ∧ u.blk = s.blk.writeList 0 out) := by
  have hlen : ∀ {B}, blockSize s = .ok B → B ≤ blockLen s := fun hB => (blockSize_ok hB).1.le
  cases i <;> simp only [performed] at h
  case nop => cases h; exact .inl rfl
  case dlyInit => obtain ⟨n, -, rfl⟩ := dlyInit_ok h; exact .inl rfl
  case dlyApply =>
    obtain ⟨B, hB, -, rfl⟩ := dlyApply_ok h
    exact .inr ⟨rfl, _, (length_dlyRun s B).trans_le (hlen hB), rfl⟩
  case dstApply =>
    obtain ⟨B, hB, rfl⟩ := dstApply_ok h
    exact .inr ⟨rfl, _, by simpa using hlen hB, rfl⟩
  case revInit => obtain ⟨B, -, -, -, -, rfl⟩ := revInit_ok h; exact .inl rfl
  case revApply =>
    obtain ⟨B, hB, -, -, -, rfl⟩ := revApply_ok h
    exact .inr ⟨rfl, _, (length_revOutput _ B).trans_le (le_trans (by omega) (hlen hB)), rfl⟩
  case ksPluck => obtain ⟨-, -, rfl⟩ := ksPluck_ok h; exact .inl rfl
  case ksGen =>
    obtain ⟨B, hB, -, rfl⟩ := ksGen_ok h
    exact .inr ⟨rfl, _, (length_ksRun s B).trans_le (hlen hB), rfl⟩
  case vibInit => obtain ⟨n, -, rfl⟩ := vibInit_ok h; exact .inl rfl
  case vibApply =>
    obtain ⟨B, r, hB, -, hr, rfl⟩ := vibApply_ok h
    exact .inr ⟨rfl, _, (length_vibRun hr).trans_le (hlen hB), rfl⟩

/-- As a list is written from cell 0 on, the cells past its end stay. -/
theorem Memory.read_writeList_of_length_le {α : Type} (unw : Nat → α) (m : Memory α) {vs : List α} {j : Nat}
    (h : vs.length ≤ j) : (m.writeList 0 vs).read unw j = m.read unw j := by
  rw [Memory.read_writeList, dif_neg (by omega)]

/-- Settles O33: a fault writes no cell, and a command that ends well writes at most its block. -/
theorem commandsWriteOnlyTheBlock : Obligations.CommandsWriteOnlyTheBlock := by
  unfold Obligations.CommandsWriteOnlyTheBlock
  intro i s t h a ha
  have hunw := unwritten_eq_of_epoch (exec_frame h).epoch
  simp only [AnyNum.State.blkAt, hunw]
  obtain ⟨e, -, rfl⟩ | ⟨u, hu, rfl⟩ := exec_cases h
  case inl => rw [raise_blk]
  case inr =>
    rw [complete_blk]
    obtain hsame | ⟨hwrites, out, hout, hblk⟩ := performed_blk_within_block hu
    · rw [hsame]
    · rw [hblk, Memory.read_writeList_of_length_le _ _ (hout.trans (ha hwrites))]

/-- The engine performs a pending word that decodes (40_commands.md R141). -/
theorem engineStep_of_decoded {s : State} {c : Cmd} {i : Instr} (hc : s.pending = some c) (hclear : s.fault = false)
    (hi : decode c = .ok i) : engineStep exec s = exec i s := by
  simp [engineStep, hc, hclear, hi]

/-- In the engine's turn the step performs the pending command on the rest of the script. -/
theorem step_of_decoded {s : State} {c : Cmd} {i : Instr} {rest : List (BusOp Word)} (hc : s.pending = some c)
    (hclear : s.fault = false) (hturn : engineTurn s rest) (hi : decode c = .ok i) :
    step s = exec i (withScript rest s) := by
  rw [step_of_engineTurn hturn]
  exact engineStep_of_decoded hc hclear hi

/-- Settles O6: `withFetchWord` is an instance of the engine's turn with a word pending. -/
theorem stepPerformsCommand : Obligations.StepPerformsCommand := by
  unfold Obligations.StepPerformsCommand
  refine ⟨fun s c i rest hc hclear hturn hi => step_of_decoded hc hclear hturn hi, fun s w i hi hw => ?_⟩
  have hpending : (s.withFetchWord 32 w).pending = some (BitVec.ofNat 32 w) := by
    simp [State.withFetchWord, acceptWord, Nat.mod_eq_of_lt hw]
  rw [step_of_decoded (rest := s.host.script) hpending rfl (.inl rfl) hi, withScript, hpending]
  rfl

/-- Settles O11: the word 0 is `NOP`, and performing it commits the state it finds (40_commands.md R146). -/
theorem nopCompletes : Obligations.NopCompletes := by
  unfold Obligations.NopCompletes
  exact ⟨by decide, fun s => exec_of_ok rfl⟩

end Sys2Proof.Machine

/-! Proofs of the statements on 41_delay.md. First what a sample loop does when its state before each sample is described,
and the checks shared by the commands that use the block. -/

namespace Sys2Proof.Machine

open Sys2Proof.Claims

/-- A loop whose state before sample `k` satisfies `R k` puts out `out k` there, and ends in `R` of the number of samples. -/
theorem loop_describedBy {α σ β : Type} (f : σ → α → β × σ) (xs : List α) : ∀ (R : Nat → σ → Prop) (out : Nat → β),
    (∀ k (hk : k < xs.length) c, R k c → (f c xs[k]).1 = out k ∧ R (k + 1) (f c xs[k]).2) →
    ∀ c, R 0 c → (loop f c xs).1 = (List.range xs.length).map out ∧ R xs.length (loop f c xs).2 := by
  induction xs with
  | nil => exact fun R out _ c h0 => ⟨rfl, h0⟩
  | cons x xs ih =>
    intro R out hstep c h0
    obtain ⟨hout, h1⟩ := hstep 0 (Nat.zero_lt_succ _) c h0
    obtain ⟨houts, hend⟩ := ih (fun k => R (k + 1)) (fun k => out (k + 1))
      (fun k hk => hstep (k + 1) (Nat.succ_lt_succ hk)) _ h1
    refine ⟨?_, hend⟩
    rw [List.length_cons, List.range_succ_eq_map, List.map_cons, List.map_map, loop_cons]
    exact congrArg₂ List.cons hout houts

theorem blockSize_of_blockLegal {s : State} (h : blockLegal s) : blockSize s = .ok (blockLen s) :=
  blockSize_legal (Nat.one_le_iff_ne_zero.1 h.1) h.2

theorem blockSize_of_not_blockLegal {s : State} (h : ¬ blockLegal s) : blockSize s = .error .bsize :=
  blockSize_illegal (by unfold blockLegal at h; omega)

/-- The block size is the first thing checked (40_commands.md R144, 60_exceptions.md R285). -/
theorem performed_of_not_blockLegal {i : Instr} {s : State} (hi : usesBlock i = true) (h : ¬ blockLegal s) :
    performed ref64 i s = .error .bsize := by
  have hsize := blockSize_of_not_blockLegal h
  cases i
  case nop | dlyInit | ksPluck | vibInit => cases hi
  case dlyApply => simp [performed, dlyApply, hsize]
  case dstApply => simp [performed, dstApply, hsize]
  case revInit => simp [performed, revInit, hsize]
  case revApply => simp [performed, revApply, hsize]
  case ksGen => simp [performed, ksGen, hsize]
  case vibApply => simp [performed, vibApply, hsize]

/-- The state of the unit is the second thing checked (60_exceptions.md R285). -/
theorem performed_of_not_unitReady {i : Instr} {s : State} (h : blockLegal s) (hu : unitReady i s = false) :
    performed ref64 i s = .error .noState := by
  have hsize := blockSize_of_blockLegal h
  cases i
  case nop | dlyInit | dstApply | revInit | ksPluck | vibInit => cases hu
  case dlyApply => simp [performed, dlyApply, hsize, show s.dly.valid = false from hu]
  case revApply => simp [performed, revApply, hsize, show s.rev.valid = false from hu]
  case ksGen => simp [performed, ksGen, hsize, show s.ks.valid = false from hu]
  case vibApply => simp [performed, vibApply, hsize, show s.vib.valid = false from hu]

/-- A faulting command from an unfaulted state enters the fault and commits nothing (60_exceptions.md R283, R289). -/
theorem exec_eq_faulted {i : Instr} {s : State} {e : ErrCode} (hclear : s.fault = false)
    (h : performed ref64 i s = .error e) : exec i s = .next (faulted e i.opcode s) := by
  rw [exec_of_error h, raise_eq_faulted e _ hclear]

theorem firstChecks_of_usesBlock {i : Instr} (hi : usesBlock i = true) (s : State) : firstChecks i s := fun hclear =>
  ⟨fun h => exec_eq_faulted hclear (performed_of_not_blockLegal hi h),
    fun h hu => exec_eq_faulted hclear (performed_of_not_unitReady h hu)⟩

/-! `DLY.INIT`. -/

theorem dlyLength_of_fits {S W : Type} {N : Num S W} {cap : Nat} {time rate : S} (hfin : N.isfin (N.mul time rate) = true)
    (hpos : 0 < N.ifloor (N.mul time rate)) (hcap : N.ifloor (N.mul time rate) ≤ cap) :
    dlyLength N cap time rate = .ok (N.ifloor (N.mul time rate)).toNat := by
  simp [dlyLength, hfin, hpos.not_ge, hcap.not_gt]

theorem dlyLength_of_unfit {S W : Type} {N : Num S W} {cap : Nat} {time rate : S}
    (h : N.isfin (N.mul time rate) = false ∨ N.ifloor (N.mul time rate) ≤ 0 ∨ (cap : Int) < N.ifloor (N.mul time rate)) :
    dlyLength N cap time rate = .error .dlyLen := by
  unfold dlyLength
  dsimp only
  split_ifs with hfin hpos hcap
  · rfl
  · rfl
  · rfl
  · exact absurd h (by simp [hfin, hpos, hcap])

/-- A line of `n` equal cells reads that value at each of them. -/
theorem Memory.read_ofList_replicate {α : Type} (unw : Nat → α) (v : α) {n i : Nat} (h : i < n) :
    (Memory.ofList 0 (List.replicate n v)).read unw i = v := by
  simp [Memory.read_ofList, h]

/-- Settles O12: the length of R160 is computed or refused, and a computed one is committed with a line of zeros. -/
theorem dlyInitResult : Obligations.DlyInitResult := by
  unfold Obligations.DlyInitResult
  refine ⟨by decide, fun s => ⟨fun hfin hpos hcap => ?fits, fun hclear hunfit => ?unfit⟩⟩
  case fits =>
    exact ⟨_, exec_of_ok (i := .dlyInit) (dlyInit_of (dlyLength_of_fits hfin hpos hcap)), rfl, rfl,
      Int.toNat_of_nonneg hpos.le, rfl, fun i hi => Memory.read_ofList_replicate _ _ hi⟩
  case unfit =>
    have hlen := dlyLength_of_unfit hunfit
    exact exec_eq_faulted hclear (by simp [performed, dlyInit, hlen])

/-! `DLY.APPLY`. -/

/-- The machine's loop before sample `k` has the index and the cells of the recursion of 41_delay.md R161. -/
structure DlyLoop.Follows (s : State) (k : Nat) (c : DlyLoop Sample) : Prop where
  idx   : c.idx = dlyIndex s k
  cells : ∀ i, c.buf.read (s.unwritten .dlyBuf) i = dlyLine s k i

theorem DlyLoop.Follows.sample {s : State} {k : Nat} {c : DlyLoop Sample} (h : c.Follows s k) :
    (dlySample ref64 (s.unwritten .dlyBuf) s.dly.n s.params.dlyFb s.params.dlyMix c (s.blkAt k)).1 = dlyOut s k ∧
    (dlySample ref64 (s.unwritten .dlyBuf) s.dly.n s.params.dlyFb s.params.dlyMix c (s.blkAt k)).2.Follows s (k + 1) := by
  obtain ⟨hidx, hcells⟩ := h
  refine ⟨?out, ?idx, fun i => ?cells⟩
  case out => simp only [dlySample, hidx, hcells, dlyOut, Num.whole]
  case idx => simp only [dlySample, hidx, dlyIndex]
  case cells => simp only [dlySample, Memory.read_write, hidx, hcells, dlyLine]

theorem dlyRun_follows (s : State) (B : Nat) :
    (dlyRun ref64 s B).1 = (List.range B).map (dlyOut s) ∧ (dlyRun ref64 s B).2.Follows s B := by
  have h := loop_describedBy (dlySample ref64 (s.unwritten .dlyBuf) s.dly.n s.params.dlyFb s.params.dlyMix)
    (inputBlock s B) (fun k c => c.Follows s k) (dlyOut s)
    (fun k hk c hc => by rw [getElem_inputBlock]; exact hc.sample) { idx := s.dly.idx, buf := s.dly.buf } ⟨rfl, fun _ => rfl⟩
  rwa [length_inputBlock] at h

@[simp] theorem blkAt_complete (s : State) (k : Nat) : (complete s).blkAt k = s.blkAt k := rfl

/-- A committed block of the samples `out 0`, `out 1`, … is read back from `BLK` (40_commands.md R145). -/
theorem blkAt_complete_outputBlock_map_range (out : Nat → Sample) (s : State) {B k : Nat} (h : k < B) :
    (complete (outputBlock ((List.range B).map out) s)).blkAt k = out k := by
  simp [blkAt_outputBlock, h]

/-- Settles O13: the machine's loop follows the recursion of R161 sample by sample. -/
theorem dlyApplyResult : Obligations.DlyApplyResult := by
  unfold Obligations.DlyApplyResult
  refine ⟨by decide, fun s => ⟨firstChecks_of_usesBlock rfl s, fun hlegal hvalid => ?_⟩⟩
  obtain ⟨hout, hidx, hcells⟩ := dlyRun_follows s (blockLen s)
  refine ⟨_, exec_of_ok (i := .dlyApply) (dlyApply_of (blockSize_of_blockLegal hlegal) hvalid), rfl, fun k hk => ?_,
    hcells, hidx, rfl, hvalid⟩
  rw [hout]
  exact blkAt_complete_outputBlock_map_range _ _ hk

/-! A fresh line without feedback, in exact arithmetic (41_delay.md R166). -/

section PlainDelay

variable {F : Type} [Field F] {unw : Nat → F} {n : Nat} {u : Nat → F}

/-- The signal `u`, zero before its start, `n` samples before sample `k`. -/
def delayedBy (u : Nat → F) (n k : Nat) : F := if n ≤ k then u (k - n) else 0

/-- Before sample `k` the cursor stands at `k` modulo `n`, and from there on around the line stand the last `n` samples of
the signal, the oldest first: the cell that sample `k + d` will read holds the signal `n` samples before `k + d`. -/
structure DlyLoop.HoldsLast (unw : Nat → F) (n : Nat) (u : Nat → F) (k : Nat) (c : DlyLoop F) : Prop where
  idx   : c.idx = k % n
  cells : ∀ d < n, c.buf.read unw ((k + d) % n) = delayedBy u n (k + d)

theorem DlyLoop.holdsLast_fresh (hn : 1 ≤ n) :
    DlyLoop.HoldsLast unw n u 0 { idx := 0, buf := Memory.ofList 0 (List.replicate n 0) } where
  idx := (Nat.zero_mod n).symm
  cells d hd := by
    rw [Memory.read_ofList_replicate _ _ (Nat.mod_lt _ hn), delayedBy, if_neg (by omega)]

/-- Cells less than one turn apart on the line are different. -/
theorem add_mod_ne_self_mod {k d : Nat} (hpos : 0 < d) (hd : d < n) : (k + d) % n ≠ k % n := by
  intro h
  have hzero : d ≡ 0 [MOD n] := Nat.ModEq.add_left_cancel' k h
  exact hpos.ne' (hzero.eq_of_lt_of_lt hd (hpos.trans hd))

theorem DlyLoop.HoldsLast.sample [LinearOrder F] [IsStrictOrderedRing F] [FloorRing F] {W : Type} {N : Num F W} {k : Nat}
    {c : DlyLoop F} (h : c.HoldsLast unw n u k) (hN : N.Exact) (hn : 1 ≤ n) (mix : F) :
    (dlySample N unw n 0 mix c (u k)).1 = (1 - mix) * u k + mix * delayedBy u n k ∧
    (dlySample N unw n 0 mix c (u k)).2.HoldsLast unw n u (k + 1) := by
  obtain ⟨hidx, hcells⟩ := h
  have hadd : ∀ x y, N.add x y = x + y := fun x y => (hN.arithmetic x y).1
  have hsub : ∀ x y, N.sub x y = x - y := fun x y => (hN.arithmetic x y).2.1
  have hmul : ∀ x y, N.mul x y = x * y := fun x y => (hN.arithmetic x y).2.2.1
  have hone : N.whole 1 = 1 := by simp [Num.whole, hN.literals.1]
  have hdelayed : c.buf.read unw c.idx = delayedBy u n k := hidx ▸ hcells 0 hn
  refine ⟨?out, ?idx, fun d hd => ?cells⟩
  case out => simp only [dlySample, hadd, hsub, hmul, hone, hdelayed]
  case idx => simp only [dlySample, hidx, Nat.mod_add_mod]
  case cells =>
    rw [Nat.add_assoc, Nat.add_comm 1 d]
    simp only [dlySample, hadd, hmul, mul_zero, add_zero, hidx]
    obtain hlast | hlt : d + 1 = n ∨ d + 1 < n := by omega
    · rw [hlast, Nat.add_mod_right, Memory.read_write_same, delayedBy, if_pos (Nat.le_add_left n k), Nat.add_sub_cancel]
    · rw [Memory.read_write_ne _ _ _ (add_mod_ne_self_mod d.succ_pos hlt), hcells (d + 1) hlt]

end PlainDelay

/-- Settles O14: the line always holds the last `n` samples of the signal. -/
theorem dlyPlainDelay : Obligations.DlyPlainDelay := by
  unfold Obligations.DlyPlainDelay
  intro F _ _ _ _ W N unw n B mix u hN hn
  have h := loop_describedBy (dlySample N unw n 0 mix) ((List.range B).map u) (DlyLoop.HoldsLast unw n u)
    (fun k => (1 - mix) * u k + mix * delayedBy u n k)
    (fun k hk c hc => by rw [List.getElem_map, List.getElem_range]; exact hc.sample hN hn mix)
    _ (DlyLoop.holdsLast_fresh hn)
  rw [List.length_map, List.length_range] at h
  exact h.1

end Sys2Proof.Machine

/-! Proofs of the statements on 42_distortion.md. First the rules of `clip`, of zeros and of size in `REF64`. -/

namespace Sys2Proof.Machine.Binary64

theorem key_pack_magnitude (x : Sample) : key (pack false (magnitude x)) = magnitude x := by
  rw [key, negative_pack (magnitude_lt x), magnitude_pack (magnitude_lt x)]
  rfl

theorem negative_eq_of_key_ne_zero {x : Sample} (h : key x ≠ 0) : negative x = decide (key x < 0) := by
  unfold key at h ⊢
  cases hx : negative x with
  | false => simp
  | true =>
    rw [hx, if_pos rfl] at h
    simp only [if_true]
    exact (decide_eq_true (by omega)).symm

/-- Apart from the zeros, samples with the same key are the same. -/
theorem eq_of_key_eq {x y : Sample} (h : key x = key y) (hne : key y ≠ 0) : x = y := by
  have hmag : (magnitude x : Int) = magnitude y := by rw [← abs_key, ← abs_key, h]
  rw [← pack_eta x, ← pack_eta y, negative_eq_of_key_ne_zero hne, negative_eq_of_key_ne_zero (h ▸ hne), h,
    Int.ofNat_inj.mp hmag]

theorem isNaN_abs (x : Sample) : isNaN (abs x) = isNaN x := by
  cases hx : isNaN x with
  | true => simp [abs, hx]
  | false => rw [abs_of_not_isNaN hx, isNaN_pack_magnitude, hx]

theorem isFinite_abs {x : Sample} (hx : isFinite x = true) : isFinite (abs x) = true := by
  rw [abs_of_not_isNaN (not_isNaN_of_isFinite hx)]
  exact isFinite_pack_magnitude false hx

theorem value_abs {x : Sample} (hx : isFinite x = true) : value (abs x) = |value x| := by
  rw [abs_of_not_isNaN (not_isNaN_of_isFinite hx), value_pack_magnitude]

theorem isFinite_neg {x : Sample} (hx : isFinite x = true) : isFinite (neg x) = true := by
  rw [neg_of_not_isNaN (not_isNaN_of_isFinite hx), isFinite_flip, hx]

theorem value_neg {x : Sample} (hx : isFinite x = true) : value (neg x) = -value x := by
  rw [neg_of_not_isNaN (not_isNaN_of_isFinite hx), value_flip]

theorem le_refl_of_not_isNaN {x : Sample} (hx : isNaN x = false) : le x x = true := (le_iff_key hx hx).mpr le_rfl

theorem not_isNaN_of_le_right {x y : Sample} (h : le x y = true) : isNaN y = false := by
  by_contra hy
  rw [le_of_isNaN (.inr (by simpa using hy))] at h
  cases h

/-- A sample no larger than a finite one is finite. -/
theorem isFinite_of_abs_le {x y : Sample} (hy : isFinite y = true) (h : le (abs x) y = true) : isFinite x = true := by
  have habs := not_isNaN_of_le h
  rw [le_iff_key habs (not_isNaN_of_isFinite hy), abs_of_not_isNaN ((isNaN_abs x).symm.trans habs),
    key_pack_magnitude] at h
  have hlt : (magnitude x : Int) < infMag := h.trans_lt ((le_abs_self _).trans_lt (abs_key_lt_infMag hy))
  rw [isFinite_iff]
  exact_mod_cast hlt

/-- A sample equal to a finite one is finite. -/
theorem isFinite_of_eq {x y : Sample} (hy : isFinite y = true) (h : eq x y = true) : isFinite x = true := by
  simp only [eq, Bool.and_eq_true, decide_eq_true_eq] at h
  have hmag : (magnitude x : Int) = magnitude y := by rw [← abs_key, ← abs_key, h.2]
  rw [isFinite_iff] at hy ⊢
  omega

theorem isZero_rint {x : Sample} (hx : isZero x = true) : isZero (rint x) = true := by
  rw [rint_of_isFinite (isFinite_of_isZero hx), units_of_isZero hx]
  simp [isZero, nearestEven]

/-- A zero over a finite sample that is none is a zero. -/
theorem isZero_div {x y : Sample} (hx : isZero x = true) (hy : isFinite y = true) (hne : isZero y = false) :
    isZero (div x y) = true := by
  have hvalue : value y ≠ 0 := by rw [Ne, ← isZero_iff_value hy, hne]; decide
  have hround := roundingOf_div (isFinite_of_isZero hx) hy hvalue
  rw [value_of_isZero hx, zero_mul, zero_mul] at hround
  rw [isZero, hround.magnitude_eq]
  simp

end Sys2Proof.Machine.Binary64

namespace Sys2Proof.Machine

open Sys2Proof.Claims

/-! `clip` (00_scope.md R12). -/

/-- What `clip` answers is a NaN or lies between its bounds. -/
theorem clip_bounds {v lo hi : Sample} (h : Binary64.le lo hi = true)
    (hnan : Binary64.isNaN (ref64.clip v lo hi) = false) :
    Binary64.le lo (ref64.clip v lo hi) = true ∧ Binary64.le (ref64.clip v lo hi) hi = true := by
  have hlo := Binary64.not_isNaN_of_le h
  have hhi := Binary64.not_isNaN_of_le_right h
  unfold Num.clip Num.gt at hnan ⊢
  split_ifs at hnan ⊢ with hbelow habove
  · exact ⟨Binary64.le_refl_of_not_isNaN hlo, h⟩
  · exact ⟨h, Binary64.le_refl_of_not_isNaN hhi⟩
  · rw [ref64_lt, Binary64.lt_iff_not_le hnan hlo, Bool.not_eq_false] at hbelow
    rw [ref64_lt, Binary64.lt_iff_not_le hhi hnan, Bool.not_eq_false] at habove
    exact ⟨hbelow, habove⟩

section FiniteClip

variable {v b : Sample} (hv : Binary64.isFinite v = true) (hb : Binary64.isFinite b = true)

include hv hb

/-- On finite samples a symmetric `clip` compares the numbers. -/
theorem clip_neg_eq :
    ref64.clip v (Binary64.neg b) b =
      if Binary64.value v < -Binary64.value b then Binary64.neg b else if Binary64.value b < Binary64.value v then b else v := by
  simp only [Num.clip, Num.gt, ref64_lt, Binary64.lt_iff hv (Binary64.isFinite_neg hb), Binary64.lt_iff hb hv,
    Binary64.value_neg hb]

theorem clip_of_abs_le (h : |Binary64.value v| ≤ Binary64.value b) : ref64.clip v (Binary64.neg b) b = v := by
  obtain ⟨hlo, hhi⟩ := abs_le.mp h
  rw [clip_neg_eq hv hb, if_neg hlo.not_gt, if_neg hhi.not_gt]

theorem clip_of_lt_abs (hpos : 0 < Binary64.value b) (h : Binary64.value b < |Binary64.value v|) :
    ref64.clip v (Binary64.neg b) b = if Binary64.value v < 0 then Binary64.neg b else b := by
  rw [clip_neg_eq hv hb]
  by_cases hneg : Binary64.value v < 0
  · rw [abs_of_neg hneg] at h
    rw [if_pos (by omega), if_pos hneg]
  · rw [abs_of_nonneg (not_lt.mp hneg)] at h
    rw [if_neg (by omega), if_pos h, if_neg hneg]

end FiniteClip

theorem isFinite_clip {v lo hi : Sample} (hv : Binary64.isFinite v = true) (hlo : Binary64.isFinite lo = true)
    (hhi : Binary64.isFinite hi = true) : Binary64.isFinite (ref64.clip v lo hi) = true := by
  unfold Num.clip
  split_ifs
  exacts [hlo, hhi, hv]

/-! The block. -/

/-- The word of 42_distortion.md R180: `0x00000020 + (mode << 8)`. -/
theorem dstApply_word (m : Byte) : 0x00000020#32 + m.setWidth 32 <<< 8 = encode (.dstApply (decodeMode m)) := by
  have hm := m.isLt
  apply BitVec.eq_of_toNat_eq
  simp only [encode, Instr.argument, Instr.opcode, code_decodeMode, toNat_append_eq, BitVec.toNat_add, BitVec.toNat_shiftLeft,
    BitVec.toNat_setWidth, BitVec.toNat_ofNat, Nat.shiftLeft_eq]
  omega

theorem dstSample_eq_dstOut (mode : DstMode) (s : State) (k : Nat) :
    dstSample ref64 mode s.params.dstAmount s.params.dstMix (s.blkAt k) = dstOut mode s k := by
  simp only [dstSample, dstOut, shape_eq_wet, clip_eq_clip64, Num.whole]

theorem dstSample_bounds {mode : DstMode} {a m x : Sample} (h : Binary64.isNaN (dstSample ref64 mode a m x) = false) :
    ref64.le (ref64.lit (-99) 100) (dstSample ref64 mode a m x) = true ∧
      ref64.le (dstSample ref64 mode a m x) (ref64.lit 99 100) = true := by
  have horder : Binary64.le (Binary64.lit (-99) 100) (Binary64.lit 99 100) = true := by decide +kernel
  simp only [dstSample, ref64_lit, ref64_le] at h ⊢
  exact clip_bounds horder h

/-- With a legal block size `DST.APPLY` completes, and each sample of the block is made of the one it replaces. -/
theorem exec_dstApply (mode : DstMode) {s : State} (h : blockLegal s) :
    ∃ t, exec (.dstApply mode) s = .next t ∧ t = completed { s with blk := t.blk } ∧
      ∀ k < blockLen s, t.blkAt k = dstSample ref64 mode s.params.dstAmount s.params.dstMix (s.blkAt k) := by
  refine ⟨_, exec_of_ok (i := .dstApply mode) (dstApply_of (blockSize_of_blockLegal h)), rfl, fun k hk => ?_⟩
  rw [blkAt_complete, blkAt_outputBlock, dif_pos (by simpa using hk)]
  simp [dstBlock, getElem_inputBlock]

/-- Settles O15: the machine writes the transfer functions and the output stage as R180 to R186 do. -/
theorem dstApplyResult : Obligations.DstApplyResult := by
  unfold Obligations.DstApplyResult
  refine ⟨fun m => ?word, fun mode s => ⟨firstChecks_of_usesBlock rfl s, fun hlegal => ?completes⟩⟩
  case word => rw [dstApply_word]; exact decode_encode (wellFormed_decodeMode m)
  case completes =>
    obtain ⟨t, hexec, hframe, hout⟩ := exec_dstApply mode hlegal
    exact ⟨t, hexec, hframe, fun k hk => (hout k hk).trans (dstSample_eq_dstOut mode s k)⟩

/-- Settles O16: each sample is what the last `clip` answers. -/
theorem dstOutputBound : Obligations.DstOutputBound := by
  unfold Obligations.DstOutputBound
  intro mode s t hlegal hexec k hk hnan
  obtain ⟨u, hu, -, hout⟩ := exec_dstApply mode hlegal
  obtain rfl : u = t := Host.Outcome.next.inj (hu.symm.trans hexec)
  rw [hout k hk] at hnan ⊢
  exact dstSample_bounds hnan

/-! The bound of the output stage (42_distortion.md R186) and the least threshold of `hard` (R182). -/

theorem lit_neg_headroom : Binary64.lit (-99) 100 = Binary64.neg (Binary64.lit 99 100) := by decide +kernel

theorem isFinite_headroom : Binary64.isFinite (Binary64.lit 99 100) = true := by decide +kernel

theorem headroom_pos : 0 < Binary64.value (Binary64.lit 99 100) := by decide +kernel

theorem headroom_le_one : Binary64.value (Binary64.lit 99 100) ≤ Binary64.value (Binary64.lit 1 1) := by decide +kernel

theorem isFinite_leastThreshold : Binary64.isFinite (Binary64.lit 1 100) = true := by decide +kernel

theorem leastThreshold_pos : 0 < Binary64.value (Binary64.lit 1 100) := by decide +kernel

/-! One sample at mix 1. -/

/-- At mix 1 the output stage clips a sum that is worth the shaped sample (42_distortion.md R180, R186). -/
theorem dstSample_mix_one {mode : DstMode} {a x : Sample} (hx : Binary64.isFinite x = true)
    (hwet : Binary64.isFinite (shape ref64 mode a x) = true) :
    ∃ v, Binary64.isFinite v = true ∧ Binary64.value v = Binary64.value (shape ref64 mode a x) ∧
      dstSample ref64 mode a (Binary64.lit 1 1) x = ref64.clip v (Binary64.neg (Binary64.lit 99 100)) (Binary64.lit 99 100) := by
  have hone := Binary64.isFinite_lit_one
  have hdry : Binary64.isZero (Binary64.mul (Binary64.sub (Binary64.lit 1 1) (Binary64.lit 1 1)) x) = true :=
    Binary64.isZero_mul_left (Binary64.isZero_sub hone hone rfl) hx
  obtain ⟨hfin, hval⟩ := (Binary64.roundingOf_mul hone hwet).exact Binary64.one_pos hwet
    (by rw [Binary64.value_lit_one, mul_comm])
  obtain ⟨hsum, hsumval⟩ := Binary64.value_add_exact (Binary64.isFinite_of_isZero hdry) hfin hwet
    (by rw [Binary64.value_of_isZero hdry, zero_add, hval])
  refine ⟨_, hsum, hsumval, ?_⟩
  simp only [dstSample, Num.whole, ref64_lit, ref64_add, ref64_sub, ref64_mul, lit_neg_headroom]

/-! Zero in, zero out. -/

/-- The threshold of `hard` is finite and at least `lit(0.01)` (42_distortion.md R182). -/
theorem hardThreshold_pos {a : Sample} (ha : Binary64.isFinite a = true) :
    Binary64.isFinite (hardThreshold ref64 a) = true ∧ 0 < Binary64.value (hardThreshold ref64 a) := by
  rw [hardThreshold, Num.whole, ref64_lit]
  have hfin := isFinite_clip ha isFinite_leastThreshold Binary64.isFinite_lit_one
  have hge := (clip_bounds (by decide +kernel) (Binary64.not_isNaN_of_isFinite hfin)).1
  exact ⟨hfin, leastThreshold_pos.trans_le ((Binary64.le_iff isFinite_leastThreshold hfin).mp hge)⟩

theorem isZero_ref64_tanh {x : Sample} (hx : Binary64.isZero x = true) : Binary64.isZero (ref64.tanh x) = true :=
  isZero_lawfulUnit _ hx

theorem isZero_ref64_sin {x : Sample} (hx : Binary64.isZero x = true) : Binary64.isZero (ref64.sin x) = true :=
  isZero_lawfulUnit _ hx

/-- Every shaper takes a zero to a zero (42_distortion.md R190). -/
theorem isZero_shape {mode : DstMode} {a x : Sample} (hx : Binary64.isZero x = true) (ha : Binary64.isFinite a = true)
    (hsine : mode = .sine → Binary64.isFinite (Binary64.mul ref64.pi a) = true)
    (hcrush : mode = .bitcrush →
      Binary64.isFinite (crushLevels ref64 a) = true ∧ Binary64.isZero (crushLevels ref64 a) = false) :
    Binary64.isZero (shape ref64 mode a x) = true := by
  have hheight : Binary64.isFinite (Binary64.lit 8 10) = true := by decide +kernel
  cases mode with
  | soft => exact isZero_ref64_tanh (Binary64.isZero_mul_right ha hx)
  | hard =>
    obtain ⟨hfin, hpos⟩ := hardThreshold_pos ha
    have hclip := clip_of_abs_le (Binary64.isFinite_of_isZero hx) hfin
      (by rw [Binary64.value_of_isZero hx, abs_zero]; exact hpos.le)
    have hne : Binary64.isZero (hardThreshold ref64 a) = false := by
      rw [Bool.eq_false_iff, Ne, Binary64.isZero_iff_value hfin]; exact hpos.ne'
    rw [shape, shapeHard, ref64_neg, hclip]
    exact Binary64.isZero_div hx hfin hne
  | sine =>
    have hsin := isZero_ref64_sin (Binary64.isZero_mul_right (hsine rfl) hx)
    rw [shape, shapeSine, ref64_lit, ref64_mul]
    exact Binary64.isZero_mul_right hheight hsin
  | bitcrush =>
    obtain ⟨hfin, hne⟩ := hcrush rfl
    have hrint := Binary64.isZero_rint (Binary64.isZero_mul_left hx hfin)
    rw [shape, shapeBitcrush, ref64_lit, ref64_mul, ref64_rint, ref64_div]
    exact Binary64.isZero_div (Binary64.isZero_mul_right hheight hrint) hfin hne
  | unknown code => exact hx

/-- Settles O17: the shaped zero is a zero, mix 1 keeps it, and it lies inside the clip. -/
theorem dstZeroInZeroOut : Obligations.DstZeroInZeroOut := by
  unfold Obligations.DstZeroInZeroOut
  simp only [ref64_lit, ref64_eq, ref64_isfin, ref64_mul, Binary64.isZero_eq_eq_lit_zero]
  rintro mode a m x rfl hx ha hsine hcrush
  have hwet := isZero_shape hx ha hsine hcrush
  obtain ⟨v, hv, hval, hsample⟩ := dstSample_mix_one (Binary64.isFinite_of_isZero hx) (Binary64.isFinite_of_isZero hwet)
  rw [Binary64.value_of_isZero hwet] at hval
  rw [hsample, clip_of_abs_le hv isFinite_headroom (by rw [hval, abs_zero]; exact headroom_pos.le),
    Binary64.isZero_iff_value hv, hval]

/-! Hard clip at unity threshold. -/

/-- From 1 on, infinity included, the amount gives the threshold 1 (42_distortion.md R182). -/
theorem hardThreshold_of_one_le {a : Sample} (h : Binary64.le (Binary64.lit 1 1) a = true) :
    hardThreshold ref64 a = Binary64.lit 1 1 := by
  have hone := Binary64.not_isNaN_of_isFinite Binary64.isFinite_lit_one
  have hleast := Binary64.not_isNaN_of_isFinite isFinite_leastThreshold
  have ha := Binary64.not_isNaN_of_le_right h
  obtain ⟨hleast_lt, hone_ne⟩ : Binary64.key (Binary64.lit 1 100) < Binary64.key (Binary64.lit 1 1) ∧
    Binary64.key (Binary64.lit 1 1) ≠ 0 := by decide +kernel
  rw [Binary64.le_iff_key hone ha] at h
  simp only [hardThreshold, Num.clip, Num.gt, Num.whole, ref64_lit, ref64_lt, Binary64.lt_iff_key ha hleast,
    Binary64.lt_iff_key hone ha]
  rw [if_neg (hleast_lt.trans_le h).not_gt]
  split_ifs with hgt
  · rfl
  · exact Binary64.eq_of_key_eq (le_antisymm (not_lt.mp hgt) h) hone_ne

/-- With an amount from 1 on, `hard` passes what lies in [-1, 1] (42_distortion.md R182). -/
theorem shape_hard_of_abs_le_one {a x : Sample} (ha : Binary64.le (Binary64.lit 1 1) a = true)
    (hx : Binary64.isFinite x = true) (h : |Binary64.value x| ≤ Binary64.value (Binary64.lit 1 1)) :
    Binary64.isFinite (shape ref64 .hard a x) = true ∧ Binary64.value (shape ref64 .hard a x) = Binary64.value x := by
  have hdiv := Binary64.div_one_eq hx
  have hfin := Binary64.isFinite_of_eq hx hdiv
  rw [shape, shapeHard, hardThreshold_of_one_le ha, ref64_neg, clip_of_abs_le hx Binary64.isFinite_lit_one h, ref64_div]
  exact ⟨hfin, (Binary64.eq_iff hfin hx).mp hdiv⟩

/-- So the output stage clips a sum that is worth the input. -/
theorem dstSample_hard_of_abs_le_one {a x : Sample} (ha : Binary64.le (Binary64.lit 1 1) a = true)
    (hx : Binary64.isFinite x = true) (h : |Binary64.value x| ≤ Binary64.value (Binary64.lit 1 1)) :
    ∃ v, Binary64.isFinite v = true ∧ Binary64.value v = Binary64.value x ∧
      dstSample ref64 .hard a (Binary64.lit 1 1) x = ref64.clip v (Binary64.neg (Binary64.lit 99 100)) (Binary64.lit 99 100) := by
  obtain ⟨hwet, hval⟩ := shape_hard_of_abs_le_one ha hx h
  rw [← hval]
  exact dstSample_mix_one hx hwet

/-- Settles O18: the threshold is 1, mix 1 keeps the shaped sample, and only the output stage clips. -/
theorem dstHardUnity : Obligations.DstHardUnity := by
  unfold Obligations.DstHardUnity
  simp only [ref64_lit, ref64_eq, ref64_le, ref64_lt, ref64_abs]
  rintro a m x ha rfl
  refine ⟨fun h => ?_, fun hlo hhi => ?_⟩
  · have hx := Binary64.isFinite_of_abs_le isFinite_headroom h
    rw [Binary64.le_iff (Binary64.isFinite_abs hx) isFinite_headroom, Binary64.value_abs hx] at h
    obtain ⟨v, hv, hsum, hsample⟩ := dstSample_hard_of_abs_le_one ha hx (h.trans headroom_le_one)
    rw [hsample, clip_of_abs_le hv isFinite_headroom (by rwa [hsum])]
    exact Binary64.eq_of_value_eq hv hx hsum
  · have hx := Binary64.isFinite_of_abs_le Binary64.isFinite_lit_one hhi
    rw [Binary64.le_iff (Binary64.isFinite_abs hx) Binary64.isFinite_lit_one, Binary64.value_abs hx] at hhi
    rw [Binary64.lt_iff isFinite_headroom (Binary64.isFinite_abs hx), Binary64.value_abs hx] at hlo
    obtain ⟨hwet, hval⟩ := shape_hard_of_abs_le_one ha hx hhi
    refine ⟨Binary64.eq_of_value_eq hwet hx hval, ?_⟩
    obtain ⟨v, hv, hsum, hsample⟩ := dstSample_hard_of_abs_le_one ha hx hhi
    simp only [Binary64.lt_iff hx Binary64.isFinite_lit_zero, Binary64.value_lit_zero, lit_neg_headroom]
    rw [hsample, clip_of_lt_abs hv isFinite_headroom headroom_pos (by rw [hsum]; exact hlo), hsum]

end Sys2Proof.Machine

/-! Proofs of the statements on 43_reverb.md. First what the unit's functions read: cells of fresh memories, the operands
as plain functions, and the samples of an output block. -/

namespace Sys2Proof.Machine

open Sys2Proof.Claims

/-- A memory filled from a vector reads that vector. -/
theorem Memory.read_ofList_ofFn {α : Type} {n : Nat} (unw : Nat → α) (f : Fin n → α) (i : Fin n) :
    (Memory.ofList 0 (List.ofFn f)).read unw i.val = f i := by
  simp [Memory.read_ofList]

theorem impulseResponse_eq_map (s : State) (P : Nat) : impulseResponse s P = (List.range P).map s.irAt := by
  refine List.ext_getElem (by simp [impulseResponse]) fun i hi _ => ?_
  rw [List.getElem_map, List.getElem_range]
  simp only [impulseResponse, Memory.getElem_readList, Nat.zero_add, AnyNum.State.irAt]

/-- `maxabs` of the impulse response, sample by sample (00_scope.md R12). -/
theorem maxabs_impulseResponse (s : State) (P : Nat) : ref64.maxabs (impulseResponse s P) = irPeak s P := by
  rw [impulseResponse_eq_map]
  induction P with
  | zero => rfl
  | succ P ih =>
    rw [Num.maxabs] at ih
    rw [Num.maxabs, List.range_succ, List.map_append, List.foldl_append, ih]
    rfl

theorem revPadded_impulseResponse (s : State) {L : Nat} (i : Fin L) :
    revPadded ref64 (irPeak s (irLen s)) (impulseResponse s (irLen s)) L i = irPadded s L i := by
  rw [revPadded, irPadded, impulseResponse_eq_map, List.getElem?_map]
  split_ifs with hi
  · rw [List.getElem?_range hi, Option.map_some]
  · rw [List.getElem?_eq_none (by simpa using hi), Option.map_none]
    rfl

theorem revSpectrum_impulseResponse (s : State) (L : Nat) :
    revSpectrum ref64 (impulseResponse s (irLen s)) L = ref64.dft L (irPadded s L) := by
  rw [revSpectrum, maxabs_impulseResponse, funext (revPadded_impulseResponse s)]

/-- The checks of 43_reverb.md R200 on the samples themselves. -/
theorem revUsable_iff (s : State) :
    revUsable ref64 (impulseResponse s (irLen s)) = true ↔
      (∀ i < irLen s, ref64.isfin (s.irAt i) = true) ∧ ref64.eq (irPeak s (irLen s)) (ref64.lit 0 1) = false := by
  rw [revUsable, maxabs_impulseResponse, impulseResponse_eq_map]
  simp [Num.whole]

/-- A response that any check of 43_reverb.md R200 refuses. -/
theorem revInit_of_not_irUsable {s : State} (hlegal : blockLegal s) (h : ¬ irUsable s) :
    revInit ref64 s = .error .revIr := by
  rw [revInit, blockSize_of_blockLegal hlegal]
  dsimp only
  split_ifs with hlen husable
  · rfl
  · rfl
  · obtain ⟨hpos, hcap⟩ := not_or.1 hlen
    obtain ⟨hfin, hpeak⟩ := (revUsable_iff s).1 (Bool.eq_true_of_not_eq_false husable)
    exact absurd ⟨Nat.one_le_iff_ne_zero.2 hpos, not_lt.1 hcap, hfin, hpeak⟩ h

/-- Settles O19: the checks and the transform of R200 speak of the samples of `IRBUF`, and a usable response is committed. -/
theorem revInitResult : Obligations.RevInitResult := by
  unfold Obligations.RevInitResult
  refine ⟨by decide, fun s => ⟨firstChecks_of_usesBlock rfl s, ?usable, fun hlegal hun hclear => ?unusable⟩⟩
  case usable =>
    rintro hlegal ⟨hpos, hcap, hfin, hpeak⟩
    refine ⟨_, exec_of_ok (i := .revInit) (revInit_of (blockSize_of_blockLegal hlegal) hpos hcap
      ((revUsable_iff s).2 ⟨hfin, hpeak⟩)), rfl, rfl, rfl, rfl, rfl, fun k => ?_,
      fun i hi => Memory.read_ofList_replicate _ _ hi⟩
    exact (Memory.read_ofList_ofFn _ _ k).trans (congrFun (revSpectrum_impulseResponse s _) k)
  case unusable => exact exec_eq_faulted hclear (revInit_of_not_irUsable hlegal hun)

/-! `REV.APPLY`. -/

section Block

variable {S W : Type} {N : Num S W} {L B : Nat}

/-- The output is what stands in the last `B` places (43_reverb.md R201). -/
theorem getElem_revOutput (y : Fin L → S × S) {j : Nat} (h : j < (revOutput y B).length) :
    (revOutput y B)[j] = (y ⟨L - B + j, by rw [length_revOutput] at h; omega⟩).1 := by
  simp [revOutput]

theorem length_revOutput_of_le (y : Fin L → S × S) (h : B ≤ L) : (revOutput y B).length = B := by
  rw [length_revOutput, Nat.sub_sub_self h]

end Block

theorem revShift_eq_shifted (s : State) (i : Fin s.rev.l) (h : blockLen s ≤ s.rev.l) :
    revShift s.histAt (inputBlock s (blockLen s)) s.rev.l (blockLen s) (ref64.whole 0) i = shifted s i := by
  rw [revShift, shifted]
  split_ifs with hi
  · rfl
  · have hlen : i.val - (s.rev.l - blockLen s) < (inputBlock s (blockLen s)).length := by
      rw [length_inputBlock]; omega
    rw [List.getD_eq_getElem _ _ hlen, getElem_inputBlock]

/-- The machine's block is the transform path of 43_reverb.md R201 on the shifted history. -/
theorem revRun_eq (s : State) (h : blockLen s ≤ s.rev.l) :
    revRun ref64 s (blockLen s) = (revOutput (convolved s) (blockLen s), shifted s) := by
  rw [revRun, revBlock, funext fun i => revShift_eq_shifted s i h]
  rfl

theorem revApply_of_lengths_differ {s : State} (hlegal : blockLegal s) (hvalid : s.rev.valid = true)
    (h : s.rev.b ≠ blockLen s ∨ s.rev.l + 1 ≠ s.rev.p + blockLen s) : revApply ref64 s = .error .revLen := by
  rw [revApply, blockSize_of_blockLegal hlegal]
  dsimp only
  rw [if_neg (by simp [hvalid]), if_pos h]

/-- Settles O20: the block run is R201's on the shifted history, and the guard is R201's equation of integers. -/
theorem revApplyResult : Obligations.RevApplyResult := by
  unfold Obligations.RevApplyResult
  refine ⟨by decide, fun s => ⟨firstChecks_of_usesBlock rfl s, fun hlegal hvalid hb hl hp => ?agree,
    fun hlegal hvalid hclear hdiffer => ?differ⟩⟩
  case agree =>
    have hle : blockLen s ≤ s.rev.l := by omega
    have hrun := revRun_eq s hle
    refine ⟨_, exec_of_ok (i := .revApply) (revApply_of (blockSize_of_blockLegal hlegal) hvalid hb hl), rfl,
      fun j hj => ?_, fun i => ?_⟩
    · have hj' : j < (revOutput (convolved s) (blockLen s)).length := by rwa [length_revOutput_of_le _ hle]
      rw [blkAt_complete, blkAt_outputBlock, hrun, dif_pos hj', getElem_revOutput]
    · rw [hrun]
      exact Memory.read_ofList_ofFn _ (shifted s) i
  case differ =>
    exact exec_eq_faulted hclear (revApply_of_lengths_differ hlegal hvalid (hdiffer.imp_right fun h => by omega))

/-! A session in exact arithmetic (43_reverb.md R203): the history holds the last `L` samples of the signal, so the
circular convolution of law N12 does not wrap where it meets the impulse response. -/

theorem revSession_fst {S W : Type} (N : Num S W) {L : Nat} (H : Fin L → S × S) (B : Nat) (u : Nat → S) (k : Nat) :
    (revSession N H B u k).1 = revOutput (revProduct N H (revSession N H B u k).2) B := by
  cases k <;> rfl

section Session

variable {F : Type} [Field F] {L B : Nat} {u : Nat → F}

/-- A block of the signal shifted into the last `L` samples before it leaves the last `L` samples after it. -/
theorem revShift_delayedBy {hist : Nat → F} {t : Nat} (hBL : B ≤ L) (hhist : ∀ i < L, hist i = delayedBy u L (t + i))
    (i : Fin L) :
    revShift hist ((List.range B).map fun j => u (t + j)) L B 0 i = delayedBy u L (t + B + i.val) := by
  rw [revShift]
  split_ifs with hi
  · rw [hhist _ (by omega), Nat.add_assoc, Nat.add_comm i.val]
  · rw [List.getD_eq_getElem _ _ (by simp only [List.length_map, List.length_range]; omega), List.getElem_map,
      List.getElem_range, delayedBy, if_pos (by omega)]
    congr 1
    omega

/-- The history reaches back far enough for every tap: place `n - m` holds the signal `m` samples before place `n`. -/
theorem delayedBy_history (hBL : B ≤ L) (t j : Nat) {m : Nat} (hm : m ≤ L - B + j) :
    delayedBy u L (t + B + (L - B + j - m)) = delayedBy u m (t + j) := by
  have hindex : t + B + (L - B + j - m) = t + j + L - m := by omega
  simp only [delayedBy, hindex]
  split_ifs with hL hmt
  · congr 1
    omega
  · omega
  · omega
  · rfl

/-- No wrap: an index at or before `n` is reached by going down from `n`. -/
theorem add_sub_mod_of_le {n m : Nat} (hn : n < L) (hm : m ≤ n) : (n + (L - m)) % L = n - m := by
  rw [show n + (L - m) = n - m + L by omega, Nat.add_mod_right, Nat.mod_eq_of_lt (by omega)]

variable {W : Type} {N : Num F W}

/-- Term `m` of sample `n` of the linear convolution of 43_reverb.md R203. -/
def convolutionTerm (N : Num F W) (ir : List F) (u : Nat → F) (n m : Nat) : F :=
  ir.getD m 0 / N.maxabs ir * delayedBy u m n

theorem convolutionTerm_of_length_le {ir : List F} {n m : Nat} (h : ir.length ≤ m) : convolutionTerm N ir u n m = 0 := by
  rw [convolutionTerm, List.getD_eq_default _ _ h, zero_div, zero_mul]

variable [LinearOrder F] [IsStrictOrderedRing F] [FloorRing F]

theorem revSession_history (hN : N.Exact) (H : Fin L → F × F) (hBL : B ≤ L) (k : Nat) :
    ∀ i : Fin L, (revSession N H B u k).2 i = delayedBy u L ((k + 1) * B + i.val) := by
  have hzero : N.lit 0 1 = 0 := by simp [hN.literals.1]
  induction k with
  | zero =>
    intro i
    have hfresh : ∀ i < L, (0 : F) = delayedBy u L (0 + i) := fun i hi => by rw [delayedBy, if_neg (by omega)]
    simpa [revSession, revBlock, Num.whole, hzero] using revShift_delayedBy hBL hfresh i
  | succ k ih =>
    intro i
    rw [Nat.succ_mul (k + 1)]
    simp only [revSession, revBlock, Num.whole, hzero]
    exact revShift_delayedBy hBL (fun i hi => by rw [dif_pos hi, ih]) i

theorem revPadded_eq (hN : N.Exact) (peak : F) (ir : List F) (i : Fin L) :
    revPadded N peak ir L i = ir.getD i.val 0 / peak := by
  rw [revPadded, List.getD_eq_getElem?_getD]
  split
  · next v h => rw [h, Option.getD_some, (hN.arithmetic v peak).2.2.2]
  · next h => rw [h, Option.getD_none, zero_div, Num.whole, hN.literals.1, Int.cast_zero, zero_div]

/-- Output place `L - B + j` of the circular convolution with the padded response is sample `t + j` of the linear
convolution with the response, where the history holds the last `L` samples (43_reverb.md R203). -/
theorem revProduct_eq_convolution (hN : N.Exact) (hlaw : N.ConvolutionLaw L) {ir : List F} (hL : ir.length + B = L + 1)
    (hBL : B ≤ L) {hist : Fin L → F} {t : Nat} (hhist : ∀ i, hist i = delayedBy u L (t + B + i.val)) {j : Nat}
    (hj : j < B) :
    (revProduct N (revSpectrum N ir L) hist ⟨L - B + j, by omega⟩).1 =
      ∑ m ∈ Finset.range ir.length, convolutionTerm N ir u (t + j) m := by
  have hterm : ∀ m : Fin L,
      revPadded N (N.maxabs ir) ir L m * hist ⟨(L - B + j + (L - m.val)) % L, Nat.mod_lt _ (by omega)⟩ =
        convolutionTerm N ir u (t + j) m.val := fun m => by
    by_cases hm : m.val < ir.length
    · rw [revPadded_eq hN, hhist]
      dsimp only
      rw [add_sub_mod_of_le (by omega) (by omega), delayedBy_history hBL t j (by omega), convolutionTerm]
    · rw [convolutionTerm_of_length_le (not_lt.1 hm), revPadded_eq hN, List.getD_eq_default _ _ (not_lt.1 hm), zero_div,
        zero_mul]
  rw [revProduct, revSpectrum, hlaw hist (revPadded N (N.maxabs ir) ir L)]
  calc ∑ m : Fin L, _ = ∑ m : Fin L, convolutionTerm N ir u (t + j) m.val := Finset.sum_congr rfl fun m _ => hterm m
    _ = ∑ m ∈ Finset.range L, convolutionTerm N ir u (t + j) m := Fin.sum_univ_eq_sum_range _ L
    _ = ∑ m ∈ Finset.range ir.length, convolutionTerm N ir u (t + j) m :=
        (Finset.sum_subset (Finset.range_subset_range.2 (by omega))
          fun m _ hm => convolutionTerm_of_length_le (by simpa using hm)).symm

end Session

/-- Settles O21: the history is the last `L` samples, and the kept places of the circular convolution do not wrap. -/
theorem revLinearConvolution : Obligations.RevLinearConvolution := by
  unfold Obligations.RevLinearConvolution
  intro F _ _ _ _ W N ir B u hN hir hB hlaw k
  have hBL : B ≤ ir.length - 1 + B := Nat.le_add_left _ _
  have hhist := revSession_history hN (revSpectrum N ir (ir.length - 1 + B)) hBL (u := u) k
  refine ⟨hhist, ?_⟩
  rw [revSession_fst]
  refine List.ext_getElem (by simp [length_revOutput_of_le _ hBL]) fun j hj hj' => ?_
  rw [getElem_revOutput, List.getElem_map, List.getElem_range]
  exact revProduct_eq_convolution hN hlaw (by omega) hBL (fun i => by rw [hhist, Nat.succ_mul]) (by simpa using hj')

/-! Silence (43_reverb.md R207). -/

section Silence

variable {L B : Nat} {H : Fin L → Sample × Sample} {zeros : Nat → Nat → Sample} {hist : Fin L → Sample}

/-- Law N9 along the transform path of 43_reverb.md R201: a zero history gives zeros, for a finite `H`. -/
theorem isZero_revProduct (hH : ∀ k, ref64.isfin (H k).1 = true ∧ ref64.isfin (H k).2 = true)
    (hhist : ∀ i, Binary64.isZero (hist i) = true) (n : Fin L) :
    Binary64.isZero (revProduct ref64 H hist n).1 = true := by
  have hdft (k : Fin L) := isZero_lawfulDft Config.dft hhist k
  exact (isZero_lawfulIdft Config.idft
    (fun k => isZero_cmul (hdft k).1 (hdft k).2 (hH k).1 (hH k).2) n).1

/-- Each zero block shifts `B` more zeros into the history. -/
theorem isZero_silentBlocks (hBL : B ≤ L) (hzeros : ∀ b j, Binary64.isZero (zeros b j) = true) (z : Nat) :
    ∀ i : Fin L, L ≤ z * B + i.val → Binary64.isZero ((silentBlocks H B zeros hist z).2 i) = true := by
  induction z with
  | zero => intro i hi; omega
  | succ z ih =>
    intro i hi
    rw [Nat.succ_mul] at hi
    simp only [silentBlocks, revBlock, revShift]
    split_ifs with hold hin
    · exact ih ⟨i.val + B, hin⟩ (by dsimp only; omega)
    · omega
    · rw [List.getD_eq_getElem _ _ (by simp only [List.length_map, List.length_range]; omega), List.getElem_map]
      exact hzeros _ _

theorem silentBlocks_succ_fst (z : Nat) : (silentBlocks H B zeros hist (z + 1)).1 =
    revOutput (revProduct ref64 H (silentBlocks H B zeros hist (z + 1)).2) B := rfl

end Silence

/-- Settles O22: zeros fill the history from its end, and law N9 carries a zero history to a zero output. -/
theorem revSilence : Obligations.RevSilence := by
  unfold Obligations.RevSilence
  rintro L B H zeros hist (_ | z) hB hBL hH hzeros hz hlong
  · omega
  have hsilent : ∀ i, Binary64.isZero ((silentBlocks H B zeros hist (z + 1)).2 i) = true := fun i =>
    isZero_silentBlocks hBL hzeros _ i (by omega)
  refine ⟨hsilent, ?_, fun v hv => ?_⟩
  · rw [silentBlocks_succ_fst, length_revOutput_of_le _ hBL]
  · rw [silentBlocks_succ_fst] at hv
    obtain ⟨j, hj, rfl⟩ := List.getElem_of_mem hv
    rw [getElem_revOutput]
    exact isZero_revProduct hH hsilent _

/-! The length guard (43_reverb.md R205). -/

/-- In a state of the invariant the guard passes: what faults is one of the two checks before it. -/
theorem performed_revApply_ne_revLen {s : State} (h : RevOk s) : performed ref64 .revApply s ≠ .error .revLen := by
  by_cases hlegal : blockLegal s
  · by_cases hvalid : s.rev.valid = true
    · obtain ⟨hp, -, hb, -, -, hl⟩ := h.live hvalid
      have happly := revApply_of (N := ref64) (blockSize_of_blockLegal hlegal) hvalid hb (by rw [blockLen, ← hb]; omega)
      simp [performed, happly]
    · simp [performed_of_not_unitReady (i := .revApply) hlegal (Bool.eq_false_of_not_eq_true hvalid)]
  · simp [performed_of_not_blockLegal (i := .revApply) rfl hlegal]

/-- Settles O23: a completed command keeps the code, and a fault of the command has another one. -/
theorem revGuardNeverFails : Obligations.RevGuardNeverFails := by
  unfold Obligations.RevGuardNeverFails
  intro s t hinv h hcode
  obtain ⟨e, he, rfl⟩ | ⟨u, hu, rfl⟩ := exec_cases h
  · have hne : e ≠ .revLen := by
      rintro rfl
      exact performed_revApply_ne_revLen hinv.rev he
    unfold raise at hcode
    split at hcode
    · exact hcode
    · exact absurd hcode hne
  · obtain ⟨-, -, hkeep, -⟩ := performed_keeps hu
    exact hkeep ▸ hcode

end Sys2Proof.Machine

/-! Proofs of the statements on 44_karplus_strong.md. -/

namespace Sys2Proof.Machine

open Sys2Proof.Claims

/-! `KS.PLUCK`. -/

/-- Every draw is finite and in [-1, 1], whatever the noise source answers (44_karplus_strong.md R230). -/
theorem noiseDraw_bounds (k : Nat) :
    ref64.isfin (noiseDraw ref64 k) = true ∧ ref64.le (ref64.lit (-1) 1) (noiseDraw ref64 k) = true ∧
      ref64.le (noiseDraw ref64 k) (ref64.lit 1 1) = true := by
  unfold noiseDraw
  dsimp only
  split_ifs with haccepted
  · rwa [Bool.and_eq_true, Bool.and_eq_true, and_assoc] at haccepted
  · rw [Num.whole, ref64_isfin, ref64_le, ref64_lit]
    decide +kernel

theorem noiseDraws_eq_map_range' {S W : Type} [Inhabited S] (N : Num S W) (n : Nat) :
    ∀ k, noiseDraws N k n = (List.range' k n).map (noiseDraw N) := by
  induction n with
  | zero => intro k; rfl
  | succ n ih => intro k; rw [noiseDraws, ih, List.range'_succ, List.map_cons]

/-- Cell `i` of a pluck that starts at draw number `k` is draw number `k + i` (44_karplus_strong.md R232). -/
theorem Memory.read_ofList_noiseDraws {S W : Type} [Inhabited S] (N : Num S W) (unw : Nat → S) (k : Nat) {n i : Nat}
    (h : i < n) : (Memory.ofList 0 (noiseDraws N k n)).read unw i = noiseDraw N (k + i) := by
  simp [Memory.read_ofList, noiseDraws_eq_map_range', h]

theorem ksPluck_of_unfit {s : State} (h : s.params.ksLen.toNat = 0 ∨ s.caps.maxKs < s.params.ksLen.toNat) :
    ksPluck ref64 s = .error .ksLen := by
  rw [ksPluck, if_pos h]

/-- Settles O24: a length that fits is committed with a string of draws, another one is refused. -/
theorem ksPluckResult : Obligations.KsPluckResult := by
  unfold Obligations.KsPluckResult
  refine ⟨by decide, fun s => ⟨fun hpos hcap => ?fits, fun hclear hunfit => ?unfit⟩⟩
  case fits =>
    refine ⟨_, exec_of_ok (i := .ksPluck) (ksPluck_of hpos hcap), rfl, rfl, rfl, rfl,
      fun i (hi : i < s.params.ksLen.toNat) => ?_⟩
    rw [AnyNum.State.ksAt, complete_ks, Memory.read_ofList_noiseDraws _ _ _ hi]
    exact noiseDraw_bounds (s.draws + i)
  case unfit => exact exec_eq_faulted hclear (ksPluck_of_unfit hunfit)

/-! `KS.GEN`: the ring of the machine's loop, read from its cursor on, is the sequence of 44_karplus_strong.md R233. -/

section Ring

variable {S : Type} {unw : Nat → S} {n : Nat} {c : KsLoop S}

/-- The logical sequence of the loop's ring (10_state.md R55), as `stringOf` is that of the state's. -/
def KsLoop.string (unw : Nat → S) (n : Nat) (c : KsLoop S) : List S :=
  (List.range n).map fun j => c.buf.read unw ((c.head + j) % n)

@[simp] theorem KsLoop.length_string : (c.string unw n).length = n := by simp [KsLoop.string]

theorem KsLoop.getElem_string {j : Nat} (h : j < (c.string unw n).length) :
    (c.string unw n)[j] = c.buf.read unw ((c.head + j) % n) := by simp [KsLoop.string]

theorem KsLoop.getD_string (j : Nat) (z : S) :
    (c.string unw n).getD j z = if j < n then c.buf.read unw ((c.head + j) % n) else z := by
  split_ifs with hj
  · rw [List.getD_eq_getElem _ _ (by rwa [KsLoop.length_string]), KsLoop.getElem_string]
  · rw [List.getD_eq_default _ _ (by rw [KsLoop.length_string]; exact not_lt.1 hj)]

/-- The front's cell overwritten and the cursor moved past it: the front has left, the new value is at the back. -/
theorem KsLoop.string_write_head (h : c.head < n) (v : S) :
    KsLoop.string unw n { head := (c.head + 1) % n, buf := c.buf.write c.head v } = (c.string unw n ++ [v]).tail := by
  refine List.ext_getElem (by simp) fun j hj _ => ?_
  rw [KsLoop.length_string] at hj
  rw [KsLoop.getElem_string, List.getElem_tail, Nat.mod_add_mod, Nat.add_assoc, Nat.add_comm 1 j]
  obtain hback | hinner : j + 1 = n ∨ j + 1 < n := by omega
  · rw [List.getElem_concat_length (by rw [KsLoop.length_string, hback]), hback, Nat.add_mod_right, Nat.mod_eq_of_lt h,
      Memory.read_write_same]
  · have hne : (c.head + (j + 1)) % n ≠ c.head := by
      have := add_mod_ne_self_mod (k := c.head) j.succ_pos hinner
      rwa [Nat.mod_eq_of_lt h] at this
    rw [Memory.read_write_ne _ _ _ hne, List.getElem_append_left (by rwa [KsLoop.length_string]), KsLoop.getElem_string]

end Ring

section Generate

variable {unw : Nat → Sample} {n : Nat} {K : Sample} {c : KsLoop Sample}

/-- One sample of 44_karplus_strong.md R231 emits the front of the sequence and is R233's append-and-pop on it. -/
theorem ksSample_string (h : c.head < n) :
    (ksSample ref64 unw n K c ()).1 = (c.string unw n).getD 0 (ref64.lit 0 1) ∧
      (ksSample ref64 unw n K c ()).2.string unw n = plucked K (c.string unw n) := by
  have hfirst : (c.string unw n).getD 0 (ref64.lit 0 1) = c.buf.read unw c.head := by
    rw [KsLoop.getD_string, if_pos (Nat.zero_lt_of_lt h), Nat.add_zero, Nat.mod_eq_of_lt h]
  refine ⟨hfirst.symm, ?_⟩
  rw [plucked, hfirst, KsLoop.getD_string]
  exact KsLoop.string_write_head h _

/-- Before sample `k` the loop from `c` has moved its cursor `k` cells and its string `k` iterations on. -/
structure KsLoop.Follows (unw : Nat → Sample) (n : Nat) (K : Sample) (c : KsLoop Sample) (k : Nat) (d : KsLoop Sample) :
    Prop where
  head   : d.head = (c.head + k) % n
  string : d.string unw n = pluckedTimes K (c.string unw n) k

theorem KsLoop.Follows.sample {k : Nat} {d : KsLoop Sample} (h : KsLoop.Follows unw n K c k d) (hpos : 0 < n) :
    (ksSample ref64 unw n K d ()).1 = (pluckedTimes K (c.string unw n) k).getD 0 (ref64.lit 0 1) ∧
      KsLoop.Follows unw n K c (k + 1) (ksSample ref64 unw n K d ()).2 := by
  obtain ⟨hhead, hstring⟩ := h
  obtain ⟨hout, hnext⟩ := ksSample_string (unw := unw) (K := K) (hhead ▸ Nat.mod_lt _ hpos)
  rw [hstring] at hout hnext
  exact ⟨hout, by rw [ksSample, hhead, Nat.mod_add_mod, Nat.add_assoc], hnext⟩

/-- A block of `B` samples emits the fronts of the iterates. -/
theorem ksBlock_follows (h : c.head < n) (B : Nat) :
    (ksBlock ref64 unw n K c B).1 =
        (List.range B).map (fun k => (pluckedTimes K (c.string unw n) k).getD 0 (ref64.lit 0 1)) ∧
      KsLoop.Follows unw n K c B (ksBlock ref64 unw n K c B).2 := by
  have hloop := loop_describedBy (ksSample ref64 unw n K) (List.replicate B ()) (KsLoop.Follows unw n K c) _
    (fun _ _ _ hd => hd.sample (Nat.zero_lt_of_lt h)) c ⟨(Nat.mod_eq_of_lt h).symm, rfl⟩
  rwa [List.length_replicate] at hloop

end Generate

/-- Settles O25: the block run on the state's ring is the iteration on its logical sequence. -/
theorem ksGenResult : Obligations.KsGenResult := by
  unfold Obligations.KsGenResult
  refine ⟨by decide, fun s => ⟨firstChecks_of_usesBlock rfl s, fun hlegal hvalid hhead => ?_⟩⟩
  obtain ⟨hout, hcursor, hstring⟩ := ksBlock_follows (unw := s.unwritten .ksBuf) (K := s.params.ksDecay)
    (c := { head := s.ks.head, buf := s.ks.buf }) hhead (blockLen s)
  refine ⟨_, exec_of_ok (i := .ksGen) (ksGen_of (blockSize_of_blockLegal hlegal) hvalid), rfl, fun k hk => ?_,
    hstring, hcursor, rfl, hvalid⟩
  rw [ksRun, hout]
  exact blkAt_complete_outputBlock_map_range _ _ hk

/-! The bound of the string in exact arithmetic (44_karplus_strong.md R238). -/

/-- `loop_invariant` with outputs: what every iteration puts out from a state of the invariant, the whole loop puts out. -/
theorem loop_invariant_output {α σ β : Type} (f : σ → α → β × σ) (P : σ → Prop) (Q : β → Prop)
    (h : ∀ c x, P c → Q (f c x).1 ∧ P (f c x).2) (xs : List α) :
    ∀ c, P c → (∀ o ∈ (loop f c xs).1, Q o) ∧ P (loop f c xs).2 := by
  induction xs with
  | nil => exact fun c hc => ⟨by simp, hc⟩
  | cons x xs ih =>
    intro c hc
    obtain ⟨hout, hnext⟩ := h c x hc
    obtain ⟨houts, hend⟩ := ih _ hnext
    exact ⟨List.forall_mem_cons.2 ⟨hout, houts⟩, hend⟩

section Bounded

variable {F W : Type} [Field F] [LinearOrder F] [IsStrictOrderedRing F] [FloorRing F] {N : Num F W} {unw : Nat → F}
  {n : Nat} {K b : F} {c : KsLoop F}

theorem abs_ksNew_le (hN : N.Exact) (K first second : F) : |ksNew N K first second| ≤ |K| * max |first| |second| := by
  have hnew : ksNew N K first second = K * ((first + second) / 2) := by
    rw [ksNew, (hN.arithmetic _ _).2.2.1, (hN.arithmetic _ _).2.2.1, (hN.arithmetic _ _).1, hN.literals.1]
    push_cast
    ring
  have hmean : |(first + second) / 2| ≤ max |first| |second| := by
    rw [abs_div, abs_two, div_le_iff₀ two_pos, mul_two]
    exact (abs_add_le _ _).trans (add_le_add (le_max_left _ _) (le_max_right _ _))
  rw [hnew, abs_mul]
  exact mul_le_mul_of_nonneg_left hmean (abs_nonneg K)

theorem abs_ksNew_le_of_le (hN : N.Exact) (hK : |K| ≤ 1) {first second : F} (hfirst : |first| ≤ b)
    (hsecond : |second| ≤ b) : |ksNew N K first second| ≤ b :=
  calc |ksNew N K first second| ≤ |K| * max |first| |second| := abs_ksNew_le hN K first second
    _ ≤ 1 * b := mul_le_mul hK (max_le hfirst hsecond) (le_max_of_le_left (abs_nonneg _)) zero_le_one
    _ = b := one_mul b

/-- The cursor is in the ring, and no cell of the ring is larger than `b`. -/
structure KsLoop.BoundedBy (unw : Nat → F) (n : Nat) (b : F) (c : KsLoop F) : Prop where
  head  : c.head < n
  cells : ∀ i < n, |c.buf.read unw i| ≤ b

theorem KsLoop.BoundedBy.sample (h : c.BoundedBy unw n b) (hN : N.Exact) (hK : |K| ≤ 1) :
    |(ksSample N unw n K c ()).1| ≤ b ∧ (ksSample N unw n K c ()).2.BoundedBy unw n b := by
  obtain ⟨hhead, hcells⟩ := h
  have hpos : 0 < n := Nat.zero_lt_of_lt hhead
  have hfirst : |c.buf.read unw c.head| ≤ b := hcells _ hhead
  refine ⟨hfirst, Nat.mod_lt _ hpos, fun i hi => ?_⟩
  by_cases hfront : i = c.head
  · rw [hfront, ksSample, Memory.read_write_same]
    refine abs_ksNew_le_of_le hN hK hfirst ?_
    split_ifs
    · exact hcells _ (Nat.mod_lt _ hpos)
    · simpa [Num.whole, hN.literals.1] using (abs_nonneg _).trans hfirst
  · rw [ksSample, Memory.read_write_ne _ _ _ hfront]
    exact hcells i hi

end Bounded

/-- Settles O26: the bound of a new value makes the bound of the ring an invariant of the loop. -/
theorem ksStringBounded : Obligations.KsStringBounded := by
  unfold Obligations.KsStringBounded
  intro F _ _ _ _ W N unw n B K b c hN
  refine ⟨abs_ksNew_le hN K, fun hK hhead hcells => ?_⟩
  obtain ⟨hout, hhead', hcells'⟩ := loop_invariant_output (ksSample N unw n K) (KsLoop.BoundedBy unw n b)
    (fun o => |o| ≤ b) (fun _ _ h => h.sample hN hK) (List.replicate B ()) c ⟨hhead, hcells⟩
  exact ⟨hout, hhead', hcells'⟩

end Sys2Proof.Machine

/-! Proofs of the statements on 45_vibrato.md. First `VIB.INIT`, and what a loop that may fault does when its state before
each sample is described. -/

namespace Sys2Proof.Machine

open Sys2Proof.Claims

theorem vibLength_of_fits {S W : Type} {N : Num S W} {cap : Nat} {width rate : S} (hrate : N.eq rate (N.whole 0) = false)
    (hfin : N.isfin (N.mul width rate) = true) (hlt : N.lt (N.mul width rate) (N.whole 0) = false)
    (hcap : N.ifloor (N.mul width rate) + 2 ≤ cap) :
    vibLength N cap width rate = .ok (N.ifloor (N.mul width rate) + 2).toNat := by
  simp [vibLength, hrate, hfin, hlt, hcap.not_gt]

theorem vibLength_of_unfit {S W : Type} {N : Num S W} {cap : Nat} {width rate : S}
    (h : N.eq rate (N.whole 0) = true ∨ N.isfin (N.mul width rate) = false ∨ N.lt (N.mul width rate) (N.whole 0) = true ∨
      (cap : Int) < N.ifloor (N.mul width rate) + 2) :
    vibLength N cap width rate = .error .vibLen := by
  unfold vibLength
  dsimp only
  split_ifs with hrate hfin hlt hcap
  · rfl
  · rfl
  · rfl
  · rfl
  · exact absurd h (by simp [hrate, hfin, hlt, hcap])

/-- Settles O27: the length of R252 is computed or refused, and a computed one is committed with a ring of zeros. -/
theorem vibInitResult : Obligations.VibInitResult := by
  unfold Obligations.VibInitResult
  refine ⟨by decide, fun s => ⟨fun hrate hfin hlt hcap => ?fits, fun hclear hunfit => ?unfit⟩⟩
  case fits =>
    have hfloor : 0 ≤ ref64.ifloor (vibProduct s) := Binary64.ifloor_nonneg hfin hlt
    exact ⟨_, exec_of_ok (i := .vibInit) (vibInit_of (vibLength_of_fits hrate hfin hlt hcap)), rfl, rfl,
      Int.toNat_of_nonneg (add_nonneg hfloor zero_le_two), rfl, rfl, rfl, fun i hi => Memory.read_ofList_replicate _ _ hi⟩
  case unfit =>
    have hlen := vibLength_of_unfit hunfit
    exact exec_eq_faulted hclear (by simp [performed, vibInit, hlen])

/-! `VIB.APPLY`. -/

/-- `loop_describedBy` of a loop that may fault: where every sample passes it ends as described, otherwise it faults. -/
theorem loopE_describedBy {α σ β ε : Type} (f : Nat → σ → α → Except ε (β × σ)) (e : ε) (xs : List α) :
    ∀ (n : Nat) (passes : Nat → Prop) (R : Nat → σ → Prop) (out : Nat → β),
    (∀ k (hk : k < xs.length) c, R k c →
      (passes k → ∃ c', f (n + k) c xs[k] = .ok (out k, c') ∧ R (k + 1) c') ∧ (¬ passes k → f (n + k) c xs[k] = .error e)) →
    ∀ c, R 0 c →
      ((∀ k < xs.length, passes k) → ∃ c', loopE f n c xs = .ok ((List.range xs.length).map out, c') ∧ R xs.length c') ∧
      ((¬ ∀ k < xs.length, passes k) → loopE f n c xs = .error e) := by
  induction xs with
  | nil => exact fun n passes R out _ c h0 => ⟨fun _ => ⟨c, rfl, h0⟩, fun hno => absurd (fun k hk => nomatch hk) hno⟩
  | cons x xs ih =>
    intro n passes R out hstep c h0
    obtain ⟨hpass, hfault⟩ := hstep 0 (Nat.zero_lt_succ _) c h0
    by_cases hfirst : passes 0
    · obtain ⟨c', hx, h1⟩ := hpass hfirst
      obtain ⟨hends, hfaults⟩ := ih (n + 1) (fun k => passes (k + 1)) (fun k => R (k + 1)) (fun k => out (k + 1))
        (fun k hk d hd => by
          have := hstep (k + 1) (Nat.succ_lt_succ hk) d hd
          rwa [Nat.add_right_comm, Nat.add_assoc]) c' h1
      have hx : f n c x = .ok (out 0, c') := hx
      refine ⟨fun hall => ?_, fun hno => ?_⟩
      · obtain ⟨d, hrest, hd⟩ := hends fun k hk => hall (k + 1) (Nat.succ_lt_succ hk)
        refine ⟨d, ?_, hd⟩
        simp only [loopE, hx, hrest, List.length_cons, List.range_succ_eq_map, List.map_cons, List.map_map, Function.comp_def]
      · have hrest := hfaults fun hall => hno fun k hk => match k with
          | 0 => hfirst
          | k + 1 => hall k (Nat.lt_of_succ_lt_succ hk)
        simp only [loopE, hx, hrest]
    · have hx : f n c x = .error e := hfault hfirst
      exact ⟨fun hall => absurd (hall 0 (Nat.zero_lt_succ _)) hfirst, fun _ => by simp only [loopE, hx]⟩

/-- The machine's loop before sample `k` has the read index, the cursors, the flag and the cells of the recursion of
45_vibrato.md R253. -/
structure VibLoop.Follows (s : State) (k : Nat) (c : VibLoop Sample) : Prop where
  r     : c.r = vibRead s k
  w     : c.w = vibWrite s k
  i1    : c.i1 = vibBase s k
  neg   : c.neg = true ↔ s.vibneg = true ∨ ∃ j < k, ref64.lt (vibRead s j) (ref64.lit 0 1) = true
  cells : ∀ i, c.buf.read (s.unwritten .vibBuf) i = vibLine s k i

/-- The iteration of `VIB.APPLY`'s loop on the operands of the state. -/
abbrev vibStep (s : State) : Nat → VibLoop Sample → Sample → Except ErrCode (Sample × VibLoop Sample) :=
  vibSample ref64 (s.unwritten .vibBuf) s.vib.n s.params.vibF0 s.params.rate (vibProduct s)

/-- A sample whose new read index is finite passes (45_vibrato.md R253, R256). -/
theorem vibSample_of_isfin {S W : Type} {N : Num S W} {unw : Nat → S} {n : Nat} {f0 rate wd : S} {k : Nat} {c : VibLoop S}
    {r : S} (x : S) (hr : vibTarget N f0 rate wd k ((c.i1 + 1) % n) = r) (hfin : N.isfin r = true) :
    vibSample N unw n f0 rate wd k c x = .ok (vibConvert N (vibInterpolate N unw n c.buf c.r),
      { r := vibWrap N n r
        w := (c.w + 1) % n
        i1 := (c.i1 + 1) % n
        neg := c.neg || N.lt c.r (N.whole 0)
        buf := c.buf.write c.w x }) := by
  simp [vibSample, hr, hfin]

theorem vibRead_succ (s : State) (k : Nat) : vibRead s (k + 1) = vibWrap ref64 s.vib.n (vibRaw s k) := by
  rw [vibRead, vibWrap, Num.ge]

theorem vibConvert_eq_vibPcm (y : Sample) : vibConvert ref64 y = vibPcm y := rfl

theorem VibLoop.Follows.sample {s : State} {k : Nat} {c : VibLoop Sample} (h : c.Follows s k) :
    (ref64.isfin (vibRaw s k) = true →
      ∃ c', vibStep s k c (s.blkAt k) = .ok (vibPcm (vibValue s k), c') ∧ VibLoop.Follows s (k + 1) c') ∧
    (¬ ref64.isfin (vibRaw s k) = true → vibStep s k c (s.blkAt k) = .error .vibIdx) := by
  obtain ⟨hr, hw, hi1, hneg, hcells⟩ := h
  have htarget : vibTarget ref64 s.params.vibF0 s.params.rate (vibProduct s) k ((c.i1 + 1) % s.vib.n) = vibRaw s k := by
    simp only [vibTarget, vibPhase, hi1, vibRaw, vibBase, Num.whole]
  refine ⟨fun hfin => ?passes, fun hfin => ?faults⟩
  case passes =>
    have hvalue : vibInterpolate ref64 (s.unwritten .vibBuf) s.vib.n c.buf c.r = vibValue s k := by
      simp only [vibInterpolate, hr, hcells, vibValue, ringIndex, Num.whole]
    have hsample := vibSample_of_isfin (unw := s.unwritten .vibBuf) (s.blkAt k) htarget hfin
    rw [hvalue, vibConvert_eq_vibPcm] at hsample
    refine ⟨_, hsample, (vibRead_succ s k).symm, by rw [hw, vibWrite], by rw [hi1, vibBase], ?neg, fun i => ?cells⟩
    case neg =>
      simp only [Bool.or_eq_true, hneg, hr, Nat.lt_succ_iff_lt_or_eq, or_and_right, exists_or, exists_eq_left, or_assoc, Num.whole]
    case cells =>
      simp only [Memory.read_write, hcells, hw, vibLine]
  case faults =>
    simp only [vibStep, vibSample, htarget, Bool.eq_false_iff.2 hfin, if_true]

theorem vibRun_follows (s : State) (B : Nat) :
    ((∀ k < B, ref64.isfin (vibRaw s k) = true) →
      ∃ c, vibRun ref64 s B = .ok ((List.range B).map fun k => vibPcm (vibValue s k), c) ∧ c.Follows s B) ∧
    ((¬ ∀ k < B, ref64.isfin (vibRaw s k) = true) → vibRun ref64 s B = .error .vibIdx) := by
  have h := loopE_describedBy (vibStep s) .vibIdx (inputBlock s B) 0 (fun k => ref64.isfin (vibRaw s k) = true)
    (fun k c => c.Follows s k) (fun k => vibPcm (vibValue s k))
    (fun k hk c hc => by rw [getElem_inputBlock, Nat.zero_add]; exact hc.sample)
    { r := s.vib.r, w := s.vib.w, i1 := s.vib.i1, neg := s.vibneg, buf := s.vib.buf }
    ⟨rfl, rfl, rfl, by simp, fun _ => rfl⟩
  rwa [length_inputBlock] at h

/-- Settles O28: the machine's loop follows the recursion of R253 sample by sample, up to a read index that is not finite. -/
theorem vibApplyResult : Obligations.VibApplyResult := by
  unfold Obligations.VibApplyResult
  refine ⟨by decide, fun s => ⟨firstChecks_of_usesBlock rfl s, fun hlegal hvalid hfin => ?_,
    fun hlegal hvalid hclear hno => exec_eq_faulted hclear ?_⟩⟩
  · obtain ⟨c, hrun, hr, hw, hi1, hneg, hcells⟩ := (vibRun_follows s (blockLen s)).1 hfin
    exact ⟨_, exec_of_ok (i := .vibApply) (vibApply_of (blockSize_of_blockLegal hlegal) hvalid hrun), rfl,
      fun k hk => blkAt_complete_outputBlock_map_range _ _ hk, hcells, hr, hw, hi1, rfl, hvalid, hneg⟩
  · have hrun := (vibRun_follows s (blockLen s)).2 hno
    simp [performed, vibApply, blockSize_of_blockLegal hlegal, hvalid, hrun]

end Sys2Proof.Machine

/-! The range of the read index (45_vibrato.md R256, R257): what the modulator adds to the counter is smaller than the ring. -/

namespace Sys2Proof.Machine.Binary64

theorem value_sub_bounds {x y : Sample} (hx : isFinite x = true) (hy : isFinite y = true) {lo hi : Int}
    (hlo : lo.natAbs < 9007199254740992) (hhi : hi.natAbs < 9007199254740992) (h1 : lo * (one : Int) ≤ value x - value y)
    (h2 : value x - value y ≤ hi * (one : Int)) :
    isFinite (sub x y) = true ∧ lo * (one : Int) ≤ value (sub x y) ∧ value (sub x y) ≤ hi * (one : Int) := by
  rw [sub_eq_add_flip hx hy]
  rw [sub_eq_add_neg, ← value_flip] at h1 h2
  exact value_add_bounds hx ((isFinite_flip y).trans hy) hlo hhi h1 h2

/-- A product with a factor of at most 1 in size is at most the other factor in size. -/
theorem abs_value_mul_le {x y : Sample} (hx : isFinite x = true) (hy : le (abs y) (lit 1 1) = true) :
    isFinite (mul x y) = true ∧ |value (mul x y)| ≤ |value x| := by
  have hfin : isFinite y = true := isFinite_of_abs_le isFinite_lit_one hy
  have hunits : units y ≤ one := by
    have := abs_value_le_of_le_whole hfin (by decide) hy
    rw [abs_value, one_mul] at this
    exact_mod_cast this
  have hmag := magnitude_mul_le hx hfin hunits
  have hlt := (isFinite_iff x).mp hx
  refine ⟨(isFinite_iff _).mpr (hmag.trans_lt hlt), ?_⟩
  rw [abs_value, abs_value]
  exact_mod_cast magUnits_mono hmag hlt.le

/-- 0 plus a finite sample has the value of the sample. -/
theorem value_zero_add {x y : Sample} (hx : isFinite x = true) (hy : isFinite y = true) (h : value x = 0) :
    value (add x y) = value y :=
  (value_add_exact hx hy hy (by rw [h, zero_add])).2

end Sys2Proof.Machine.Binary64

namespace Sys2Proof.Machine

open Sys2Proof.Claims

/-- 45_vibrato.md R257 in numbers: the sample is finite, and lies above `-(n - 1)` and below `n`. -/
structure InReadRange (n : Nat) (r : Sample) : Prop where
  finite : Binary64.isFinite r = true
  lower  : -((n : Int) - 1) * (Binary64.one : Int) < Binary64.value r
  upper  : Binary64.value r < n * (Binary64.one : Int)

theorem InReadRange.lt {n : Nat} {r : Sample} (h : InReadRange n r) (hn : n ≤ 1048576) :
    ref64.lt (ref64.ofint (-((n : Int) - 1))) r = true ∧ ref64.lt r (ref64.ofint n) = true := by
  have hlo : (-((n : Int) - 1)).natAbs < 9007199254740992 := by omega
  have hhi : (n : Int).natAbs < 9007199254740992 := by omega
  simp only [ref64_lt, ref64_ofint]
  rw [Binary64.lt_iff (Binary64.isFinite_ofint hlo) h.finite, Binary64.lt_iff h.finite (Binary64.isFinite_ofint hhi),
    Binary64.value_ofint hlo, Binary64.value_ofint hhi]
  exact ⟨h.lower, h.upper⟩

theorem inReadRange_zero {n : Nat} (htwo : 2 ≤ n) : InReadRange n (Binary64.lit 0 1) := by
  have hone : (0 : Int) < Binary64.one := by exact_mod_cast Binary64.one_pos
  refine ⟨Binary64.isFinite_lit_zero, ?_, ?_⟩
  · rw [Binary64.value_lit_zero]
    exact mul_neg_of_neg_of_pos (by omega) hone
  · rw [Binary64.value_lit_zero]
    exact mul_pos (by omega) hone

section Modulator

variable {n i1 : Nat} {d : Sample}

/-- A counter of the ring plus an offset smaller than `n - 1`: above `-(n - 1)`, and at most `2n - 2`. -/
theorem counter_add_bounds (hn : n ≤ 1048576) (hi1 : i1 < n) (hfin : Binary64.isFinite d = true)
    (hd : |Binary64.value d| < ((n : Int) - 1) * (Binary64.one : Int)) :
    Binary64.isFinite (Binary64.add (Binary64.ofint i1) d) = true ∧
      -((n : Int) - 1) * (Binary64.one : Int) < Binary64.value (Binary64.add (Binary64.ofint i1) d) ∧
      Binary64.value (Binary64.add (Binary64.ofint i1) d) ≤ (2 * (n : Int) - 2) * (Binary64.one : Int) := by
  have hone : (0 : Int) < Binary64.one := by exact_mod_cast Binary64.one_pos
  have hbase : ((i1 : Int)).natAbs < 9007199254740992 := by omega
  have hfinBase := Binary64.isFinite_ofint hbase
  have hvalue := Binary64.value_ofint hbase
  obtain ⟨hlo, hhi⟩ := abs_lt.mp hd
  have hcounter : (i1 : Int) * (Binary64.one : Int) ≤ ((n : Int) - 1) * (Binary64.one : Int) :=
    mul_le_mul_of_nonneg_right (by omega) hone.le
  obtain ⟨hsum, hbelow, habove⟩ := Binary64.value_add_bounds hfinBase hfin (lo := (i1 : Int) - (n - 1))
    (hi := 2 * (n : Int) - 2) (by omega) (by omega) (by rw [hvalue]; linarith) (by rw [hvalue]; linarith)
  refine ⟨hsum, ?_, habove⟩
  obtain rfl | hpos := Nat.eq_zero_or_pos i1
  · rw [Binary64.value_zero_add hfinBase hfin (by rw [hvalue]; simp)]
    linarith
  · exact lt_of_lt_of_le (mul_lt_mul_of_pos_right (by omega) hone) hbelow

/-- The one-sided wrap brings such a sum into the range: one subtraction is enough (45_vibrato.md R256). -/
theorem inReadRange_vibWrap (htwo : 2 ≤ n) (hn : n ≤ 1048576) {r : Sample} (hfin : Binary64.isFinite r = true)
    (hlo : -((n : Int) - 1) * (Binary64.one : Int) < Binary64.value r)
    (hhi : Binary64.value r ≤ (2 * (n : Int) - 2) * (Binary64.one : Int)) : InReadRange n (vibWrap ref64 n r) := by
  have hone : (0 : Int) < Binary64.one := by exact_mod_cast Binary64.one_pos
  have hlen : (n : Int).natAbs < 9007199254740992 := by omega
  have hfinLen := Binary64.isFinite_ofint hlen
  have hvalue := Binary64.value_ofint hlen
  have hiff : ref64.ge r (ref64.ofint n) = true ↔ Binary64.value (Binary64.ofint n) ≤ Binary64.value r := by
    rw [Num.ge, ref64_le, ref64_ofint, Binary64.le_iff hfinLen hfin]
  by_cases hge : ref64.ge r (ref64.ofint n) = true
  · rw [vibWrap, if_pos hge]
    have hle : (n : Int) * (Binary64.one : Int) ≤ Binary64.value r := hvalue ▸ hiff.mp hge
    obtain ⟨hsub, hbelow, habove⟩ := Binary64.value_sub_bounds hfin hfinLen (lo := 0) (hi := (n : Int) - 2) (by decide)
      (by omega) (by rw [hvalue]; linarith) (by rw [hvalue]; linarith)
    exact ⟨hsub, lt_of_lt_of_le (mul_lt_mul_of_pos_right (by omega) hone) hbelow,
      habove.trans_lt (mul_lt_mul_of_pos_right (by omega) hone)⟩
  · rw [vibWrap, if_neg hge]
    refine ⟨hfin, hlo, ?_⟩
    rw [← hvalue, ← not_le]
    exact mt hiff.mpr hge

end Modulator

/-! The read indices of a block from a state of the invariant, where the phases are finite. -/

section ReadIndex

variable {s : State} {k : Nat}

theorem vibBase_lt (hi1 : s.vib.i1 < s.vib.n) : ∀ k, vibBase s k < s.vib.n
  | 0 => hi1
  | _ + 1 => Nat.mod_lt _ (Nat.zero_lt_of_lt hi1)

/-- The length is at most the capacity, whose bound is that of 00_scope.md R5. -/
theorem MachineInv.vib_n_le (h : MachineInv s) (hvalid : s.vib.valid = true) : s.vib.n ≤ 1048576 := by
  obtain ⟨-, hcap, -⟩ := h.vib.live hvalid
  obtain ⟨-, -, -, -, -, -, hmax⟩ := h.caps
  exact hcap.trans hmax

/-- 45_vibrato.md R251: the buffer is more than one sample longer than the largest excursion `Wd`. -/
theorem abs_value_vibProduct_lt (h : VibOk s) (hvalid : s.vib.valid = true) :
    |Binary64.value (vibProduct s)| < ((s.vib.n : Int) - 1) * (Binary64.one : Int) := by
  obtain ⟨htwo, -, -, -, -, hfin, hlen, -⟩ := h.live hvalid
  have hfloor : Binary64.ifloor (vibProduct s) = (s.vib.n : Int) - 2 := by
    have : (s.vib.n : Int) = Binary64.ifloor (vibProduct s) + 2 := hlen
    omega
  have hle := Binary64.ifloor_le (x := vibProduct s) hfin
  have hlt := Binary64.lt_ifloor_succ (x := vibProduct s) hfin
  have hnonneg : 0 ≤ ((s.vib.n : Int) - 2) * (Binary64.one : Int) := mul_nonneg (by omega) (Int.natCast_nonneg _)
  rw [hfloor] at hle hlt
  rw [abs_of_nonneg (hnonneg.trans hle)]
  linarith

/-- Law N6 of 00_scope.md R9 of the configured sine. -/
theorem abs_ref64_sin_le_one {x : Sample} (hx : ref64.isfin x = true) :
    Binary64.le (Binary64.abs (ref64.sin x)) (Binary64.lit 1 1) = true :=
  abs_lawfulUnit_le_one (x := x) Config.sin hx

/-- The read index before the wrap: the counter, and the width times the sine. -/
theorem vibRaw_eq (s : State) (k : Nat) : vibRaw s k = Binary64.add (Binary64.ofint (vibBase s (k + 1)))
    (Binary64.mul (vibProduct s) (ref64.sin (vibPhase ref64 s.params.vibF0 s.params.rate k))) := by
  rw [vibRaw, vibPhase, Num.whole, ref64_add, ref64_ofint, ref64_mul]

theorem vibRaw_bounds (h : MachineInv s) (hvalid : s.vib.valid = true)
    (hphase : ref64.isfin (vibPhase ref64 s.params.vibF0 s.params.rate k) = true) :
    Binary64.isFinite (vibRaw s k) = true ∧
      -((s.vib.n : Int) - 1) * (Binary64.one : Int) < Binary64.value (vibRaw s k) ∧
      Binary64.value (vibRaw s k) ≤ (2 * (s.vib.n : Int) - 2) * (Binary64.one : Int) := by
  obtain ⟨-, -, -, hi1, -, hfin, -⟩ := h.vib.live hvalid
  obtain ⟨hfinOffset, hoffset⟩ := Binary64.abs_value_mul_le (x := vibProduct s) hfin
    (abs_ref64_sin_le_one hphase)
  rw [vibRaw_eq]
  exact counter_add_bounds (h.vib_n_le hvalid) (vibBase_lt hi1 (k + 1)) hfinOffset
    (hoffset.trans_lt (abs_value_vibProduct_lt h.vib hvalid))

theorem vibFinite_of_phasesFinite (h : MachineInv s) (hvalid : s.vib.valid = true) (hphases : vibPhasesFinite s) :
    vibFinite s := fun k hk => (vibRaw_bounds h hvalid (hphases k hk)).1

theorem inReadRange_vibRead_succ (h : MachineInv s) (hvalid : s.vib.valid = true)
    (hphase : ref64.isfin (vibPhase ref64 s.params.vibF0 s.params.rate k) = true) :
    InReadRange s.vib.n (vibRead s (k + 1)) := by
  obtain ⟨htwo, -⟩ := h.vib.live hvalid
  obtain ⟨hfin, hlo, hhi⟩ := vibRaw_bounds h hvalid hphase
  rw [vibRead_succ]
  exact inReadRange_vibWrap htwo (h.vib_n_le hvalid) hfin hlo hhi

end ReadIndex

/-! What keeps the bound. -/

section Steps

variable {s t u : State}

theorem readIndexBounded_of_vib (h : readIndexBounded s) (ht : t.vib = s.vib ∨ t.vib = VibUnit.destroyed (ref64.whole 0)) :
    readIndexBounded t := by
  intro hvalid
  obtain hsame | hdestroyed := ht
  · rw [hsame] at hvalid ⊢
    exact h hvalid
  · rw [hdestroyed] at hvalid
    cases hvalid

/-- A fresh read index is 0 (45_vibrato.md R252). -/
theorem readIndexBounded_of_vibInit (h : MachineInv u) (hp : vibInit ref64 s = .ok u) : readIndexBounded u := by
  intro hvalid
  obtain ⟨htwo, -⟩ := h.vib.live hvalid
  have hn := h.vib_n_le hvalid
  have hr : u.vib.r = Binary64.lit 0 1 := by
    obtain ⟨n, -, rfl⟩ := vibInit_ok hp
    rfl
  rw [hr]
  exact (inReadRange_zero htwo).lt hn

/-- A block ends with the read index its last sample computed (45_vibrato.md R253). -/
theorem readIndexBounded_of_vibApply (h : MachineInv s) (hphases : vibPhasesFinite s) (hp : vibApply ref64 s = .ok u) :
    readIndexBounded u := by
  obtain ⟨B, r, hB, hvalid, hr, rfl⟩ := vibApply_ok hp
  obtain ⟨rfl, hpos, -⟩ := blockSize_ok hB
  obtain ⟨c, hrun, hc⟩ := (vibRun_follows s (blockLen s)).1 (vibFinite_of_phasesFinite h hvalid hphases)
  obtain rfl : _ = r := Except.ok.inj (hrun.symm.trans hr)
  obtain ⟨k, hk⟩ := Nat.exists_eq_add_of_le' hpos
  have hrange := inReadRange_vibRead_succ h hvalid (hphases k (by simp only [blockLen]; omega))
  rw [← hk, ← hc.r] at hrange
  exact fun _ => hrange.lt (h.vib_n_le hvalid)

theorem readIndexBounded_of_performed {i : Instr} (h : MachineInv s) (hbound : readIndexBounded s)
    (hphases : vibPhasesFinite s) (hp : performed ref64 i s = .ok u) : readIndexBounded u := by
  by_cases hinit : i = .vibInit
  · subst hinit
    exact readIndexBounded_of_vibInit (h.performed hp) hp
  · by_cases happly : i = .vibApply
    · subst happly
      exact readIndexBounded_of_vibApply h hphases hp
    · exact readIndexBounded_of_vib hbound (.inl ((performed_frame hp).vib hinit happly))

theorem EntersFault.vib (h : EntersFault s t) : t.vib = s.vib := by
  obtain ⟨-, e, op, -, rfl⟩ := h
  simp

theorem hostRead_vib (a : Addr) (s : State) : (hostRead ref64 a s).vib = s.vib := by
  obtain hsame | hfault := memRead_cases a s
  · simp [hostRead, hsame]
  · simp [hostRead, hfault.vib]

/-- An accepted write keeps the VIB state or destroys it (10_state.md R50). -/
theorem writePlace_vib {w : Word} {p : Place} (h : writePlace ref64 w s p = some t) :
    t.vib = s.vib ∨ t.vib = VibUnit.destroyed (ref64.whole 0) := by
  unfold writePlace at h
  split at h
  case h_4 => exact (writeParam_keepsOrDestroys h).vib.imp_left And.left
  all_goals cases h <;> exact .inl rfl

theorem memWrite_vib (a : Addr) (w : Word) (s : State) :
    (memWrite ref64 a w s).vib = s.vib ∨ (memWrite ref64 a w s).vib = VibUnit.destroyed (ref64.whole 0) := by
  obtain ⟨-, hw⟩ | ⟨-, hsame | hfault | ⟨-, hplace⟩⟩ := memWrite_cases a w s
  · rw [hw]
    split
    · exact .inr rfl
    · exact .inl rfl
  · exact .inl (by rw [hsame])
  · exact .inl hfault.vib
  · exact writePlace_vib hplace

theorem readIndexBounded_of_engineStep (h : MachineInv s) (hbound : readIndexBounded s) (hphases : vibPhasesFinite s)
    (ht : engineStep exec s = .next t) : readIndexBounded t := by
  obtain ⟨-, rfl⟩ | ⟨-, hfault | ⟨i, u, hu, rfl⟩⟩ := engineStep_cases ht
  · exact hbound
  · exact readIndexBounded_of_vib hbound (.inl hfault.vib)
  · exact readIndexBounded_of_vib (readIndexBounded_of_performed h hbound hphases hu) (.inl rfl)

end Steps

/-- Settles O48: only the two VIB commands write a read index, and a block leaves one that the wrap has brought into range. -/
theorem readIndexBoundKept : Obligations.ReadIndexBoundKept := by
  unfold Obligations.ReadIndexBoundKept
  intro s t h hbound hphases ht
  obtain ⟨rest, -, hengine⟩ | ⟨a, rest, -, rfl⟩ | ⟨a, w, rest, -, rfl⟩ | ⟨rest, -, rfl⟩ := step_cases ht
  · exact readIndexBounded_of_engineStep (h.withScript rest) hbound hphases hengine
  · exact readIndexBounded_of_vib hbound (.inl (hostRead_vib a _))
  · exact readIndexBounded_of_vib hbound (memWrite_vib a w _)
  · exact readIndexBounded_of_vib hbound (.inr rfl)

/-- With finite phases what faults is one of the two checks before the loop. -/
theorem performed_vibApply_ne_vibIdx {s : State} (h : MachineInv s) (hphases : vibPhasesFinite s) :
    performed ref64 .vibApply s ≠ .error .vibIdx := by
  by_cases hlegal : blockLegal s
  · by_cases hvalid : s.vib.valid = true
    · obtain ⟨c, hrun, -⟩ := (vibRun_follows s (blockLen s)).1 (vibFinite_of_phasesFinite h hvalid hphases)
      simp [performed, vibApply_of (blockSize_of_blockLegal hlegal) hvalid hrun]
    · simp [performed_of_not_unitReady (i := .vibApply) hlegal (Bool.eq_false_of_not_eq_true hvalid)]
  · simp [performed_of_not_blockLegal (i := .vibApply) rfl hlegal]

/-- Settles O49: a completed command keeps the code, and a fault of the command has another one. -/
theorem finitePhaseNeverFaults : Obligations.FinitePhaseNeverFaults := by
  unfold Obligations.FinitePhaseNeverFaults
  intro s t h hclear hphases ht
  obtain ⟨e, he, rfl⟩ | ⟨u, hu, rfl⟩ := exec_cases ht
  · rw [raise_eq e _ s hclear]
    rintro rfl
    exact performed_vibApply_ne_vibIdx h hphases he
  · obtain ⟨-, -, hcode, -⟩ := performed_keeps hu
    rw [complete_errCode, hcode, (h.faults.clean hclear).1]
    decide

end Sys2Proof.Machine

/-! The output conversion (45_vibrato.md R258). -/

namespace Sys2Proof.Machine.Binary64

/-- A sample between two finite ones is finite. -/
theorem isFinite_of_le_le {v lo hi : Sample} (hlo : isFinite lo = true) (hhi : isFinite hi = true)
    (hbelow : le lo v = true) (habove : le v hi = true) : isFinite v = true := by
  have hnan := not_isNaN_of_le habove
  rw [le_iff_key (not_isNaN_of_isFinite hlo) hnan] at hbelow
  rw [le_iff_key hnan (not_isNaN_of_isFinite hhi)] at habove
  have hlt : (magnitude v : Int) < infMag := by
    rw [← abs_key, abs_lt]
    exact ⟨(abs_lt.mp (abs_key_lt_infMag hlo)).1.trans_le hbelow, habove.trans_lt (abs_lt.mp (abs_key_lt_infMag hhi)).2⟩
  rw [isFinite_iff]
  exact_mod_cast hlt

/-- Truncation toward 0 stays between two integers on either side of it. -/
theorem itrunc_bounds {v : Sample} (hv : isFinite v = true) {a b : Int} (ha : a ≤ 0) (hb : 0 ≤ b)
    (hlo : a * (one : Int) ≤ value v) (hhi : value v ≤ b * (one : Int)) : a ≤ itrunc v ∧ itrunc v ≤ b := by
  have hpos : (0 : Int) < one := by exact_mod_cast one_pos
  rw [itrunc_eq hv]
  split_ifs with hsign
  · have hfloor : 0 < ifloor v + 1 := pos_of_mul_pos_left (hsign.trans_lt (lt_ifloor_succ hv)) hpos.le
    have hup : ifloor v ≤ b := le_of_mul_le_mul_right ((ifloor_le hv).trans hhi) hpos
    omega
  · obtain ⟨hbelow, habove⟩ := iceil_bounds hv
    have hceil : iceil v - 1 < 0 := neg_of_mul_neg_left (hbelow.trans (not_le.mp hsign)) hpos.le
    have hdown : a ≤ iceil v := le_of_mul_le_mul_right (hlo.trans habove) hpos
    omega

end Sys2Proof.Machine.Binary64

namespace Sys2Proof.Machine

open Sys2Proof.Claims

theorem clip_of_lt {v lo hi : Sample} (h : Binary64.lt v lo = true) : ref64.clip v lo hi = lo := if_pos h

theorem clip_of_gt {v lo hi : Sample} (hv : Binary64.isNaN v = false) (hle : Binary64.le lo hi = true)
    (h : Binary64.lt hi v = true) : ref64.clip v lo hi = hi := by
  have hlo := Binary64.not_isNaN_of_le hle
  have hhi := Binary64.not_isNaN_of_le_right hle
  have hnot : ¬ Binary64.lt v lo = true := by
    rw [Binary64.lt_iff_key hv hlo, not_lt]
    exact ((Binary64.le_iff_key hlo hhi).mp hle).trans ((Binary64.lt_iff_key hhi hv).mp h).le
  exact (if_neg hnot).trans (if_pos h)

theorem clip_of_le_of_le {v lo hi : Sample} (hlo : Binary64.le lo v = true) (hhi : Binary64.le v hi = true) :
    ref64.clip v lo hi = v := by
  have hnotlo : ¬ Binary64.lt v lo = true := by
    rw [Binary64.lt_iff_not_le (Binary64.not_isNaN_of_le_right hlo) (Binary64.not_isNaN_of_le hlo), hlo]
    decide
  have hnothi : ¬ Binary64.lt hi v = true := by
    rw [Binary64.lt_iff_not_le (Binary64.not_isNaN_of_le_right hhi) (Binary64.not_isNaN_of_le hhi), hhi]
    decide
  exact (if_neg hnotlo).trans (if_neg hnothi)

theorem clip_of_isNaN {v lo hi : Sample} (h : Binary64.isNaN v = true) : ref64.clip v lo hi = v := by
  simp [Num.clip, Num.gt, Binary64.lt_of_isNaN (.inl h), Binary64.lt_of_isNaN (.inr h)]

/-- `clip` of no NaN, between bounds in order, is no NaN. -/
theorem not_isNaN_clip {v lo hi : Sample} (hv : Binary64.isNaN v = false) (h : Binary64.le lo hi = true) :
    Binary64.isNaN (ref64.clip v lo hi) = false := by
  unfold Num.clip
  split_ifs
  exacts [Binary64.not_isNaN_of_le h, Binary64.not_isNaN_of_le_right h, hv]

/-- The clip of 45_vibrato.md R258, to the 16-bit range. -/
def pcmClip (y : Sample) : Sample := ref64.clip y (Binary64.lit (-32768) 1) (Binary64.lit 32767 1)

theorem vibConvert_eq_pcmClip (y : Sample) : vibConvert ref64 y =
    if Binary64.isFinite (pcmClip y) = true then Binary64.ofint (Binary64.itrunc (pcmClip y)) else pcmClip y := by
  rw [vibConvert, Num.whole, Num.whole, ref64_isfin, ref64_ofint, ref64_itrunc, ref64_lit, pcmClip]

theorem le_pcm_bounds : Binary64.le (Binary64.lit (-32768) 1) (Binary64.lit 32767 1) = true := by decide +kernel

theorem pcmClip_bounds {y : Sample} (hy : Binary64.isNaN y = false) :
    Binary64.isFinite (pcmClip y) = true ∧ -32768 ≤ Binary64.itrunc (pcmClip y) ∧ Binary64.itrunc (pcmClip y) ≤ 32767 := by
  have hfinLo : Binary64.isFinite (Binary64.lit (-32768) 1) = true := Binary64.isFinite_whole (by decide)
  have hfinHi : Binary64.isFinite (Binary64.lit 32767 1) = true := Binary64.isFinite_whole (by decide)
  obtain ⟨hlo, hhi⟩ := clip_bounds le_pcm_bounds (not_isNaN_clip hy le_pcm_bounds)
  have hfin := Binary64.isFinite_of_le_le hfinLo hfinHi hlo hhi
  rw [Binary64.le_iff hfinLo hfin, Binary64.value_whole (by decide)] at hlo
  rw [Binary64.le_iff hfin hfinHi, Binary64.value_whole (by decide)] at hhi
  exact ⟨hfin, Binary64.itrunc_bounds hfin (by decide) (by decide) hlo hhi⟩

/-- Settles O29: what is clipped to the range is finite there, and its truncation stays in the range. -/
theorem vibOutputIsInteger : Obligations.VibOutputIsInteger := by
  unfold Obligations.VibOutputIsInteger
  simp only [ref64_lt, ref64_le, ref64_lit, ref64_ofint, ref64_itrunc]
  refine fun y => ⟨fun hy => ?nan, fun hy => ?number⟩
  case nan =>
    have hclip : pcmClip y = y := clip_of_isNaN hy
    have hnotfin : ¬ Binary64.isFinite y = true := fun hfin => by simp [Binary64.not_isNaN_of_isFinite hfin] at hy
    rw [vibConvert_eq_pcmClip, hclip, if_neg hnotfin]
  case number =>
    obtain ⟨hfin, hlo, hhi⟩ := pcmClip_bounds hy
    refine ⟨_, hlo, hhi, by rw [vibConvert_eq_pcmClip, if_pos hfin], fun hbelow => ?_, fun habove => ?_, fun hge hle => ?_⟩
    · rw [pcmClip, clip_of_lt hbelow, Binary64.lit_one, Binary64.itrunc_ofint (by decide)]
    · rw [pcmClip, clip_of_gt hy le_pcm_bounds habove, Binary64.lit_one, Binary64.itrunc_ofint (by decide)]
    · rw [pcmClip, clip_of_le_of_le hge hle]

end Sys2Proof.Machine

/-! The vibrato without modulation (45_vibrato.md R260). First the operations that answer one of their operands itself, the
sign of a zero included. -/

namespace Sys2Proof.Machine.Binary64

/-- Apart from the zeros, finite samples of the same value are the same. -/
theorem eq_of_value_eq_of_not_isZero {x y : Sample} (hx : isFinite x = true) (hy : isFinite y = true)
    (h : value x = value y) (hne : isZero y = false) : x = y := by
  refine eq_of_key_eq (le_antisymm ((key_le_iff hx hy).mpr h.le) ((key_le_iff hy hx).mpr h.ge)) fun hkey => ?_
  have hmag : (magnitude y : Int) = 0 := by rw [← abs_key, hkey, abs_zero]
  simp [isZero, Int.natCast_eq_zero.mp hmag] at hne

/-- A zero is `+0` or `-0`, by its sign. -/
theorem pack_of_isZero {x : Sample} (hx : isZero x = true) : pack (negative x) 0 = x := by
  have hmag : magnitude x = 0 := by simpa [isZero] using hx
  rw [← hmag, pack_eta]

theorem add_of_value_eq_zero {x y : Sample} (hx : isFinite x = true) (hy : isFinite y = true)
    (h : value x + value y = 0) : add x y = pack (negative x && negative y) 0 := by
  unfold add addAs
  rw [not_isNaN_of_isFinite hx, not_isNaN_of_isFinite hy, not_isInf_of_isFinite hx, not_isInf_of_isFinite hy]
  simp [h]

/-- Adding a zero changes nothing, but for `+0` added to `-0`. -/
theorem add_eq_left_of_isZero {x y : Sample} (hx : isFinite x = true) (hy : isZero y = true)
    (hsign : isZero x = true → negative x = true → negative y = true) : add x y = x := by
  have hfin := isFinite_of_isZero hy
  have hvalue : value x + value y = value x := by rw [value_of_isZero hy, add_zero]
  cases hzero : isZero x with
  | true =>
    have hboth : (negative x && negative y) = negative x := by
      have := hsign hzero
      cases hneg : negative x with
      | false => rfl
      | true => rw [this hneg]; rfl
    rw [add_of_value_eq_zero hx hfin (hvalue.trans (value_of_isZero hzero)), hboth, pack_of_isZero hzero]
  | false =>
    obtain ⟨hsum, hsame⟩ := value_add_exact hx hfin hx hvalue
    exact eq_of_value_eq_of_not_isZero hsum hx hsame hzero

/-- An integer plus a zero is the integer. -/
theorem ofint_add_of_isZero {z : Int} (hz : z.natAbs < 9007199254740992) {y : Sample} (hy : isZero y = true) :
    add (ofint z) y = ofint z := by
  refine add_eq_left_of_isZero (isFinite_ofint hz) hy fun hzero hneg => ?_
  have hvalue := value_of_isZero hzero
  rw [value_ofint hz] at hvalue
  rw [negative_ofint, decide_eq_true_eq] at hneg
  exact absurd (mul_neg_of_neg_of_pos hneg (by exact_mod_cast one_pos)) hvalue.not_lt

theorem sub_self_eq {x : Sample} (hx : isFinite x = true) : sub x x = lit 0 1 := by
  have hzero : pack false 0 = lit 0 1 := by decide +kernel
  have hsign : (negative x && negative (flip x)) = false := by
    rw [flip, negative_pack (magnitude_lt x), Bool.and_not_self]
  rw [sub_eq_add_flip hx hx, add_of_value_eq_zero hx ((isFinite_flip x).trans hx) (by rw [value_flip, add_neg_cancel]),
    hsign, hzero]

theorem mul_of_isFinite {x y : Sample} (hx : isFinite x = true) (hy : isFinite y = true) :
    mul x y = round (negative x != negative y) (units x * units y) one := by
  unfold mul
  rw [not_isNaN_of_isFinite hx, not_isNaN_of_isFinite hy, not_isInf_of_isFinite hx, not_isInf_of_isFinite hy]
  rfl

theorem one_mul_self {x : Sample} (hx : isFinite x = true) : mul (lit 1 1) x = x := by
  have hunits : units (lit 1 1) = one := by rw [← natAbs_value, value_lit_one, Int.natAbs_natCast]
  have hneg : negative (lit 1 1) = false := by decide +kernel
  rw [mul_of_isFinite isFinite_lit_one hx, hunits, hneg, Bool.false_bne, mul_comm, units, round,
    roundMag_exact one_pos ((isFinite_iff x).mp hx).le, pack_eta]

theorem negative_zero_mul {x : Sample} (hx : isFinite x = true) : negative (mul (lit 0 1) x) = negative x := by
  have hneg : negative (lit 0 1) = false := by decide +kernel
  rw [mul_of_isFinite isFinite_lit_zero hx, negative_round, hneg, Bool.false_bne]

/-- The interpolation at fraction 0 answers the cell (45_vibrato.md R254). -/
theorem interpolate_zero {x : Sample} (hx : isFinite x = true) :
    add (mul (sub (lit 1 1) (lit 0 1)) x) (mul (lit 0 1) x) = x := by
  have hone : sub (lit 1 1) (lit 0 1) = lit 1 1 := by decide +kernel
  rw [hone, one_mul_self hx]
  exact add_eq_left_of_isZero hx (isZero_mul_left isZero_lit_zero hx) fun _ hneg => by rw [negative_zero_mul hx, hneg]

theorem not_isFinite_nan (op : NumOp) (x y : Sample) : isFinite (nan op x y) = false :=
  Bool.eq_false_of_not_eq_true fun h => by simpa using not_isNaN_of_isFinite h

theorem not_isFinite_pack_infMag (s : Bool) : isFinite (pack s infMag) = false := by
  cases s <;> decide

/-- A product with an infinity or a NaN is not finite. -/
theorem isFinite_right_of_mul {x y : Sample} (h : isFinite (mul x y) = true) : isFinite y = true := by
  unfold mul at h
  dsimp only at h
  split_ifs at h with hnan hinf
  · simp [not_isFinite_nan] at h
  · simp [not_isFinite_nan] at h
  · simp [not_isFinite_pack_infMag] at h
  · simp only [Bool.or_eq_true, not_or, isNaN, isInf, decide_eq_true_eq] at hnan hinf
    rw [isFinite_iff]
    omega

end Sys2Proof.Machine.Binary64

namespace Sys2Proof.Machine

open Sys2Proof.Claims

/-! The cursors and the cells of R253, written out. -/

section Cursors

variable (s : State)

theorem vibBase_eq (hi1 : s.vib.i1 < s.vib.n) : ∀ k, vibBase s k = (s.vib.i1 + k) % s.vib.n
  | 0 => (Nat.mod_eq_of_lt hi1).symm
  | k + 1 => by rw [vibBase, vibBase_eq hi1 k, Nat.mod_add_mod, Nat.add_assoc]

theorem vibWrite_eq (hw : s.vib.w = (s.vib.i1 + s.vib.n / 2) % s.vib.n) :
    ∀ k, vibWrite s k = (s.vib.i1 + s.vib.n / 2 + k) % s.vib.n
  | 0 => hw
  | k + 1 => by rw [vibWrite, vibWrite_eq hw k, Nat.mod_add_mod, Nat.add_assoc]

theorem vibLine_succ (k i : Nat) : vibLine s (k + 1) i = if i = vibWrite s k then s.blkAt k else vibLine s k i := rfl

/-- The input `floor(len / 2)` samples before sample `m`, from the buffer at the start of the block. -/
def vibDelayed (m : Nat) : Sample :=
  if s.vib.n / 2 ≤ m then s.blkAt (m - s.vib.n / 2) else s.vibAt ((s.vib.i1 + m) % s.vib.n)

/-- Before sample `k` the cells from the counter up to the write index hold the delayed input of the samples that will read
them there (45_vibrato.md R257, R260). -/
theorem vibLine_ahead (hw : s.vib.w = (s.vib.i1 + s.vib.n / 2) % s.vib.n) :
    ∀ k, ∀ d < s.vib.n / 2, vibLine s k ((s.vib.i1 + (k + d)) % s.vib.n) = vibDelayed s (k + d)
  | 0, d, hd => by rw [vibLine, vibDelayed, if_neg (by omega)]
  | k + 1, d, hd => by
    have hshift : k + 1 + d = k + (d + 1) := by omega
    rw [vibLine_succ, vibWrite_eq s hw, hshift]
    obtain hlast | hlt : d + 1 = s.vib.n / 2 ∨ d + 1 < s.vib.n / 2 := by omega
    · rw [hlast, if_pos (by rw [Nat.add_assoc, Nat.add_comm k]), vibDelayed, if_pos (Nat.le_add_left _ k), Nat.add_sub_cancel]
    · obtain ⟨e, he⟩ := Nat.exists_eq_add_of_lt hlt
      have hne : (s.vib.i1 + (k + (d + 1)) + (e + 1)) % s.vib.n ≠ (s.vib.i1 + (k + (d + 1))) % s.vib.n :=
        add_mod_ne_self_mod e.succ_pos (by omega)
      have hwrite : s.vib.i1 + s.vib.n / 2 + k = s.vib.i1 + (k + (d + 1)) + (e + 1) := by omega
      rw [hwrite, if_neg hne.symm]
      exact vibLine_ahead hw k (d + 1) hlt

end Cursors

/-- The state of VIB of the invariant with the read index at the counter, and operands that do not modulate
(45_vibrato.md R260). -/
structure Unmodulated (s : State) : Prop where
  two     : 2 ≤ s.vib.n
  len     : s.vib.n ≤ 1048576
  i1      : s.vib.i1 < s.vib.n
  w       : s.vib.w = (s.vib.i1 + s.vib.n / 2) % s.vib.n
  r       : s.vib.r = Binary64.ofint s.vib.i1
  f0      : s.params.vibF0 = Binary64.lit 0 1
  product : Binary64.isFinite (vibProduct s) = true
  rate    : Binary64.isZero s.params.rate = false

section Unmodulated

variable {s : State} {k : Nat}

/-- The modulator adds a zero. -/
theorem Unmodulated.isZero_modulator (h : Unmodulated s) (hk : k < 9007199254740992) :
    Binary64.isZero (Binary64.mul (vibProduct s) (ref64.sin (vibPhase ref64 s.params.vibF0 s.params.rate k))) = true := by
  have htwoPi : Binary64.isFinite (Binary64.mul (Binary64.lit 2 1) ref64.pi) = true := by decide +kernel
  have hrate : Binary64.isFinite s.params.rate = true :=
    Binary64.isFinite_right_of_mul (x := s.params.vibWidth) h.product
  have hphase : Binary64.isZero (vibPhase ref64 s.params.vibF0 s.params.rate k) = true := by
    rw [vibPhase, h.f0, Num.whole, ref64_div, ref64_mul, ref64_ofint, ref64_lit]
    exact Binary64.isZero_div (Binary64.isZero_mul_left (Binary64.isZero_mul_right htwoPi isZero_lit_zero)
      (Binary64.isFinite_ofint (by omega))) hrate h.rate
  exact Binary64.isZero_mul_right h.product (isZero_ref64_sin hphase)

theorem Unmodulated.natAbs_vibBase_lt (h : Unmodulated s) (k : Nat) : ((vibBase s k : Nat) : Int).natAbs < 9007199254740992 := by
  have := vibBase_lt h.i1 k
  have := h.len
  omega

theorem Unmodulated.vibRaw_eq_ofint (h : Unmodulated s) (hk : k < 9007199254740992) :
    vibRaw s k = Binary64.ofint (vibBase s (k + 1)) := by
  rw [vibRaw_eq, Binary64.ofint_add_of_isZero (h.natAbs_vibBase_lt _) (h.isZero_modulator hk)]

/-- The read index is the counter, which needs no wrap. -/
theorem Unmodulated.vibRead_eq_ofint (h : Unmodulated s) :
    ∀ k ≤ 9007199254740992, vibRead s k = Binary64.ofint (vibBase s k)
  | 0, _ => h.r
  | k + 1, hk => by
    have hlen : ((s.vib.n : Nat) : Int).natAbs < 9007199254740992 := by have := h.len; omega
    have hbase := h.natAbs_vibBase_lt (k + 1)
    have hbelow : ¬ ref64.ge (Binary64.ofint (vibBase s (k + 1))) (ref64.ofint s.vib.n) = true := by
      rw [Num.ge, ref64_le, ref64_ofint, Binary64.le_iff (Binary64.isFinite_ofint hlen) (Binary64.isFinite_ofint hbase),
        Binary64.value_ofint hlen, Binary64.value_ofint hbase, not_le]
      exact mul_lt_mul_of_pos_right (by exact_mod_cast vibBase_lt h.i1 (k + 1)) (by exact_mod_cast Binary64.one_pos)
    rw [vibRead_succ, h.vibRaw_eq_ofint hk, vibWrap, if_neg hbelow]

/-- At a whole read index the interpolated value is the cell itself (45_vibrato.md R254: no interpolation artifacts). -/
theorem vibValue_of_vibRead_ofint {i : Nat} (hr : vibRead s k = Binary64.ofint i) (hi : i < s.vib.n)
    (hlen : s.vib.n ≤ 1048576) (hcell : Binary64.isFinite (vibLine s k i) = true) : vibValue s k = vibLine s k i := by
  have hsmall : (i : Int).natAbs < 9007199254740992 := by omega
  have hindex : ((i : Int) % (s.vib.n : Int)).toNat = i := by
    rw [← Int.natCast_mod, Int.toNat_natCast, Nat.mod_eq_of_lt hi]
  rw [vibValue, hr, ref64_ifloor, ref64_iceil, ref64_ofint, ref64_sub, ref64_mul, ref64_add, ref64_lit,
    Binary64.ifloor_ofint hsmall, Binary64.iceil_ofint hsmall, hindex, Binary64.sub_self_eq (Binary64.isFinite_ofint hsmall),
    Binary64.interpolate_zero hcell]

/-- The cell at the counter holds the delayed input. -/
theorem Unmodulated.vibLine_vibBase (h : Unmodulated s) (k : Nat) : vibLine s k (vibBase s k) = vibDelayed s k := by
  have hhalf : 0 < s.vib.n / 2 := by have := h.two; omega
  rw [vibBase_eq s h.i1]
  exact vibLine_ahead s h.w k 0 hhalf

theorem isFinite_vibDelayed (hi1 : s.vib.i1 < s.vib.n) {B : Nat} (hcells : ∀ i < s.vib.n, Binary64.isFinite (s.vibAt i) = true)
    (hblock : ∀ j < B, Binary64.isFinite (s.blkAt j) = true) (hk : k < B) : Binary64.isFinite (vibDelayed s k) = true := by
  unfold vibDelayed
  split_ifs
  · exact hblock _ (by omega)
  · exact hcells _ (Nat.mod_lt _ (Nat.zero_lt_of_lt hi1))

theorem not_lt_zero_ofint {i : Nat} (hi : (i : Int).natAbs < 9007199254740992) :
    ¬ Binary64.lt (Binary64.ofint i) (Binary64.lit 0 1) = true := by
  rw [Binary64.lt_iff (Binary64.isFinite_ofint hi) Binary64.isFinite_lit_zero, Binary64.value_ofint hi,
    Binary64.value_lit_zero, not_lt]
  exact mul_nonneg (Int.natCast_nonneg _) (Int.natCast_nonneg _)

end Unmodulated

/-- Settles O30: without modulation the read index is the counter throughout, and the cell there holds the delayed input. -/
theorem vibPureDelay : Obligations.VibPureDelay := by
  unfold Obligations.VibPureDelay
  intro s t hlegal hvalid htwo hlen hi1 hw hr hf0 hfin hrate hcells hblock ht
  have h : Unmodulated s := ⟨htwo, hlen, hi1, hw, hr, hf0, hfin, by rw [← Binary64.isZero_eq_eq_lit_zero]; exact hrate⟩
  have hB : blockLen s < 9007199254740992 := s.params.bsize.isLt.trans (by decide)
  have hfinite : vibFinite s := fun k hk => by
    rw [h.vibRaw_eq_ofint (hk.trans hB)]
    exact Binary64.isFinite_ofint (h.natAbs_vibBase_lt _)
  obtain ⟨-, happly⟩ := vibApplyResult
  obtain ⟨-, hends, -⟩ := happly s
  obtain ⟨u, hu, -, hout, -, hread, -, hbase, -, -, hneg⟩ := hends hlegal hvalid hfinite
  obtain rfl : u = t := Host.Outcome.next.inj (hu.symm.trans ht)
  refine ⟨?read, by rw [hbase, vibBase_eq s hi1], ?neg, fun k hk => ?out⟩
  case read => rw [hread, hbase, h.vibRead_eq_ofint _ hB.le, ref64_ofint]
  case neg =>
    rw [Bool.eq_iff_iff, hneg, or_iff_left]
    rintro ⟨k, hk, hlt⟩
    rw [h.vibRead_eq_ofint _ (hk.trans hB).le] at hlt
    exact not_lt_zero_ofint (h.natAbs_vibBase_lt k) hlt
  case out =>
    have hcell := h.vibLine_vibBase k
    have hcellfin : Binary64.isFinite (vibLine s k (vibBase s k)) = true := by
      rw [hcell]; exact isFinite_vibDelayed hi1 hcells hblock hk
    rw [hout k hk, vibConvert_eq_vibPcm, vibValue_of_vibRead_ofint (h.vibRead_eq_ofint k (hk.trans hB).le)
      (vibBase_lt hi1 k) hlen hcellfin, hcell, vibDelayed]

end Sys2Proof.Machine

/-! Proofs of the statements on 60_exceptions.md: what a faulting command says of its checks, what a faulted block does in a
step, and the interrupt line. -/

namespace Sys2Proof.Machine

open Sys2Proof.Claims

/-- A command that leaves the fault flag set where it found it clear is one whose checks failed, and its state is the one of
fault entry (60_exceptions.md R283, R289). -/
theorem exec_inv_of_fault {i : Instr} {s t : State} (hclear : s.fault = false) (h : exec i s = .next t)
    (hfault : t.fault = true) : ∃ e, performed ref64 i s = .error e ∧ t = faulted e i.opcode s := by
  obtain ⟨e, he, rfl⟩ | ⟨u, hu, rfl⟩ := exec_cases h
  · exact ⟨e, he, raise_eq_faulted e _ hclear⟩
  · obtain ⟨-, hkept, -⟩ := performed_keeps hu
    simp [hkept, hclear] at hfault

/-- Settles O9: the state of fault entry is made of the state before the command. -/
theorem faultsArePrecise : Obligations.FaultsArePrecise := by
  unfold Obligations.FaultsArePrecise
  intro i s t hclear h hfault
  obtain ⟨e, -, rfl⟩ := exec_inv_of_fault hclear h hfault
  rfl

/-! The codes of 60_exceptions.md R281: first those of the checks many commands share, then what is left once they pass. -/

theorem usesBlock_of_not_unitReady {i : Instr} {s : State} (h : unitReady i s = false) : usesBlock i = true := by
  cases i
  case nop | dlyInit | dstApply | revInit | ksPluck | vibInit => cases h
  case dlyApply | revApply | ksGen | vibApply => rfl

theorem bsize_mem_faultCodes {i : Instr} (h : usesBlock i = true) : .bsize ∈ faultCodes i := by
  cases i
  case nop | dlyInit | ksPluck | vibInit => cases h
  case dlyApply | dstApply | revInit | revApply | ksGen | vibApply => exact List.mem_cons_self

theorem noState_mem_faultCodes {i : Instr} {s : State} (h : unitReady i s = false) : .noState ∈ faultCodes i := by
  cases i
  case nop | dlyInit | dstApply | revInit | ksPluck | vibInit => cases h
  case dlyApply | revApply | ksGen | vibApply => simp [faultCodes]

/-- Past the checks of `BSIZE` and of the unit state, a command faults with a code of its own alone, or completes
(60_exceptions.md R281, R285). -/
theorem mem_faultCodes_of_firstChecks_pass {i : Instr} {s : State} {e : ErrCode}
    (hlegal : usesBlock i = true → blockLegal s) (hready : unitReady i s = true) (h : performed ref64 i s = .error e) : e ∈ faultCodes i := by
  have hsize := fun hi => blockSize_of_blockLegal (hlegal hi)
  cases i <;> simp only [performed] at h
  case nop => cases h
  case dlyInit =>
    cases hlen : dlyLength ref64 s.caps.maxDly s.params.dlyTime s.params.rate with
    | ok n => simp [dlyInit_of hlen] at h
    | error e' =>
      obtain rfl : e' = e := by simpa [dlyInit, hlen] using h
      simp [faultCodes, dlyLength_error hlen]
  case dlyApply => simp [dlyApply_of (hsize rfl) hready] at h
  case dstApply => simp [dstApply_of (hsize rfl)] at h
  case revInit =>
    by_cases husable : irUsable s
    · obtain ⟨hpos, hcap, hsamples⟩ := husable
      simp [revInit_of (hsize rfl) hpos hcap ((revUsable_iff s).2 hsamples)] at h
    · obtain rfl : .revIr = e := by simpa [revInit_of_not_irUsable (hlegal rfl) husable] using h
      simp [faultCodes]
  case revApply =>
    by_cases hdiffer : s.rev.b ≠ blockLen s ∨ s.rev.l + 1 ≠ s.rev.p + blockLen s
    · obtain rfl : .revLen = e := by simpa [revApply_of_lengths_differ (hlegal rfl) hready hdiffer] using h
      simp [faultCodes]
    · obtain ⟨hb, hl⟩ := not_or.1 hdiffer
      simp [revApply_of (hsize rfl) hready (not_not.1 hb) (not_not.1 hl)] at h
  case ksPluck =>
    by_cases hunfit : s.params.ksLen.toNat = 0 ∨ s.caps.maxKs < s.params.ksLen.toNat
    · obtain rfl : .ksLen = e := by simpa [ksPluck_of_unfit hunfit] using h
      simp [faultCodes]
    · simp [ksPluck_of (N := ref64) (s := s) (by omega) (by omega)] at h
  case ksGen => simp [ksGen_of (hsize rfl) hready] at h
  case vibInit =>
    cases hlen : vibLength ref64 s.caps.maxVib s.params.vibWidth s.params.rate with
    | ok n => simp [vibInit_of hlen] at h
    | error e' =>
      obtain rfl : e' = e := by simpa [vibInit, hlen] using h
      simp [faultCodes, vibLength_error hlen]
  case vibApply =>
    cases hrun : vibRun ref64 s (blockLen s) with
    | ok r => simp [vibApply_of (hsize rfl) hready hrun] at h
    | error e' =>
      obtain rfl : e' = e := by simpa [vibApply, hsize rfl, show s.vib.valid = true from hready, hrun] using h
      simp [faultCodes, vibRun_error hrun]

/-- 60_exceptions.md R281: the code is the one of the first check that fails. -/
theorem mem_faultCodes_of_performed_error {i : Instr} {s : State} {e : ErrCode} (h : performed ref64 i s = .error e) :
    e ∈ faultCodes i := by
  by_cases hlegal : usesBlock i = true → blockLegal s
  · cases hready : unitReady i s with
    | true => exact mem_faultCodes_of_firstChecks_pass hlegal hready h
    | false =>
      have hno := performed_of_not_unitReady (hlegal (usesBlock_of_not_unitReady hready)) hready
      obtain rfl : .noState = e := Except.error.inj (hno.symm.trans h)
      exact noState_mem_faultCodes hready
  · obtain ⟨hi, hno⟩ := Classical.not_imp.1 hlegal
    obtain rfl : .bsize = e := Except.error.inj ((performed_of_not_blockLegal hi hno).symm.trans h)
    exact bsize_mem_faultCodes hi

/-- Settles O10: the codes are those of the checks of each command, and the first two checks come in the order of R285. -/
theorem faultCodesAndPriority : Obligations.FaultCodesAndPriority := by
  unfold Obligations.FaultCodesAndPriority
  intro i s t hclear h
  refine ⟨fun hfault => ?codes, fun hi hno => ?size, fun hlegal hno => ?state⟩
  case codes =>
    obtain ⟨e, he, rfl⟩ := exec_inv_of_fault hclear h hfault
    exact mem_faultCodes_of_performed_error he
  case size =>
    obtain ⟨hsize, -⟩ := firstChecks_of_usesBlock hi s hclear
    exact Host.Outcome.next.inj (h.symm.trans (hsize hno))
  case state =>
    have hi := usesBlock_of_not_unitReady hno
    obtain ⟨-, hstate⟩ := firstChecks_of_usesBlock hi s hclear
    exact Host.Outcome.next.inj (h.symm.trans (hstate (hlegal hi) hno))

/-! The fault state (60_exceptions.md R284): who moves, and what it can do there. -/

section Faulted

variable {s : State} (hfault : s.fault = true)

include hfault

/-- The engine has no step in a fault (40_commands.md R141). -/
theorem engineStep_of_fault {t : State} (h : engineStep exec s = .next t) : t = s := by
  obtain ⟨-, hsame⟩ | ⟨⟨-, hclear⟩, -⟩ := engineStep_cases h
  · exact hsame
  · simp [hfault] at hclear

/-- A write to a faulted block is dropped, unless it resets the block (20_memory.md R92). -/
theorem memWrite_cases_of_fault (a : Addr) (w : Word) :
    memWrite ref64 a w s = s ∨ (a = 0x06#24 ∧ w.getLsbD 0 = true ∧ memWrite ref64 a w s = resetBlock ref64 s) := by
  obtain ⟨rfl, hw⟩ | ⟨ha, -⟩ := memWrite_cases a w s
  · by_cases hbit : w.getLsbD 0 = true
    · exact .inr ⟨rfl, hbit, hw.trans (if_pos hbit)⟩
    · exact .inl (hw.trans (if_neg hbit))
  · exact .inl (memWrite_of_fault (fun hctrl => ha (place_eq_ctrl hctrl)) hfault)

end Faulted

/-- Settles O42: in a fault the engine waits, a read returns, a write is dropped, and what is left is a reset. -/
theorem faultIsAbsorbing : Obligations.FaultIsAbsorbing := by
  unfold Obligations.FaultIsAbsorbing
  intro s t hfault h
  have hfault' : ∀ rest, (withScript rest s).fault = true := fun _ => hfault
  obtain ⟨rest, -, hengine⟩ | ⟨a, rest, -, rfl⟩ | ⟨a, w, rest, hs, rfl⟩ | ⟨rest, hs, rfl⟩ := step_cases h
  case inl =>
    rw [engineStep_of_fault (hfault' rest) hengine]
    exact .inl rfl
  case inr.inl =>
    rw [hostRead, memRead_of_fault (hfault' rest)]
    exact .inl rfl
  case inr.inr.inl =>
    obtain hdrop | ⟨rfl, hbit, hreset⟩ := memWrite_cases_of_fault (hfault' rest) a w
    · rw [hdrop]
      exact .inl rfl
    · rw [hreset]
      exact .inr ⟨⟨rest, .inr ⟨w, hs, hbit⟩⟩, rfl⟩
  case inr.inr.inr => exact .inr ⟨⟨rest, .inl hs⟩, rfl⟩

/-- Settles O41: two bits are not both 0 exactly when one of them is set. -/
theorem interruptLine : Obligations.InterruptLine := by
  unfold Obligations.InterruptLine
  have hbits : ∀ x : BitVec 2, x ≠ 0#2 ↔ x.getLsbD 0 = true ∨ x.getLsbD 1 = true := by decide
  intro s
  simp [AnyNum.State.irq, hbits]

end Sys2Proof.Machine

/-! Reset (70_reset_and_hazards.md R320, R321). -/

namespace Sys2Proof.Machine

/-- A write of `CTRL` is a soft reset or nothing, in every state (20_memory.md R89, R92). -/
theorem memWrite_ctrl (w : Word) (s : State) :
    memWrite ref64 0x06#24 w s = if w.getLsbD 0 then resetBlock ref64 s else s := by
  obtain ⟨-, hw⟩ | ⟨hne, -⟩ := memWrite_cases 0x06#24 w s
  · exact hw
  · exact absurd rfl hne

/-- What a reset leaves is `State.reset`, since `lit(0)` of `REF64` is the word 0 (00_scope.md R7); the fields that stay or
advance are the model's own (log entries 5 to 8). -/
theorem resetBlock_eq (s : State) :
    resetBlock ref64 s = { State.reset with caps := s.caps, epoch := s.epoch + 1, draws := s.draws, host := s.host } := by
  rw [resetBlock, whole_zero, State.reset]

/-- Settles O43: both lines of the script come to `resetBlock` of the state whose script is the rest, and that is the state
of reset. -/
theorem resetEffect : Obligations.ResetEffect := by
  unfold Obligations.ResetEffect
  refine ⟨fun s w rest hbit hs => ⟨resetBlock ref64 (withScript rest s), ?_, resetBlock_eq _⟩, fun s w hbit => ?_⟩
  · obtain ⟨-, hwrite, hrst, -⟩ := stepPerformsBusOperation s rest
    obtain hs | hs := hs
    · exact hrst hs
    · exact (hwrite _ w hs).trans (congrArg Host.Outcome.next ((memWrite_ctrl w _).trans (if_pos hbit)))
  · rw [memWrite_ctrl, hbit, if_neg Bool.false_ne_true]

end Sys2Proof.Machine
